-- ==== Sys2Proof/Word.lean ====
section
/-! DEFINITION. The word types of the SCFD block: bytes, 16-bit indices and ticks, 32-bit MMIO words and 64-bit registers.
Widths: R12, R14 (00_scope.md), R21 to R23 (10_state.md), R68 (20_memory.md). -/

namespace Sys2Proof

/-- A byte of PBUF or INITIMG (R12, R30). -/
abbrev Byte := BitVec 8

/-- A 16-bit index, offset or position field of a command (R91). -/
abbrev Half := BitVec 16

/-- An MMIO word (R61). -/
abbrev Word32 := BitVec 32

/-- A command, operand or result register; the datapath width (R21 to R23, R68). -/
abbrev Word64 := BitVec 64

end Sys2Proof
end

