-- ==== Sys2Proof/Config.lean ====
section
/-! DEFINITION. The parameters of the block (R6, 00_scope.md) and the read-only configuration CFG (R8; the tables R40 to R45,
10_state.md). No step writes a configuration; a state carries the one it runs under (notes/assumptions/1.md). -/

namespace Sys2Proof

/-- `TICK_W`, the width of a tick counter and of a due tick: this hardware's value (R6). -/
abbrev Config.tickW : Nat := 16

/-- `EVQ_DEPTH`, the capacity of the event FIFO: this hardware's value (R6). -/
abbrev Config.evqDepth : Nat := 16

/-- A tick counter, due tick or timeout: all tick arithmetic is modulo `2^TICK_W` (R223). -/
abbrev Tick := BitVec Config.tickW

/-- Layout of a field: bit E of a command, or a descriptor's `endian` (R93, R41). -/
inductive Endian where
  | le
  | be
  deriving DecidableEq, Repr

/-- The signal types (R41, R160). The five constructors are the five legal kinds, so the check CW-SIG-KIND of R11 holds of
every value of this type. -/
inductive SigKind where
  | bool
  | uint
  | sint
  | opaqueArray
  | dynArray
  deriving DecidableEq, Repr

/-- `REGION[r]` (R40): the PBUF address of its byte 0 and its size in bytes. -/
structure Region where
  base : Nat
  size : Nat
  deriving DecidableEq, Repr

/-- `SIGDESC[i]` (R41). A reference is `none` for NONE (R7). -/
structure SigDesc where
  kind   : SigKind
  typew  : Nat
  reg    : Nat
  pos    : Nat
  size   : Nat
  endian : Endian
  len    : Nat
  filt   : Option Nat
  dm     : Option Nat
  ub     : Option Nat
  grp    : Option Nat
  deriving DecidableEq, Repr

/-- `GRPDESC[g]` (R42). `mask` is `none` when every bit is copied. -/
structure GrpDesc where
  pdureg  : Nat
  off     : Nat
  len     : Nat
  shreg   : Option Nat
  mask    : Option (List Byte)
  ub      : Option Nat
  members : List Nat
  deriving DecidableEq, Repr

/-- The filter kinds, numbered 0 to 8 in this order (R43). -/
inductive FiltKind where
  | always
  | never
  | maskedNewDiffersMaskedOld
  | oneEveryN
  | equal
  | notEqual
  | min
  | max
  | window
  deriving DecidableEq, Repr

/-- `FILTCFG[f]` (R43). -/
structure FiltCfg where
  kind    : FiltKind
  sgn     : Bool
  mask    : Word64
  x       : Word64
  min     : Word64
  max     : Word64
  n       : BitVec 32
  initOld : Word64
  deriving DecidableEq, Repr

/-- Reception or transmission monitoring (R44). -/
inductive SlotKind where
  | rx
  | tx
  deriving DecidableEq, Repr

/-- `SLOTCFG[s]` (R44). -/
structure SlotCfg where
  dom  : Nat
  kind : SlotKind
  per  : Bool
  tag  : Half
  deriving DecidableEq, Repr

/-- `HOST_ENDIAN` (R6): the byte-lane order of the host bus. No rule depends on it (R68). -/
inductive HostEndian where
  | le
  | be
  deriving DecidableEq, Repr

/-- The configuration ROM CFG with the OPEN parameters (R6, R8). The counts NREG, NSIG, NGRP, NFILT and NSLOT are the lengths of
the tables; `initImg` is INITIMG (R45). -/
structure Cfg where
  pbufBytes  : Nat
  ndom       : Nat
  regions    : List Region
  sigs       : List SigDesc
  grps       : List GrpDesc
  filts      : List FiltCfg
  slots      : List SlotCfg
  initImg    : List Byte
  blockBase  : Nat
  hostEndian : HostEndian
  deriving DecidableEq, Repr

/-- The filter slot whose every field is zero: the base that configurations are written over. -/
def FiltCfg.blank : FiltCfg :=
  { kind := .always, sgn := false, mask := 0, x := 0, min := 0, max := 0, n := 0, initOld := 0 }

/-- The scalar signal descriptor without references that configurations are written over. -/
def SigDesc.blank : SigDesc :=
  { kind := .uint, typew := 64, reg := 0, pos := 0, size := 1, endian := .le, len := 0,
    filt := none, dm := none, ub := none, grp := none }

/-- CFG-P, the configuration the spec's own programs share (95_test_vectors.md section 9). It is the configuration of
`State.reset`; DESIGN CHOICE (the spec leaves CFG open, notes/assumptions/1.md). -/
def Config.cfgP : Cfg :=
  { pbufBytes := 22
    ndom := 1
    regions := [⟨0, 8⟩, ⟨8, 8⟩, ⟨16, 4⟩, ⟨20, 2⟩]
    sigs :=
      [{ SigDesc.blank with typew := 16, pos := 8, size := 16, filt := some 0, ub := some 0 },
       { SigDesc.blank with kind := .sint, typew := 16, pos := 39, size := 12, endian := .be, filt := some 1 },
       { SigDesc.blank with typew := 8, reg := 1, size := 8, dm := some 0 },
       { SigDesc.blank with typew := 8, reg := 3, pos := 4, size := 4, grp := some 0 },
       { SigDesc.blank with typew := 8, reg := 3, pos := 8, size := 8, grp := some 0 }]
    grps :=
      [{ pdureg := 2, off := 1, len := 2, shreg := some 3, mask := some [0xF0, 0xFF], ub := some 0, members := [3, 4] }]
    filts :=
      [{ FiltCfg.blank with kind := .maskedNewDiffersMaskedOld, mask := 0xFF00 },
       { FiltCfg.blank with kind := .window, sgn := true, min := -100, max := 100 }]
    slots :=
      [{ dom := 0, kind := .rx, per := false, tag := 0x000B },
       { dom := 0, kind := .tx, per := false, tag := 0x000A }]
    initImg := List.replicate 8 0 ++ [0x7F] ++ List.replicate 13 0
    blockBase := 0
    hostEndian := .le }

end Sys2Proof
end

