-- ==== Sys2Proof/Syntax.lean ====
section
/-! DEFINITION. The commands of the block, one constructor per row of the opcode table (R101, 30_encoding.md), with the operand
fields of their formats (R93 to R99), and the assembler's pseudo-instructions (R104). VAL is a register of the port, not part
of a command (R90). -/

namespace Sys2Proof

/-- Bit S of format F (R93): how a field is widened to 64 bits. -/
inductive Ext where
  | zero
  | sign
  deriving DecidableEq, Repr

/-- SEL of FILT_RDST (R97): which field of the filter state is read. -/
inductive FiltSel where
  | old
  | cnt
  deriving DecidableEq, Repr

/-- A decoded command. `szm1` and `lnm1` are the encoded size or length minus one (R93, R94), `pos` and `off` the 16-bit
position or byte offset, and the last field of each command is IDX (R91). -/
inductive Instr where
  | nop
  | fldRd (ext : Ext) (endian : Endian) (szm1 : BitVec 6) (pos idx : Half)
  | fldWr (ext : Ext) (endian : Endian) (szm1 : BitVec 6) (pos idx : Half)
  | bufRd (lnm1 : BitVec 3) (off idx : Half)
  | bufWr (lnm1 : BitVec 3) (off idx : Half)
  | bufInit (idx : Half)
  | sigRd (lnm1 : BitVec 3) (off idx : Half)
  | sigWr (lnm1 : BitVec 3) (off idx : Half)
  | dlenRd (idx : Half)
  | dlenWr (idx : Half)
  | grpCommit (idx : Half)
  | grpFetch (idx : Half)
  | filtEval (idx : Half)
  | filtReset (idx : Half)
  | filtRdst (sel : FiltSel) (idx : Half)
  | dmArm (idx : Half)
  | dmDisarm (ntf : Bool) (idx : Half)
  | dmClear (idx : Half)
  | dmStat (idx : Half)
  | tick (idx : Half)
  | nowRd (idx : Half)
  | evtPop
  deriving DecidableEq, Repr

/-- The pseudo-instructions of the assembler (R104). DRAIN is a host loop, not a fixed sequence: see `drain` in
Machine/HostProtocol.lean. -/
inductive Pseudo where
  | setUb (reg pos : Half)
  | clrUb (reg pos : Half)
  | tstUb (reg pos : Half)
  | load (reg off : Half) (bytes : List Byte)
  | store (reg off : Half) (count : Nat)
  | stopMon (slot : Half)
  deriving DecidableEq, Repr

end Sys2Proof
end

