-- ==== Sys2Proof/Machine/Layout.lean ====
section
/-! DEFINITION. Where a field's bits stand: the bit addresses of little- and big-endian fields and the range test
(R121 to R125, 40_codec.md), and the configuration look-ups that need no state. -/

namespace Sys2Proof

/-- The MSB-first linear index of a sawtooth bit address; its own inverse (R123). -/
def msbIndex (k : Nat) : Nat := 8 * (k / 8) + 7 - k % 8

/-- The bit address of field bit `i`: `addrLE` (R122) or `addrBE` (R123). -/
def bitAddr (e : Endian) (pos size i : Nat) : Nat :=
  match e with
  | .le => pos + i
  | .be => msbIndex (msbIndex pos + size - 1 - i)

/-- `8 * REGION[r].size`, the number of bit addresses of a region (R121). -/
def Region.bits (r : Region) : Nat := 8 * r.size

/-- The first linear index of a field, in the numbering in which it is contiguous (R124): `pos`, or its MSB-first index. -/
def fieldStart (e : Endian) (pos : Nat) : Nat :=
  match e with
  | .le => pos
  | .be => msbIndex pos

/-- The range test `fits` (R124). -/
def Region.fits (r : Region) (e : Endian) (pos size : Nat) : Bool :=
  decide (fieldStart e pos + size ≤ r.bits)

/-- BOOL, UINT and SINT are scalar and go through the bit codec; OPAQUE and DYN are byte arrays (R160). -/
def SigKind.isScalar (k : SigKind) : Bool :=
  match k with
  | .bool | .uint | .sint => true
  | .opaqueArray | .dynArray => false

/-- `REGION[r]`. A well-formed configuration names only regions that exist (R11). -/
def Cfg.region (c : Cfg) (r : Nat) : Region := c.regions.getD r ⟨0, 0⟩

/-- `FILTCFG[f]`. -/
def Cfg.filt (c : Cfg) (f : Nat) : FiltCfg := c.filts.getD f FiltCfg.blank

/-- `SLOTCFG[k]`. -/
def Cfg.slot (c : Cfg) (k : Nat) : SlotCfg := c.slots.getD k ⟨0, .rx, false, 0⟩

/-- `INITIMG[a]` (R45). -/
def Cfg.initByte (c : Cfg) (a : Nat) : Byte := c.initImg.getD a 0

/-- The bytes INITIMG[a], ..., INITIMG[a+n-1] (R45). -/
def Cfg.initBytes (c : Cfg) (a n : Nat) : List Byte := (List.range n).map fun k => c.initByte (a + k)

/-- `IBit(k)`, a bit of INITIMG at a sawtooth bit address (R14). -/
def Cfg.initBit (c : Cfg) (k : Nat) : Bool := (c.initByte (k / 8)).getLsbD (k % 8)

/-- The first PBUF byte of a chunk of an array signal, `arrayAddr` (R162). -/
def Cfg.arrayAddr (c : Cfg) (d : SigDesc) (off : Nat) : Nat := (c.region d.reg).base + d.pos / 8 + off

/-- The absolute bit address of bit address `k` of a region: `RBit(r, k) = PBit(8 * base + k)` (R121). -/
def Region.bit (r : Region) (k : Nat) : Nat := 8 * r.base + k

/-- The bit addresses, in its region, that a signal occupies: a scalar's field bits (R122, R123), an array's bytes (R162). -/
def SigDesc.bitAddrs (d : SigDesc) : List Nat :=
  if d.kind.isScalar then (List.range d.size).map (bitAddr d.endian d.pos d.size)
  else (List.range (8 * d.len)).map (d.pos + ·)

end Sys2Proof
end

