-- ==== Sys2Proof/Machine/CfgChecks.lean ====
section
/-! DEFINITION. The named checks of a well-formed configuration (R11, 00_scope.md), one definition each, and the legal ranges of
the parameters (R6, R7). CW-SIG-KIND and the kind parts of CW-FILT and CW-SLOT hold by the types of Config.lean. -/

namespace Sys2Proof

/-- The legal ranges of R6: PBUF_BYTES 1..65536, NDOM 1..65536, every count at most 65536 (R7). -/
def Cfg.paramsLegal (c : Cfg) : Bool :=
  decide (1 ≤ c.pbufBytes ∧ c.pbufBytes ≤ 65536 ∧ 1 ≤ c.ndom ∧ c.ndom ≤ 65536 ∧ c.regions.length ≤ 65536 ∧
    c.sigs.length ≤ 65536 ∧ c.grps.length ≤ 65536 ∧ c.filts.length ≤ 65536 ∧ c.slots.length ≤ 65536)

/-- CW-REG. -/
def Cfg.cwReg (c : Cfg) : Bool :=
  c.regions.all fun r => decide (1 ≤ r.size) && decide (r.size ≤ 8192) && decide (r.base + r.size ≤ c.pbufBytes)

/-- CW-INIT. -/
def Cfg.cwInit (c : Cfg) : Bool := decide (c.initImg.length = c.pbufBytes)

/-- CW-SIG-REG. -/
def Cfg.cwSigReg (c : Cfg) : Bool := c.sigs.all fun d => decide (d.reg < c.regions.length)

/-- The declared width of a UINT or SINT bounds its size; a BOOL has no declared width (CW-SIG-SCALAR). -/
def SigDesc.typewOk (d : SigDesc) : Bool :=
  match d.kind with
  | .uint | .sint => decide (d.typew = 8 ∨ d.typew = 16 ∨ d.typew = 32 ∨ d.typew = 64) && decide (d.size ≤ d.typew)
  | .bool | .opaqueArray | .dynArray => true

/-- CW-SIG-SCALAR. -/
def Cfg.cwSigScalar (c : Cfg) : Bool :=
  c.sigs.all fun d => !d.kind.isScalar ||
    (decide (1 ≤ d.size) && decide (d.size ≤ 64) && d.typewOk && (c.region d.reg).fits d.endian d.pos d.size)

/-- CW-SIG-ARRAY. -/
def Cfg.cwSigArray (c : Cfg) : Bool :=
  c.sigs.all fun d => d.kind.isScalar ||
    (decide (d.pos % 8 = 0) && decide (1 ≤ d.len) && decide (d.pos / 8 + d.len ≤ (c.region d.reg).size) && d.filt.isNone)

/-- CW-SIG-FILT. -/
def Cfg.cwSigFilt (c : Cfg) : Bool :=
  c.sigs.all fun d => match d.filt with
    | none => true
    | some f => decide (f < c.filts.length) && ((c.filt f).sgn == decide (d.kind = .sint))

/-- CW-SIG-DM. -/
def Cfg.cwSigDm (c : Cfg) : Bool :=
  c.sigs.all fun d => match d.dm with
    | none => true
    | some k => decide (k < c.slots.length) && decide ((c.slot k).kind = .rx)

/-- CW-SIG-UB: the update bit is inside the region and outside the signal's own bits (for an array: outside its bytes,
notes/assumptions/10.md). -/
def Cfg.cwSigUb (c : Cfg) : Bool :=
  c.sigs.all fun d => match d.ub with
    | none => true
    | some u => decide (u < (c.region d.reg).bits) && !d.bitAddrs.contains u

/-- CW-GRP, for one group. -/
def Cfg.groupOk (c : Cfg) (g : GrpDesc) : Bool :=
  decide (g.pdureg < c.regions.length) && decide (g.off + g.len ≤ (c.region g.pdureg).size) && decide (1 ≤ g.len) &&
  (match g.shreg with
   | none => true
   | some r =>
      decide (r < c.regions.length) && decide (g.len ≤ (c.region r).size) &&
      decide ((c.region r).base + g.len ≤ (c.region g.pdureg).base + g.off ∨
              (c.region g.pdureg).base + g.off + g.len ≤ (c.region r).base)) &&
  (match g.ub with
   | none => true
   | some u => decide (u < (c.region g.pdureg).bits)) &&
  (match g.mask with
   | none => true
   | some m => decide (m.length = g.len))

/-- CW-GRP. -/
def Cfg.cwGrp (c : Cfg) : Bool := c.grps.all c.groupOk

/-- No signal is a member of two groups of the list. -/
def membersDisjoint : List GrpDesc → Bool
  | [] => true
  | g :: gs => gs.all (fun h => h.members.all fun i => !g.members.contains i) && membersDisjoint gs

/-- CW-GRP-MEMBER (R10: "a signal belongs to at most one group"). -/
def Cfg.cwGrpMember (c : Cfg) : Bool := membersDisjoint c.grps

/-- CW-FILT: a divide-by-N slot has N at least 1. -/
def Cfg.cwFilt (c : Cfg) : Bool := c.filts.all fun f => decide (f.kind ≠ .oneEveryN) || decide (1 ≤ f.n.toNat)

/-- CW-SLOT. -/
def Cfg.cwSlot (c : Cfg) : Bool := c.slots.all fun k => decide (k.dom < c.ndom)

end Sys2Proof
end

