-- ==== Sys2Proof/WellFormed.lean ====
section
/-! DEFINITION. Well-formedness: of a configuration (R11, 00_scope.md: the conjunction of the named checks of
Machine/CfgChecks.lean), and of a command's index against a configuration (R7, R100 step 3). The operand fields themselves are
bit vectors of their formats' widths, so every operand of an `Instr` is one an encoding admits (R99). -/

namespace Sys2Proof

/-- CFG is well-formed: every named check of R11 holds and every parameter is in its legal range (R6). -/
def Cfg.wf (c : Cfg) : Bool :=
  [c.paramsLegal, c.cwReg, c.cwInit, c.cwSigReg, c.cwSigScalar, c.cwSigArray, c.cwSigFilt, c.cwSigDm, c.cwSigUb, c.cwGrp,
    c.cwGrpMember, c.cwFilt, c.cwSlot].all id

/-- The index a command names and the count it is checked against (R101, R100 step 3); format N has no index. -/
def Instr.index? (c : Cfg) (i : Instr) : Option (Half × Nat) :=
  match i with
  | .nop | .evtPop => none
  | .fldRd _ _ _ _ r | .fldWr _ _ _ _ r | .bufRd _ _ r | .bufWr _ _ r | .bufInit r => some (r, c.regions.length)
  | .sigRd _ _ k | .sigWr _ _ k | .dlenRd k | .dlenWr k => some (k, c.sigs.length)
  | .grpCommit g | .grpFetch g => some (g, c.grps.length)
  | .filtEval f | .filtReset f | .filtRdst _ f => some (f, c.filts.length)
  | .dmArm k | .dmDisarm _ k | .dmClear k | .dmStat k => some (k, c.slots.length)
  | .tick d | .nowRd d => some (d, c.ndom)

/-- "an index in a command is legal only when it is less than its count" (R7). -/
def Instr.indexLegal (c : Cfg) (i : Instr) : Bool :=
  match i.index? c with
  | none => true
  | some (k, n) => decide (k.toNat < n)

end Sys2Proof
end

