-- ==== Sys2Proof/Decode.lean ====
section
/-! DEFINITION. Decoding and encoding of the 64-bit command word (R90 to R102, 30_encoding.md). Decoding is total: every word is a
command, or is rejected by name with the code the block reports (R92, R100 steps 1 and 2, R102). -/

namespace Sys2Proof

/-- Why a command word selects no command: an unassigned opcode, or a 1 in a must-be-0 bit of its format (R102). -/
inductive DecodeError where
  | opc
  | rsvd
  deriving DecidableEq, Repr

/-- The command formats (R93 to R98). -/
inductive Format where
  | f
  | b
  | s
  | x
  | xs
  | n
  deriving DecidableEq, Repr

/-- The must-be-0 bits of a format (R91, R93 to R98). -/
def Format.reservedMask (fmt : Format) : Word64 :=
  match fmt with
  | .f  => 0xFFFF000000000000
  | .b  => 0xFFFF00000000F800
  | .s  => 0xFFFF00000000F800
  | .x  => 0xFFFF0000FFFFFF00
  | .xs => 0xFFFF0000FFFFFE00
  | .n  => 0xFFFFFFFFFFFFFF00

/-- Bits 7:0, OPC (R91). -/
def opcOf (w : Word64) : BitVec 8 := w.extractLsb' 0 8
/-- Bits 47:32, IDX (R91). -/
def idxOf (w : Word64) : Half := w.extractLsb' 32 16
/-- Bits 31:16, POS of format F (R93) and OFF of formats B and S (R94, R95). -/
def posOf (w : Word64) : Half := w.extractLsb' 16 16
/-- Bits 13:8, SZM1 of format F (R93). -/
def szm1Of (w : Word64) : BitVec 6 := w.extractLsb' 8 6
/-- Bits 10:8, LNM1 of formats B and S (R94, R95). -/
def lnm1Of (w : Word64) : BitVec 3 := w.extractLsb' 8 3
/-- Bit 14, E of format F: 0 little-endian, 1 big-endian (R93). -/
def endianOf (w : Word64) : Endian := if w.getLsbD 14 then .be else .le
/-- Bit 15, S of format F: 1 sign-extends (R93). -/
def extOf (w : Word64) : Ext := if w.getLsbD 15 then .sign else .zero
/-- Bit 8, SEL of format XS (R97). -/
def selOf (w : Word64) : Bool := w.getLsbD 8
/-- SEL of FILT_RDST: 0 reads OLD, 1 reads CNT (R97). -/
def filtSelOf (w : Word64) : FiltSel := if selOf w then .cnt else .old

/-- The reserved-bit check of a format, then the command (R100 step 2). -/
def checked (fmt : Format) (w : Word64) (i : Instr) : Except DecodeError Instr :=
  if w &&& fmt.reservedMask = 0 then .ok i else .error .rsvd

/-- Decode a command word: the opcode map R101, in the check order of R100. -/
def decode (w : Word64) : Except DecodeError Instr :=
  match (opcOf w).toNat with
  | 0x00 => checked .n w .nop
  | 0x01 => checked .f w (.fldRd (extOf w) (endianOf w) (szm1Of w) (posOf w) (idxOf w))
  | 0x02 => checked .f w (.fldWr (extOf w) (endianOf w) (szm1Of w) (posOf w) (idxOf w))
  | 0x03 => checked .b w (.bufRd (lnm1Of w) (posOf w) (idxOf w))
  | 0x04 => checked .b w (.bufWr (lnm1Of w) (posOf w) (idxOf w))
  | 0x05 => checked .x w (.bufInit (idxOf w))
  | 0x08 => checked .s w (.sigRd (lnm1Of w) (posOf w) (idxOf w))
  | 0x09 => checked .s w (.sigWr (lnm1Of w) (posOf w) (idxOf w))
  | 0x0A => checked .x w (.dlenRd (idxOf w))
  | 0x0B => checked .x w (.dlenWr (idxOf w))
  | 0x0C => checked .x w (.grpCommit (idxOf w))
  | 0x0D => checked .x w (.grpFetch (idxOf w))
  | 0x10 => checked .x w (.filtEval (idxOf w))
  | 0x11 => checked .x w (.filtReset (idxOf w))
  | 0x12 => checked .xs w (.filtRdst (filtSelOf w) (idxOf w))
  | 0x18 => checked .x w (.dmArm (idxOf w))
  | 0x19 => checked .xs w (.dmDisarm (selOf w) (idxOf w))
  | 0x1A => checked .x w (.dmClear (idxOf w))
  | 0x1B => checked .x w (.dmStat (idxOf w))
  | 0x1C => checked .x w (.tick (idxOf w))
  | 0x1D => checked .x w (.nowRd (idxOf w))
  | 0x1E => checked .n w .evtPop
  | _ => .error .opc

/-- The instruction the decoder reads from an opcode-table word `w` of `nbits` bits: every command is one 64-bit word (R90), its
bits above `nbits` zero. -/
def decodeTableWord (nbits w : Nat) : Option Instr := (decode (BitVec.ofNat 64 (w % 2 ^ nbits))).toOption

/-- The bit of E (R93). -/
def Endian.toBit (e : Endian) : BitVec 1 :=
  match e with
  | .le => 0
  | .be => 1

/-- The bit of S (R93). -/
def Ext.toBit (x : Ext) : BitVec 1 :=
  match x with
  | .zero => 0
  | .sign => 1

/-- The bit of SEL of FILT_RDST (R97). -/
def FiltSel.toBit (s : FiltSel) : BitVec 1 :=
  match s with
  | .old => 0
  | .cnt => 1

/-- The encoding string of format F (R93). -/
def encodeF (opc : BitVec 8) (x : Ext) (e : Endian) (szm1 : BitVec 6) (pos idx : Half) : Word64 :=
  0#16 ++ idx ++ pos ++ x.toBit ++ e.toBit ++ szm1 ++ opc

/-- The encoding string of formats B and S (R94, R95). -/
def encodeB (opc : BitVec 8) (lnm1 : BitVec 3) (off idx : Half) : Word64 :=
  0#16 ++ idx ++ off ++ 0#5 ++ lnm1 ++ opc

/-- The encoding string of format X (R96). -/
def encodeX (opc : BitVec 8) (idx : Half) : Word64 := 0#16 ++ idx ++ 0#24 ++ opc

/-- The encoding string of format XS (R97). -/
def encodeXS (opc : BitVec 8) (sel : BitVec 1) (idx : Half) : Word64 := 0#16 ++ idx ++ 0#23 ++ sel ++ opc

/-- The encoding string of format N (R98). -/
def encodeN (opc : BitVec 8) : Word64 := 0#32 ++ 0#24 ++ opc

/-- The opcode and the format of each command (R101). -/
def Instr.opcode (i : Instr) : BitVec 8 × Format :=
  match i with
  | .nop => (0x00, .n)
  | .fldRd .. => (0x01, .f)
  | .fldWr .. => (0x02, .f)
  | .bufRd .. => (0x03, .b)
  | .bufWr .. => (0x04, .b)
  | .bufInit .. => (0x05, .x)
  | .sigRd .. => (0x08, .s)
  | .sigWr .. => (0x09, .s)
  | .dlenRd .. => (0x0A, .x)
  | .dlenWr .. => (0x0B, .x)
  | .grpCommit .. => (0x0C, .x)
  | .grpFetch .. => (0x0D, .x)
  | .filtEval .. => (0x10, .x)
  | .filtReset .. => (0x11, .x)
  | .filtRdst .. => (0x12, .xs)
  | .dmArm .. => (0x18, .x)
  | .dmDisarm .. => (0x19, .xs)
  | .dmClear .. => (0x1A, .x)
  | .dmStat .. => (0x1B, .x)
  | .tick .. => (0x1C, .x)
  | .nowRd .. => (0x1D, .x)
  | .evtPop => (0x1E, .n)

/-- The command word of a command (R93 to R98, R101). -/
def encode (i : Instr) : Word64 :=
  match i with
  | .nop => encodeN 0x00
  | .fldRd x e z p r => encodeF 0x01 x e z p r
  | .fldWr x e z p r => encodeF 0x02 x e z p r
  | .bufRd l o r => encodeB 0x03 l o r
  | .bufWr l o r => encodeB 0x04 l o r
  | .bufInit r => encodeX 0x05 r
  | .sigRd l o k => encodeB 0x08 l o k
  | .sigWr l o k => encodeB 0x09 l o k
  | .dlenRd k => encodeX 0x0A k
  | .dlenWr k => encodeX 0x0B k
  | .grpCommit g => encodeX 0x0C g
  | .grpFetch g => encodeX 0x0D g
  | .filtEval f => encodeX 0x10 f
  | .filtReset f => encodeX 0x11 f
  | .filtRdst s f => encodeXS 0x12 s.toBit f
  | .dmArm k => encodeX 0x18 k
  | .dmDisarm n k => encodeXS 0x19 (BitVec.ofBool n) k
  | .dmClear k => encodeX 0x1A k
  | .dmStat k => encodeX 0x1B k
  | .tick d => encodeX 0x1C d
  | .nowRd d => encodeX 0x1D d
  | .evtPop => encodeN 0x1E

end Sys2Proof
end

