-- ==== Sys2Proof/Machine/State.lean ====
section
/-! DEFINITION. The machine's state (R20 to R46, 10_state.md), all of it plain data, the reasons a step can stop, and the state
after reset (R46; R340, 70_reset_and_hazards.md). -/

namespace Sys2Proof.Machine

/-- The two command ports (NPORT = 2, R6). -/
inductive PortId where
  | p0
  | p1
  deriving DecidableEq, Repr

/-- The two host agents (R20). -/
inductive HostId where
  | h0
  | h1
  deriving DecidableEq, Repr

/-- The status codes a command can end with (R300); codes 7 to 15 are never produced. -/
inductive StatusCode where
  | ok
  | errOpc
  | errRsvd
  | errIndex
  | errType
  | errRange
  | errValue
  deriving DecidableEq, Repr

/-- The registers of one port: CMD, VAL, RES (R21 to R23) and the fields of STATUS (R24). -/
structure Port where
  cmd  : Word64
  val  : Word64
  res  : Word64
  busy : Bool
  code : StatusCode
  ovr  : Bool
  sub  : Bool
  deriving DecidableEq, Repr

/-- The event types that are pushed (R222); types 0 and 5 to 7 never are. -/
inductive EventType where
  | rxTimeout
  | txTimeout
  | txTimeoutStop
  | txStopNotify
  deriving DecidableEq, Repr

/-- An event of the FIFO (R35). -/
structure Event where
  type : EventType
  slot : Half
  tag  : Half
  dom  : Half
  deriving DecidableEq, Repr

/-- `FST[f]` (R32). -/
structure FiltState where
  old : Word64
  cnt : Word32
  deriving DecidableEq, Repr

/-- `DM[s]` (R33). -/
structure DmSlot where
  run : Bool
  timeout : Bool
  due : Tick
  deriving DecidableEq, Repr

/-- A table of records by index, listing only the entries that differ from their value at reset, indices strictly rising: one
canonical list for each contents (`Table.wf` in Ops.lean). -/
abbrev Table (α : Type) := List (Nat × α)

/-- PBUF as the bytes that differ from INITIMG at their address: an unlisted byte reads as its reset contents (R30). -/
abbrev Memory := List Host.Cell

/-- A host agent: the index of its next command (R29), and the value its last MMIO read returned (R63; the model's own field,
notes/assumptions/5.md). -/
structure HostAgent where
  nextCmd : Nat
  rdata   : Word32
  deriving DecidableEq, Repr

/-- The width of an MMIO access; only 32-bit accesses have a step (R61). -/
inductive AccessWidth where
  | w8
  | w16
  | w32
  | w64
  deriving DecidableEq, Repr

/-- One step of one agent (R20): an MMIO read or write of a host at a host address, an Exec step with the port it takes when both
are busy (R92), or a hardware reset (R340). -/
inductive AgentStep where
  | hostRead  (h : HostId) (addr : Nat) (width : AccessWidth)
  | hostWrite (h : HostId) (addr : Nat) (width : AccessWidth) (data : Word32)
  | execute   (prefer : PortId)
  | hardReset
  deriving DecidableEq, Repr

/-- The state of the block (R46), its configuration (R8), the host agents (R20, R29) and the agent steps to come. `sched` and
`cur` (the port whose command Exec performs) are the model's own fields (notes/assumptions/2.md, 4.md). -/
structure State where
  cfg    : Cfg
  port0  : Port
  port1  : Port
  irqEn  : Bool
  ovf    : Bool
  evq    : List Event
  pbuf   : Memory
  dynlen : Table Half
  fst    : Table FiltState
  dm     : Table DmSlot
  now    : Table Tick
  host0  : HostAgent
  host1  : HostAgent
  sched  : List AgentStep
  cur    : PortId
  deriving DecidableEq, Repr

/-- Why the machine stops with a fault. -/
inductive Fault where
  /-- Raised by a host's MMIO access that is not an aligned 32-bit access inside the block's window: the spec gives it "no step"
  (R61). Safe: the model stops where the spec says that nothing happens. -/
  | noBusStep
  deriving DecidableEq, Repr

/-- Why the model gives a step no meaning. -/
inductive Refusal where
  /-- Raised by an arm of `exec` whose instruction has no meaning yet. Safe. No arm raises it. -/
  | notModelled (mnemonic : String)
  /-- Raised by every step and every command under a configuration that fails a check of R11: "a model shall refuse" it (R9).
  Safe: the spec has no execution with such a configuration (R306). -/
  | illFormedConfig
  deriving DecidableEq, Repr

/-- A port after reset (R46). -/
def Port.reset : Port :=
  { cmd := 0, val := 0, res := 0, busy := false, code := .ok, ovr := false, sub := false }

/-- The state right after reset under configuration `c`, with no agent step to come (R46, R340). -/
def State.resetOf (c : Cfg) : State :=
  { cfg := c
    port0 := Port.reset
    port1 := Port.reset
    irqEn := false
    ovf := false
    evq := []
    pbuf := []
    dynlen := []
    fst := []
    dm := []
    now := []
    host0 := ⟨0, 0⟩
    host1 := ⟨0, 0⟩
    sched := []
    cur := .p0 }

/-- The machine right after reset. The spec leaves the configuration open; this state carries the spec's own CFG-P (DESIGN
CHOICE, notes/assumptions/1.md). -/
def State.reset : State := State.resetOf Config.cfgP

end Sys2Proof.Machine
end

