-- ==== Sys2Proof/Machine/Ops.lean ====
section
/-! DEFINITION. The named operations over tables, memory and registers (R14, 00_scope.md), the events (R221), and how a command
ends: `complete` (R16), and `raise` (R15), which is all there is of taking an exception (R313: the block takes no trap, saves no
state and fetches no vector; R314: so there is no return from one). -/

namespace Sys2Proof.Machine

/-- What one command or one step answers. -/
abbrev Result := Host.Outcome State Fault Refusal

/-- The entry at index `k`; an unlisted entry has its reset value `dflt k`. -/
def Table.read {α : Type} (dflt : Nat → α) (m : Table α) (k : Nat) : α :=
  match m with
  | [] => dflt k
  | c :: m => if c.1 = k then c.2 else Table.read dflt m k

/-- Put an entry before the first one with a larger or equal index. -/
def Table.insert {α : Type} (m : Table α) (k : Nat) (v : α) : Table α :=
  match m with
  | [] => [(k, v)]
  | c :: m => if c.1 < k then c :: Table.insert m k v else (k, v) :: c :: m

/-- Write the entry at index `k`, keeping the canonical form: writing the reset value removes the entry. -/
def Table.write {α : Type} [DecidableEq α] (dflt : Nat → α) (m : Table α) (k : Nat) (v : α) : Table α :=
  let m' := m.filter fun c => c.1 != k
  if v = dflt k then m' else Table.insert m' k v

/-- Indices strictly rising from `lo` on. -/
def Table.rising {α : Type} (lo : Nat) (m : Table α) : Bool :=
  match m with
  | [] => true
  | c :: m => decide (lo ≤ c.1) && Table.rising (c.1 + 1) m

/-- The canonical form: indices strictly rising, and no entry equal to what an unlisted one reads as. -/
def Table.wf {α : Type} [DecidableEq α] (dflt : Nat → α) (m : Table α) : Bool :=
  Table.rising 0 m && m.all fun c => decide (c.2 ≠ dflt c.1)

/-- PBUF[a] (R14); an unlisted byte reads as INITIMG[a] (R30). -/
def Memory.read (c : Cfg) (m : Memory) (a : Nat) : Byte := Table.read c.initByte m a

/-- `PBUF[a] <- b` (R14). -/
def Memory.write (c : Cfg) (m : Memory) (a : Nat) (b : Byte) : Memory := Table.write c.initByte m a b

/-- The canonical form of PBUF. -/
def Memory.wf (c : Cfg) (m : Memory) : Bool := Table.wf c.initByte m

/-- `FST[f]` at reset and after FILT_RESET (R32, R199). -/
def initFilt (c : Cfg) (f : Nat) : FiltState := { old := (c.filt f).initOld, cnt := 0 }

/-- `DM[s]` at reset (R33). -/
def DmSlot.idle : DmSlot := { run := false, timeout := false, due := 0 }

/-- PBUF[a] (R14). -/
def State.byteAt (s : State) (a : Nat) : Byte := Memory.read s.cfg s.pbuf a

/-- `PBUF[a] <- b` (R14). -/
def State.setByte (s : State) (a : Nat) (b : Byte) : State := { s with pbuf := Memory.write s.cfg s.pbuf a b }

/-- `DYNLEN[i]` (R31). -/
def State.dynlenAt (s : State) (i : Nat) : Half := Table.read (fun _ => 0) s.dynlen i

/-- `DYNLEN[i] <- v` (R31). -/
def State.setDynlen (s : State) (i : Nat) (v : Half) : State := { s with dynlen := Table.write (fun _ => 0) s.dynlen i v }

/-- `FST[f]` (R32). -/
def State.fstAt (s : State) (f : Nat) : FiltState := Table.read (initFilt s.cfg) s.fst f

/-- `FST[f] <- v` (R32). -/
def State.setFst (s : State) (f : Nat) (v : FiltState) : State :=
  { s with fst := Table.write (initFilt s.cfg) s.fst f v }

/-- `DM[k]` (R33). -/
def State.dmAt (s : State) (k : Nat) : DmSlot := Table.read (fun _ => DmSlot.idle) s.dm k

/-- `DM[k] <- v` (R33). -/
def State.setDm (s : State) (k : Nat) (v : DmSlot) : State := { s with dm := Table.write (fun _ => DmSlot.idle) s.dm k v }

/-- `NOW[d]` (R34). -/
def State.nowAt (s : State) (d : Nat) : Tick := Table.read (fun _ => 0) s.now d

/-- `NOW[d] <- v` (R34). -/
def State.setNow (s : State) (d : Nat) (v : Tick) : State := { s with now := Table.write (fun _ => 0) s.now d v }

/-- `PBit(k)`, a bit of PBUF at an absolute sawtooth bit address (R14). -/
def State.bitAt (s : State) (k : Nat) : Bool := (s.byteAt (k / 8)).getLsbD (k % 8)

/-- A byte with one bit replaced (R14). -/
def setBit (b : Byte) (j : Nat) (v : Bool) : Byte :=
  if v then b ||| (1#8 <<< j) else b &&& ~~~(1#8 <<< j)

/-- `PBit(k) <- v`: writes that one bit (R14). -/
def State.setBitAt (s : State) (k : Nat) (v : Bool) : State :=
  s.setByte (k / 8) (setBit (s.byteAt (k / 8)) (k % 8) v)

/-- `MemRead(a, n)` (R14). -/
def State.memRead (s : State) (a n : Nat) : List Byte := (List.range n).map fun k => s.byteAt (a + k)

/-- `MemWrite(a, n, bs)` (R14). -/
def State.memWrite (s : State) (a : Nat) (bs : List Byte) : State :=
  match bs with
  | [] => s
  | b :: bs => (s.setByte a b).memWrite (a + 1) bs

/-- The registers of port `p` (R21 to R24). -/
def State.port (s : State) (p : PortId) : Port :=
  match p with
  | .p0 => s.port0
  | .p1 => s.port1

/-- Replace the registers of port `p`. -/
def State.setPort (s : State) (p : PortId) (x : Port) : State :=
  { s with port0 := if p = .p0 then x else s.port0, port1 := if p = .p1 then x else s.port1 }

/-- The other port. -/
def PortId.other (p : PortId) : PortId :=
  match p with
  | .p0 => .p1
  | .p1 => .p0

/-- Host agent `h` (R20). -/
def State.host (s : State) (h : HostId) : HostAgent :=
  match h with
  | .h0 => s.host0
  | .h1 => s.host1

/-- Replace host agent `h`. -/
def State.setHost (s : State) (h : HostId) (x : HostAgent) : State :=
  { s with host0 := if h = .h0 then x else s.host0, host1 := if h = .h1 then x else s.host1 }

/-- The operand VAL of the executing port (R22). -/
def State.operand (s : State) : Word64 := (s.port s.cur).val

/-- `complete(res)`: RES, CODE = OK, BUSY = 0, and SUB = 0 unless the rule sets it (R16). -/
def State.complete (s : State) (res : Word64) (sub : Bool := false) : State :=
  s.setPort s.cur { s.port s.cur with res := res, code := .ok, busy := false, sub := sub }

/-- `raise Err(code)`: CODE, SUB = 0, BUSY = 0 and nothing else; RES keeps its value (R15, R302). -/
def State.raise (s : State) (e : StatusCode) : State :=
  s.setPort s.cur { s.port s.cur with code := e, busy := false, sub := false }

/-- A model refuses an ill-formed configuration: it has no meaning for it (R9, R306). -/
def State.guarded (s : State) (r : Result) : Result := if s.cfg.wf then r else .refused .illFormedConfig

/-- The index check of R100 step 3: the entry the index names, or ERR_INDEX. -/
def State.indexed {α : Type} (s : State) (entry : Option α) (k : α → Result) : Result :=
  match entry with
  | none => .next (s.raise .errIndex)
  | some x => k x

/-- A further check of R100 (steps 3 to 6): go on when it holds, else end with its code. -/
def State.require (s : State) (ok : Bool) (e : StatusCode) (r : Result) : Result := if ok then r else .next (s.raise e)

/-- The event `push_event(type, k)` appends (R221). -/
def State.eventOf (s : State) (t : EventType) (k : Nat) : Event :=
  { type := t, slot := BitVec.ofNat 16 k, tag := (s.cfg.slot k).tag, dom := BitVec.ofNat 16 (s.cfg.slot k).dom }

/-- `push_event(type, k)`: append, or drop the new event and set OVF when the FIFO is full (R221). -/
def State.pushEvent (s : State) (t : EventType) (k : Nat) : State :=
  if s.evq.length < Config.evqDepth then { s with evq := s.evq ++ [s.eventOf t k] } else { s with ovf := true }

/-- Every piece of block state at its reset value (R340), the state change of the hardware and of the soft reset (R341). The
configuration, the hosts and the steps to come are not block state. -/
def State.resetBlock (s : State) : State :=
  { State.resetOf s.cfg with host0 := s.host0, host1 := s.host1, sched := s.sched, cur := s.cur }

end Sys2Proof.Machine
end

