-- ==== Sys2Proof/Machine/Operands.lean ====
section
/-! DEFINITION. Every operand form: sizes and lengths of commands (R99), the extension primitives (R13), extraction and insertion
of fields (R126 to R128, 40_codec.md), scalar encoding and decoding (R161), byte packing (R70), and the halves of a 64-bit
register (R68). -/

namespace Sys2Proof.Machine

/-- `size = SZM1 + 1`, 1..64 (R99). -/
def fieldSize (szm1 : BitVec 6) : Nat := szm1.toNat + 1

/-- `n = LNM1 + 1`, 1..8 bytes (R99). -/
def chunkLen (lnm1 : BitVec 3) : Nat := lnm1.toNat + 1

/-- `v[size-1:0]`, that is `trunc_size(v)`, zero-extended (R13). -/
def trunc (size : Nat) (v : Word64) : Word64 := v &&& BitVec.ofNat 64 (2 ^ size - 1)

/-- `sext_64(f, size)` (R13). -/
def signExtend (size : Nat) (f : Word64) : Word64 :=
  if f.getLsbD (size - 1) then f + BitVec.ofNat 64 (2 ^ 64 - 2 ^ size) else f

/-- `decode(f, size, S)`, the extension multiplexer (R128), of a field held zero-extended. -/
def extend (x : Ext) (size : Nat) (f : Word64) : Word64 :=
  match x with
  | .zero => f
  | .sign => signExtend size f

/-- The sum over `i < n` of `bit i * 2^i` (R126). -/
def gather (bit : Nat → Bool) (n : Nat) : Nat :=
  match n with
  | 0 => 0
  | n + 1 => gather bit n + (if bit n then 2 ^ n else 0)

/-- `extract(r, pos, size, E)` from PBUF (R126). -/
def State.extract (s : State) (r : Region) (e : Endian) (pos size : Nat) : Word64 :=
  BitVec.ofNat 64 (gather (fun i => s.bitAt (r.bit (bitAddr e pos size i))) size)

/-- `extractInit(r, pos, size, E)`: the same from INITIMG (R126). -/
def State.extractInit (s : State) (r : Region) (e : Endian) (pos size : Nat) : Word64 :=
  BitVec.ofNat 64 (gather (fun i => s.cfg.initBit (r.bit (bitAddr e pos size i))) size)

/-- The first `n` of the writes `RBit(r, addr(pos, size, E, i)) <- f[i]` (R127). -/
def State.insertBits (s : State) (r : Region) (e : Endian) (pos size : Nat) (f : Word64) (n : Nat) : State :=
  match n with
  | 0 => s
  | n + 1 => (s.insertBits r e pos size f n).setBitAt (r.bit (bitAddr e pos size n)) (f.getLsbD n)

/-- `insert(r, pos, size, E, f)` (R127). -/
def State.insert (s : State) (r : Region) (e : Endian) (pos size : Nat) (f : Word64) : State :=
  s.insertBits r e pos size f size

/-- `encodeScalar(d, v)`: a BOOL is stored as 1 or 0, any other scalar truncated to its size (R161). -/
def encodeScalar (d : SigDesc) (v : Word64) : Word64 :=
  match d.kind with
  | .bool => if v = 0 then 0 else 1
  | .uint | .sint | .opaqueArray | .dynArray => trunc d.size v

/-- `decodeScalar(d, f)` (R161): S = 1 exactly for SINT (R160). -/
def decodeScalar (d : SigDesc) (f : Word64) : Word64 :=
  match d.kind with
  | .bool => if f = 0 then 0 else 1
  | .sint => signExtend d.size f
  | .uint | .opaqueArray | .dynArray => f

/-- Byte k of a transfer is bits 8k+7:8k of the result (R70). -/
def packBytes (bs : List Byte) : Word64 :=
  match bs with
  | [] => 0
  | b :: bs => (packBytes bs <<< 8) ||| b.setWidth 64

/-- Bytes 0..n-1 of the operand, byte k being bits 8k+7:8k (R70). -/
def unpackBytes (n : Nat) (v : Word64) : List Byte := (List.range n).map fun k => v.extractLsb' (8 * k) 8

/-- Bits 31:0 of a 64-bit register (R68). -/
def loHalf (w : Word64) : Word32 := w.extractLsb' 0 32

/-- Bits 63:32 of a 64-bit register (R68). -/
def hiHalf (w : Word64) : Word32 := w.extractLsb' 32 32

/-- Replace bits 31:0. -/
def setLoHalf (w : Word64) (v : Word32) : Word64 := hiHalf w ++ v

/-- Replace bits 63:32. -/
def setHiHalf (w : Word64) (v : Word32) : Word64 := v ++ loHalf w

/-- A result that is one bit (R198, R225, R226). -/
def bitWord (b : Bool) : Word64 := if b then 1 else 0

end Sys2Proof.Machine
end

