-- ==== Sys2Proof/Machine/Flags.lean ====
section
/-! DEFINITION. Every status word and flag: the codes (R300), STATUS (R24), CTRL (R26), EVQ_STAT (R27), PARAM0 (R28), the interrupt
level (R310) and the event word (R264). The block has no condition codes (R37). -/

namespace Sys2Proof.Machine

/-- The 4-bit value of a status code (R300). -/
def StatusCode.toBits (c : StatusCode) : BitVec 4 :=
  match c with
  | .ok => 0
  | .errOpc => 1
  | .errRsvd => 2
  | .errIndex => 3
  | .errType => 4
  | .errRange => 5
  | .errValue => 6

/-- The code of a word that decodes to no command (R100 steps 1 and 2). -/
def codeOf (e : DecodeError) : StatusCode :=
  match e with
  | .opc => .errOpc
  | .rsvd => .errRsvd

/-- `P.STATUS` as read: SUB, OVR, CODE, three zero bits, BUSY (R24). -/
def Port.status (p : Port) : Word32 :=
  0#22 ++ BitVec.ofBool p.sub ++ BitVec.ofBool p.ovr ++ p.code.toBits ++ 0#3 ++ BitVec.ofBool p.busy

/-- `CTRL` as read: SRST reads 0 (R26). -/
def State.ctrl (s : State) : Word32 := 0#31 ++ BitVec.ofBool s.irqEn

/-- `EVQ_STAT.COUNT` (R27). -/
def State.evqCount (s : State) : BitVec 8 := BitVec.ofNat 8 s.evq.length

/-- `EVQ_STAT` as read: OVF, COUNT (R27). -/
def State.evqStat (s : State) : Word32 := 0#23 ++ BitVec.ofBool s.ovf ++ s.evqCount

/-- `PARAM0`: TICK_W, EVQ_DEPTH (R28). -/
def param0 : Word32 := 0#18 ++ BitVec.ofNat 6 Config.tickW ++ BitVec.ofNat 8 Config.evqDepth

/-- `IRQ = CTRL.IRQ_EN AND (EVQ_STAT.COUNT != 0)`, a level that is a function of state (R36, R310). -/
def State.irq (s : State) : Bool := s.irqEn && decide (s.evq ≠ [])

/-- The 3-bit number of an event type (R222). -/
def EventType.toBits (t : EventType) : BitVec 3 :=
  match t with
  | .rxTimeout => 1
  | .txTimeout => 2
  | .txTimeoutStop => 3
  | .txStopNotify => 4

/-- `eventWord(e)` (R264). -/
def Event.word (e : Event) : Word64 := e.dom ++ e.tag ++ e.slot ++ 0#12 ++ e.type.toBits ++ 1#1

/-- The result of DM_STAT: DUE in the high word, TO in bit 1, RUN in bit 0 (R227). -/
def DmSlot.word (d : DmSlot) : Word64 :=
  d.due.setWidth 32 ++ (0#30 ++ BitVec.ofBool d.timeout ++ BitVec.ofBool d.run)

end Sys2Proof.Machine
end

