-- ==== Sys2Proof/Machine/Codec.lean ====
section
/-! DEFINITION. The raw field and byte commands (40_codec.md, R130 to R134). -/

namespace Sys2Proof.Machine

/-- FLD_RD (R130). -/
def execFldRd (x : Ext) (e : Endian) (szm1 : BitVec 6) (pos idx : Half) (s : State) : Result :=
  s.guarded <|
  s.indexed s.cfg.regions[idx.toNat]? fun r =>
  s.require (r.fits e pos.toNat (fieldSize szm1)) .errRange <|
  .next (s.complete (extend x (fieldSize szm1) (s.extract r e pos.toNat (fieldSize szm1))))

/-- FLD_WR (R131): the result is the read-back of the field just written. -/
def execFldWr (x : Ext) (e : Endian) (szm1 : BitVec 6) (pos idx : Half) (s : State) : Result :=
  s.guarded <|
  s.indexed s.cfg.regions[idx.toNat]? fun r =>
  s.require (r.fits e pos.toNat (fieldSize szm1)) .errRange <|
  .next ((s.insert r e pos.toNat (fieldSize szm1) (trunc (fieldSize szm1) s.operand)).complete
    (extend x (fieldSize szm1) (trunc (fieldSize szm1) s.operand)))

/-- BUF_RD (R132). -/
def execBufRd (lnm1 : BitVec 3) (off idx : Half) (s : State) : Result :=
  s.guarded <|
  s.indexed s.cfg.regions[idx.toNat]? fun r =>
  s.require (decide (off.toNat + chunkLen lnm1 ≤ r.size)) .errRange <|
  .next (s.complete (packBytes (s.memRead (r.base + off.toNat) (chunkLen lnm1))))

/-- BUF_WR (R133). -/
def execBufWr (lnm1 : BitVec 3) (off idx : Half) (s : State) : Result :=
  s.guarded <|
  s.indexed s.cfg.regions[idx.toNat]? fun r =>
  s.require (decide (off.toNat + chunkLen lnm1 ≤ r.size)) .errRange <|
  .next ((s.memWrite (r.base + off.toNat) (unpackBytes (chunkLen lnm1) s.operand)).complete 0)

/-- BUF_INIT (R134): the whole region from INITIMG. -/
def execBufInit (idx : Half) (s : State) : Result :=
  s.guarded <|
  s.indexed s.cfg.regions[idx.toNat]? fun r =>
  .next ((s.memWrite r.base (s.cfg.initBytes r.base r.size)).complete 0)

end Sys2Proof.Machine
end

