-- ==== Sys2Proof/Machine/Control.lean ====
section
/-! DEFINITION. The control family (44_control.md): NOP (R261) and EVT_POP (R263). The block has no control transfer (R260, R262). -/

namespace Sys2Proof.Machine

/-- NOP (R261). -/
def execNop (s : State) : Result :=
  s.guarded <|
  .next (s.complete 0)

/-- EVT_POP (R263): an empty FIFO gives 0; OVF is not changed. -/
def execEvtPop (s : State) : Result :=
  s.guarded <|
  match s.evq with
  | [] => .next (s.complete 0)
  | e :: rest => .next (State.complete { s with evq := rest } e.word)

end Sys2Proof.Machine
end

