-- ==== Sys2Proof/Machine/Deadline.lean ====
section
/-! DEFINITION. The deadline-monitor commands (43_deadline.md, R223 to R232). -/

namespace Sys2Proof.Machine

/-- DM_ARM (R224): the due tick is `(NOW[d] + T) mod 2^W`. -/
def execDmArm (idx : Half) (s : State) : Result :=
  s.guarded <|
  s.indexed s.cfg.slots[idx.toNat]? fun c =>
  s.require (decide (s.operand.toNat ≠ 0) && decide (s.operand.toNat < 2 ^ Config.tickW)) .errValue <|
  let due := s.nowAt c.dom + s.operand.setWidth Config.tickW
  .next ((s.setDm idx.toNat { run := true, timeout := false, due := due }).complete (due.setWidth 64))

/-- DM_DISARM (R225). -/
def execDmDisarm (ntf : Bool) (idx : Half) (s : State) : Result :=
  s.guarded <|
  s.indexed s.cfg.slots[idx.toNat]? fun c =>
  let was := (s.dmAt idx.toNat).run
  let t := s.setDm idx.toNat { s.dmAt idx.toNat with run := false }
  .next ((if ntf && was && decide (c.kind = .tx) then t.pushEvent .txStopNotify idx.toNat else t).complete (bitWord was))

/-- DM_CLEAR (R226). -/
def execDmClear (idx : Half) (s : State) : Result :=
  s.guarded <|
  s.indexed s.cfg.slots[idx.toNat]? fun _ =>
  .next ((s.setDm idx.toNat { s.dmAt idx.toNat with timeout := false }).complete (bitWord (s.dmAt idx.toNat).timeout))

/-- DM_STAT (R227). -/
def execDmStat (idx : Half) (s : State) : Result :=
  s.guarded <|
  s.indexed s.cfg.slots[idx.toNat]? fun _ =>
  .next (s.complete (s.dmAt idx.toNat).word)

/-- The event type of the expiry of a slot (R222, R230). -/
def expiryType (c : SlotCfg) : EventType :=
  match c.kind with
  | .rx => .rxTimeout
  | .tx => if c.per then .txTimeout else .txTimeoutStop

/-- The expiry condition of slot `k` on a TICK of domain `d`, after the increment (R228). -/
def State.expires (s : State) (d k : Nat) : Bool :=
  decide ((s.cfg.slot k).dom = d) && (s.dmAt k).run && decide ((s.dmAt k).due = s.nowAt d)

/-- The action on expiry of slot `k` (R230). -/
def State.expire (s : State) (k : Nat) : State :=
  (s.setDm k { s.dmAt k with run := false, timeout := true }).pushEvent (expiryType (s.cfg.slot k)) k

/-- The scan of slots 0..n-1 in ascending order (R229, R231): the state, and the number of slots that expired. -/
def State.scanSlots (s : State) (d n : Nat) : State × Nat :=
  match n with
  | 0 => (s, 0)
  | n + 1 =>
    let t := s.scanSlots d n
    if t.1.expires d n then (t.1.expire n, t.2 + 1) else t

/-- TICK (R231): increment, then expire. -/
def execTick (idx : Half) (s : State) : Result :=
  s.guarded <|
  s.require (decide (idx.toNat < s.cfg.ndom)) .errIndex <|
  let t := (s.setNow idx.toNat (s.nowAt idx.toNat + 1)).scanSlots idx.toNat s.cfg.slots.length
  .next (t.1.complete (BitVec.ofNat 32 t.2 ++ (t.1.nowAt idx.toNat).setWidth 32))

/-- NOW_RD (R232). -/
def execNowRd (idx : Half) (s : State) : Result :=
  s.guarded <|
  s.require (decide (idx.toNat < s.cfg.ndom)) .errIndex <|
  .next (s.complete ((s.nowAt idx.toNat).setWidth 64))

end Sys2Proof.Machine
end

