-- ==== Sys2Proof/Machine/Filter.lean ====
section
/-! DEFINITION. The filter evaluator (42_filter.md): `filterStep` (R190 to R197) and the filter commands (R198 to R200). -/

namespace Sys2Proof.Machine

/-- `ge(a, b, sgn)` (R197). -/
def filtGe (sgn : Bool) (a b : Word64) : Bool := if sgn then b.sle a else b.ule a

/-- `le(a, b, sgn)` (R197). -/
def filtLe (sgn : Bool) (a b : Word64) : Bool := if sgn then a.sle b else a.ule b

/-- The pass bit of an evaluation (R192). -/
def filterPass (c : FiltCfg) (st : FiltState) (v : Word64) : Bool :=
  match c.kind with
  | .always => true
  | .never => false
  | .maskedNewDiffersMaskedOld => decide (v &&& c.mask ≠ st.old &&& c.mask)
  | .oneEveryN => decide (st.cnt = 0)
  | .equal => decide (v = c.x)
  | .notEqual => decide (v ≠ c.x)
  | .min => filtGe c.sgn v c.min
  | .max => filtLe c.sgn v c.max
  | .window => filtGe c.sgn v c.min && filtLe c.sgn v c.max

/-- The state after an evaluation (R192): a kind changes only the field it uses (R191). `CNT + 1` is at most `N`, so the sum is
taken without a wrap (notes/assumptions/15.md). -/
def filterNext (c : FiltCfg) (st : FiltState) (v : Word64) : FiltState :=
  match c.kind with
  | .maskedNewDiffersMaskedOld => { st with old := v }
  | .oneEveryN => { st with cnt := BitVec.ofNat 32 ((st.cnt.toNat + 1) % c.n.toNat) }
  | .always | .never | .equal | .notEqual | .min | .max | .window => st

/-- The pass bit of `filterStep(f, v)` (R192). -/
def State.filterPassAt (s : State) (f : Nat) (v : Word64) : Bool := filterPass (s.cfg.filt f) (s.fstAt f) v

/-- The write of `filterStep(f, v)` to `FST[f]` (R192). -/
def State.filterStep (s : State) (f : Nat) (v : Word64) : State := s.setFst f (filterNext (s.cfg.filt f) (s.fstAt f) v)

/-- FILT_EVAL (R198). -/
def execFiltEval (idx : Half) (s : State) : Result :=
  s.guarded <|
  s.indexed s.cfg.filts[idx.toNat]? fun _ =>
  .next ((s.filterStep idx.toNat s.operand).complete (bitWord (s.filterPassAt idx.toNat s.operand)))

/-- FILT_RESET (R199). -/
def execFiltReset (idx : Half) (s : State) : Result :=
  s.guarded <|
  s.indexed s.cfg.filts[idx.toNat]? fun c =>
  .next ((s.setFst idx.toNat { old := c.initOld, cnt := 0 }).complete 0)

/-- FILT_RDST (R200). -/
def execFiltRdst (sel : FiltSel) (idx : Half) (s : State) : Result :=
  s.guarded <|
  s.indexed s.cfg.filts[idx.toNat]? fun _ =>
  .next (s.complete (match sel with
    | .old => (s.fstAt idx.toNat).old
    | .cnt => (s.fstAt idx.toNat).cnt.setWidth 64))

end Sys2Proof.Machine
end

