-- ==== Sys2Proof/Machine/Signal.lean ====
section
/-! DEFINITION. The signal, dynamic-length and group commands (41_signal.md, R163 to R169). -/

namespace Sys2Proof.Machine

/-- A read of the signal returns its init value: the slot that watches it has TIMEOUT set (R163). -/
def State.substitutes (s : State) (d : SigDesc) : Bool :=
  match d.dm with
  | none => false
  | some k => (s.dmAt k).timeout

/-- The field a scalar read takes: from INITIMG under substitution, from PBUF otherwise (R163). -/
def State.readScalar (s : State) (d : SigDesc) : Word64 :=
  if s.substitutes d then s.extractInit (s.cfg.region d.reg) d.endian d.pos d.size
  else s.extract (s.cfg.region d.reg) d.endian d.pos d.size

/-- The bytes an array read takes (R163). -/
def State.readChunk (s : State) (d : SigDesc) (off n : Nat) : List Byte :=
  if s.substitutes d then s.cfg.initBytes (s.cfg.arrayAddr d off) n else s.memRead (s.cfg.arrayAddr d off) n

/-- `if ub != NONE: RBit(reg, ub) <- 1` (R165). -/
def State.setUpdateBit (s : State) (reg : Nat) (ub : Option Nat) : State :=
  match ub with
  | none => s
  | some u => s.setBitAt ((s.cfg.region reg).bit u) true

/-- SIG_RD (R163). -/
def execSigRd (lnm1 : BitVec 3) (off idx : Half) (s : State) : Result :=
  s.guarded <|
  s.indexed s.cfg.sigs[idx.toNat]? fun d =>
  if d.kind.isScalar then
    s.require (decide (lnm1 = 0) && decide (off = 0)) .errType <|
    .next (s.complete (decodeScalar d (s.readScalar d)) (s.substitutes d))
  else
    s.require (decide (off.toNat + chunkLen lnm1 ≤ d.len)) .errRange <|
    .next (s.complete (packBytes (s.readChunk d off.toNat (chunkLen lnm1))) (s.substitutes d))

/-- The field a scalar SIG_WR stores (R164). -/
def State.writeScalar (s : State) (d : SigDesc) (v : Word64) : State :=
  s.insert (s.cfg.region d.reg) d.endian d.pos d.size (encodeScalar d v)

/-- The filter step of a scalar SIG_WR: the state after it (R164). -/
def State.writeFilter (s : State) (d : SigDesc) (dv : Word64) : State :=
  match d.filt with
  | none => s
  | some f => s.filterStep f dv

/-- The result of a scalar SIG_WR: 0, or 2 + pass when a filter was evaluated (R164). -/
def State.writeResult (s : State) (d : SigDesc) (dv : Word64) : Word64 :=
  match d.filt with
  | none => 0
  | some f => if s.filterPassAt f dv then 3 else 2

/-- SIG_WR (R164): the filter sees the value decoded from the field just written. -/
def execSigWr (lnm1 : BitVec 3) (off idx : Half) (s : State) : Result :=
  s.guarded <|
  s.indexed s.cfg.sigs[idx.toNat]? fun d =>
  if d.kind.isScalar then
    s.require (decide (lnm1 = 0) && decide (off = 0)) .errType <|
    .next ((((s.writeScalar d s.operand).writeFilter d (decodeScalar d (encodeScalar d s.operand))).setUpdateBit
      d.reg d.ub).complete (s.writeResult d (decodeScalar d (encodeScalar d s.operand))))
  else
    s.require (decide (off.toNat + chunkLen lnm1 ≤ d.len)) .errRange <|
    .next (((s.memWrite (s.cfg.arrayAddr d off.toNat) (unpackBytes (chunkLen lnm1) s.operand)).setUpdateBit
      d.reg d.ub).complete 0)

/-- DLEN_RD (R166). -/
def execDlenRd (idx : Half) (s : State) : Result :=
  s.guarded <|
  s.indexed s.cfg.sigs[idx.toNat]? fun d =>
  s.require (decide (d.kind = .dynArray)) .errType <|
  .next (s.complete ((s.dynlenAt idx.toNat).setWidth 64))

/-- DLEN_WR (R167): VAL is compared as a u64. -/
def execDlenWr (idx : Half) (s : State) : Result :=
  s.guarded <|
  s.indexed s.cfg.sigs[idx.toNat]? fun d =>
  s.require (decide (d.kind = .dynArray)) .errType <|
  s.require (decide (s.operand.toNat ≤ d.len)) .errRange <|
  .next ((s.setDynlen idx.toNat (s.operand.extractLsb' 0 16)).complete 0)

/-- The write-mask byte `k` of a group: 0xFF where there is no mask (R168). -/
def maskByte (g : GrpDesc) (k : Nat) : Byte :=
  match g.mask with
  | none => 0xFF
  | some m => m.getD k 0

/-- The byte a commit leaves: `(p AND NOT m) OR (shadow AND m)` (R168). -/
def mergeByte (p sh m : Byte) : Byte := (p &&& ~~~m) ||| (sh &&& m)

/-- The copies k = 0..n-1 of GRP_COMMIT, from the shadow at `sb` to the I-PDU at `pb`: the state, and whether a byte changed
(R168). -/
def State.commitBytes (s : State) (g : GrpDesc) (pb sb n : Nat) : State × Bool :=
  match n with
  | 0 => (s, false)
  | n + 1 =>
    let t := s.commitBytes g pb sb n
    let p := t.1.byteAt (pb + n)
    let np := mergeByte p (t.1.byteAt (sb + n)) (maskByte g n)
    (t.1.setByte (pb + n) np, t.2 || decide (np ≠ p))

/-- GRP_COMMIT (R168). -/
def execGrpCommit (idx : Half) (s : State) : Result :=
  s.guarded <|
  s.indexed s.cfg.grps[idx.toNat]? fun g =>
  match g.shreg with
  | none => .next (s.raise .errType)
  | some r =>
    let t := s.commitBytes g ((s.cfg.region g.pdureg).base + g.off) (s.cfg.region r).base g.len
    .next ((t.1.setUpdateBit g.pdureg g.ub).complete (bitWord t.2))

/-- The copies k = 0..n-1 of GRP_FETCH, from the I-PDU at `pb` to the shadow at `sb` (R169). -/
def State.fetchBytes (s : State) (pb sb n : Nat) : State :=
  match n with
  | 0 => s
  | n + 1 => (s.fetchBytes pb sb n).setByte (sb + n) ((s.fetchBytes pb sb n).byteAt (pb + n))

/-- GRP_FETCH (R169). -/
def execGrpFetch (idx : Half) (s : State) : Result :=
  s.guarded <|
  s.indexed s.cfg.grps[idx.toNat]? fun g =>
  match g.shreg with
  | none => .next (s.raise .errType)
  | some r =>
    .next ((s.fetchBytes ((s.cfg.region g.pdureg).base + g.off) (s.cfg.region r).base g.len).complete 0)

end Sys2Proof.Machine
end

