-- ==== Sys2Proof/Machine/Dispatch.lean ====
section
/-! DEFINITION. One arm per command (R101), each one call of its meaning. -/

namespace Sys2Proof.Machine

/-- The meaning of a command in the state in which Exec performs it, on the port `s.cur` (R92). -/
def exec (i : Instr) (s : State) : Host.Outcome State Fault Refusal :=
  match i with
  | .nop => Sys2Proof.Machine.execNop s
  | .fldRd x e z p r => Sys2Proof.Machine.execFldRd x e z p r s
  | .fldWr x e z p r => Sys2Proof.Machine.execFldWr x e z p r s
  | .bufRd l o r => Sys2Proof.Machine.execBufRd l o r s
  | .bufWr l o r => Sys2Proof.Machine.execBufWr l o r s
  | .bufInit r => Sys2Proof.Machine.execBufInit r s
  | .sigRd l o k => Sys2Proof.Machine.execSigRd l o k s
  | .sigWr l o k => Sys2Proof.Machine.execSigWr l o k s
  | .dlenRd k => Sys2Proof.Machine.execDlenRd k s
  | .dlenWr k => Sys2Proof.Machine.execDlenWr k s
  | .grpCommit g => Sys2Proof.Machine.execGrpCommit g s
  | .grpFetch g => Sys2Proof.Machine.execGrpFetch g s
  | .filtEval f => Sys2Proof.Machine.execFiltEval f s
  | .filtReset f => Sys2Proof.Machine.execFiltReset f s
  | .filtRdst sel f => Sys2Proof.Machine.execFiltRdst sel f s
  | .dmArm k => Sys2Proof.Machine.execDmArm k s
  | .dmDisarm ntf k => Sys2Proof.Machine.execDmDisarm ntf k s
  | .dmClear k => Sys2Proof.Machine.execDmClear k s
  | .dmStat k => Sys2Proof.Machine.execDmStat k s
  | .tick d => Sys2Proof.Machine.execTick d s
  | .nowRd d => Sys2Proof.Machine.execNowRd d s
  | .evtPop => Sys2Proof.Machine.execEvtPop s

end Sys2Proof.Machine
end

