-- ==== Sys2Proof/Machine/Mmio.lean ====
section
/-! DEFINITION. The MMIO interface (20_memory.md, R61 to R66): the register map, reads, and writes with their side effects. -/

namespace Sys2Proof.Machine

/-- The registers of the map R62; reserved offsets read 0 and ignore writes. -/
inductive Reg where
  | cmdLo (p : PortId)
  | cmdHi (p : PortId)
  | valLo (p : PortId)
  | valHi (p : PortId)
  | resLo (p : PortId)
  | resHi (p : PortId)
  | status (p : PortId)
  | ctrl
  | evqStat
  | param0
  | reserved
  deriving DecidableEq, Repr

/-- The register map of the window 0x00..0x7C by word offset (R62). -/
def regOfOffset (off : Nat) : Reg :=
  match off with
  | 0x00 => .cmdLo .p0
  | 0x04 => .cmdHi .p0
  | 0x08 => .valLo .p0
  | 0x0C => .valHi .p0
  | 0x10 => .resLo .p0
  | 0x14 => .resHi .p0
  | 0x18 => .status .p0
  | 0x20 => .cmdLo .p1
  | 0x24 => .cmdHi .p1
  | 0x28 => .valLo .p1
  | 0x2C => .valHi .p1
  | 0x30 => .resLo .p1
  | 0x34 => .resHi .p1
  | 0x38 => .status .p1
  | 0x40 => .ctrl
  | 0x44 => .evqStat
  | 0x48 => .param0
  | _ => .reserved

/-- The register an access reaches: only a 32-bit access at an offset from BLOCK_BASE that is a multiple of 4 inside 0x00..0x7C
reaches one (R61, R75). -/
def State.regAt? (s : State) (addr : Nat) (width : AccessWidth) : Option Reg :=
  if width = .w32 ∧ s.cfg.blockBase ≤ addr ∧ addr - s.cfg.blockBase ≤ 0x7C ∧ (addr - s.cfg.blockBase) % 4 = 0 then
    some (regOfOffset (addr - s.cfg.blockBase))
  else none

/-- The current value of a register (R63). -/
def State.readReg (s : State) (r : Reg) : Word32 :=
  match r with
  | .cmdLo p => loHalf (s.port p).cmd
  | .cmdHi p => hiHalf (s.port p).cmd
  | .valLo p => loHalf (s.port p).val
  | .valHi p => hiHalf (s.port p).val
  | .resLo p => loHalf (s.port p).res
  | .resHi p => hiHalf (s.port p).res
  | .status p => (s.port p).status
  | .ctrl => s.ctrl
  | .evqStat => s.evqStat
  | .param0 => Sys2Proof.Machine.param0
  | .reserved => 0

/-- A write to CMD or VAL of port `p`: ignored with OVR set while the port is busy (R65), else the given port (R64). -/
def State.latch (s : State) (p : PortId) (x : Port) : State :=
  if (s.port p).busy then s.setPort p { s.port p with ovr := true } else s.setPort p x

/-- A successful submit advances the host's command index by one (R29); an ignored one does not. -/
def State.countSubmit (s : State) (h : HostId) (p : PortId) : State :=
  if (s.port p).busy then s else s.setHost h { s.host h with nextCmd := (s.host h).nextCmd + 1 }

/-- A write of `w` by host `h` (R64 to R66). A write of CMD_HI to an idle port submits. -/
def State.writeReg (s : State) (h : HostId) (r : Reg) (w : Word32) : State :=
  match r with
  | .cmdLo p => s.latch p { s.port p with cmd := setLoHalf (s.port p).cmd w }
  | .cmdHi p => (s.countSubmit h p).latch p { s.port p with cmd := setHiHalf (s.port p).cmd w, busy := true }
  | .valLo p => s.latch p { s.port p with val := setLoHalf (s.port p).val w }
  | .valHi p => s.latch p { s.port p with val := setHiHalf (s.port p).val w }
  | .status p => if w.getLsbD 8 then s.setPort p { s.port p with ovr := false } else s
  | .ctrl => if w.getLsbD 1 then s.resetBlock else { s with irqEn := w.getLsbD 0 }
  | .evqStat => if w.getLsbD 8 then { s with ovf := false } else s
  | .resLo _ | .resHi _ | .param0 | .reserved => s

/-- An MMIO read step of host `h`: the value goes to the host and no register of the block changes (R63). -/
def State.hostRead (s : State) (h : HostId) (addr : Nat) (width : AccessWidth) : Result :=
  match s.regAt? addr width with
  | none => .fault .noBusStep
  | some r => .next (s.setHost h { s.host h with rdata := s.readReg r })

/-- An MMIO write step of host `h`. -/
def State.hostWrite (s : State) (h : HostId) (addr : Nat) (width : AccessWidth) (w : Word32) : Result :=
  match s.regAt? addr width with
  | none => .fault .noBusStep
  | some r => .next (s.writeReg h r w)

end Sys2Proof.Machine
end

