-- ==== Sys2Proof/Machine/Executor.lean ====
section
/-! DEFINITION. The Exec agent (R92, 30_encoding.md) and the step of each agent (R20, 10_state.md). -/

namespace Sys2Proof.Machine

/-- The port Exec serves: the preferred one if it is busy, else the other if that is busy (R92: "it chooses one such port"). -/
def State.servedPort (s : State) (prefer : PortId) : Option PortId :=
  if (s.port prefer).busy then some prefer
  else if (s.port prefer.other).busy then some prefer.other
  else none

/-- Exec performs the command of port `p`: decode P.CMD (R100 steps 1 and 2), then its meaning; one indivisible step (R92). -/
def State.servePort (s : State) (p : PortId) : Result :=
  match decode (s.port p).cmd with
  | .error e => (State.guarded { s with cur := p } (.next (State.raise { s with cur := p } (codeOf e))))
  | .ok i => exec i { s with cur := p }

/-- An Exec step; with no busy port Exec is idle (R325). -/
def State.execute (s : State) (prefer : PortId) : Result :=
  match s.servedPort prefer with
  | none => .next s
  | some p => s.servePort p

/-- One step of one agent (R20). -/
def State.agentStep (s : State) (a : AgentStep) : Result :=
  match a with
  | .hostRead h addr width => s.hostRead h addr width
  | .hostWrite h addr width w => s.hostWrite h addr width w
  | .execute prefer => s.execute prefer
  | .hardReset => .next s.resetBlock

/-- The next step: the agent step at the head of the schedule; with none to come, nothing changes (notes/assumptions/3.md). -/
def State.nextStep (s : State) : Result :=
  match s.sched with
  | [] => .next s
  | a :: rest => State.agentStep { s with sched := rest } a

/-- Port 0 holding the submitted command `w`, with an Exec step that takes it next (notes/assumptions/12.md). -/
def State.submitted (s : State) (w : Word64) : State :=
  { s.setPort .p0 { s.port0 with cmd := w, busy := true } with sched := .execute .p0 :: s.sched }

end Sys2Proof.Machine
end

