-- ==== Sys2Proof/Machine/Step.lean ====
section
/-! DEFINITION. One step of the machine (R20, R92), refusing an ill-formed configuration (R9), and where the next command stands. -/

namespace Sys2Proof.Machine

/-- One step: no step exists under an ill-formed configuration (R9, R306). -/
def step (s : State) : Host.Outcome State Fault Refusal := s.guarded s.nextStep

/-- `s` with the command word `w` (bits above `nbits` zero) submitted on port 0 and taken by the very next step. -/
def State.withFetchWord (s : State) (nbits w : Nat) : State := s.submitted (BitVec.ofNat 64 (w % 2 ^ nbits))

end Sys2Proof.Machine
end

