-- ==== Sys2Proof/Machine/Assembler.lean ====
section
/-! DEFINITION. The assembler's view of a command: its mnemonic (R101), its line in the syntax of R103 (30_encoding.md), and the
expansions of the pseudo-instructions (R104). Nothing of the machine depends on this file. -/

namespace Sys2Proof

/-- The mnemonic of a command (R101). -/
def Instr.mnemonic (i : Instr) : String :=
  match i with
  | .nop => "NOP"
  | .fldRd .. => "FLD_RD"
  | .fldWr .. => "FLD_WR"
  | .bufRd .. => "BUF_RD"
  | .bufWr .. => "BUF_WR"
  | .bufInit .. => "BUF_INIT"
  | .sigRd .. => "SIG_RD"
  | .sigWr .. => "SIG_WR"
  | .dlenRd .. => "DLEN_RD"
  | .dlenWr .. => "DLEN_WR"
  | .grpCommit .. => "GRP_COMMIT"
  | .grpFetch .. => "GRP_FETCH"
  | .filtEval .. => "FILT_EVAL"
  | .filtReset .. => "FILT_RESET"
  | .filtRdst .. => "FILT_RDST"
  | .dmArm .. => "DM_ARM"
  | .dmDisarm .. => "DM_DISARM"
  | .dmClear .. => "DM_CLEAR"
  | .dmStat .. => "DM_STAT"
  | .tick .. => "TICK"
  | .nowRd .. => "NOW_RD"
  | .evtPop => "EVT_POP"

/-- Does the command read VAL (R99)? -/
def Instr.readsVal (i : Instr) : Bool :=
  match i with
  | .fldWr .. | .bufWr .. | .sigWr .. | .dlenWr .. | .filtEval .. | .dmArm .. => true
  | .nop | .fldRd .. | .bufRd .. | .bufInit .. | .sigRd .. | .dlenRd .. | .grpCommit .. | .grpFetch .. | .filtReset ..
  | .filtRdst .. | .dmDisarm .. | .dmClear .. | .dmStat .. | .tick .. | .nowRd .. | .evtPop => false

/-- The operand fields of a command's line, in order (R103): `LE` is E = 0 and `U` is S = 0; a signal line shows the chunk fields
unless both are zero, when the scalar form and the chunk `0, 1` are one and the same word. -/
def Instr.fields (i : Instr) : List String :=
  match i with
  | .nop | .evtPop => []
  | .fldRd x e z p r | .fldWr x e z p r =>
    ["r" ++ toString r.toNat, toString p.toNat, toString (z.toNat + 1),
     (match e with | .le => "LE" | .be => "BE"), (match x with | .zero => "U" | .sign => "S")]
  | .bufRd l o r | .bufWr l o r => ["r" ++ toString r.toNat, toString o.toNat, toString (l.toNat + 1)]
  | .bufInit r => ["r" ++ toString r.toNat]
  | .sigRd l o k | .sigWr l o k =>
    ("s" ++ toString k.toNat) :: (if l = 0 ∧ o = 0 then [] else [toString o.toNat, toString (l.toNat + 1)])
  | .dlenRd k | .dlenWr k => ["s" ++ toString k.toNat]
  | .grpCommit g | .grpFetch g => ["g" ++ toString g.toNat]
  | .filtEval f | .filtReset f => ["f" ++ toString f.toNat]
  | .filtRdst s f => ["f" ++ toString f.toNat, (match s with | .old => "OLD" | .cnt => "CNT")]
  | .dmArm k | .dmClear k | .dmStat k => ["t" ++ toString k.toNat]
  | .dmDisarm n k => ("t" ++ toString k.toNat) :: (if n then ["NTF"] else [])
  | .tick d | .nowRd d => ["d" ++ toString d.toNat]

/-- The assembler line of a command with operand `val` (R103). -/
def Instr.line (i : Instr) (val : Word64) : String :=
  let fs := if i.readsVal then i.fields ++ ["VAL=" ++ toString val.toNat] else i.fields
  if fs.isEmpty then i.mnemonic else i.mnemonic ++ " " ++ ", ".intercalate fs

/-- The operand whose byte k is the k-th byte of the list (R70, R104). -/
def bytesOperand (bs : List Byte) : Word64 :=
  match bs with
  | [] => 0
  | b :: bs => (bytesOperand bs <<< 8) ||| b.setWidth 64

/-- LOAD's commands: chunks of at most 8 bytes, in order (R104); `fuel` bounds the number of chunks. The spec does not say what a
chunk offset above 65535, which OFF cannot hold, assembles to: the model takes it modulo 2^16 (DESIGN CHOICE, unsafe,
notes/assumptions/23.md). -/
def loadChunks (reg : Half) (off : Nat) (bs : List Byte) (fuel : Nat) : List (Instr × Word64) :=
  match fuel with
  | 0 => []
  | fuel + 1 =>
    if bs.isEmpty then []
    else (.bufWr (BitVec.ofNat 3 (min 8 bs.length - 1)) (BitVec.ofNat 16 off) reg, bytesOperand (bs.take 8)) ::
      loadChunks reg (off + 8) (bs.drop 8) fuel

/-- STORE's commands: chunks of at most 8 bytes, in order (R104); a chunk offset above 65535 is taken modulo 2^16, as in LOAD
(DESIGN CHOICE, unsafe, notes/assumptions/23.md). -/
def storeChunks (reg : Half) (off count fuel : Nat) : List (Instr × Word64) :=
  match fuel with
  | 0 => []
  | fuel + 1 =>
    if count = 0 then []
    else (.bufRd (BitVec.ofNat 3 (min 8 count - 1)) (BitVec.ofNat 16 off) reg, 0) ::
      storeChunks reg (off + 8) (count - 8) fuel

/-- The commands, each with its operand, that a pseudo-instruction stands for (R104). -/
def Pseudo.expand (p : Pseudo) : List (Instr × Word64) :=
  match p with
  | .setUb reg pos => [(.fldWr .zero .le 0 pos reg, 1)]
  | .clrUb reg pos => [(.fldWr .zero .le 0 pos reg, 0)]
  | .tstUb reg pos => [(.fldRd .zero .le 0 pos reg, 0)]
  | .load reg off bs => loadChunks reg off.toNat bs bs.length
  | .store reg off count => storeChunks reg off.toNat count count
  | .stopMon slot => [(.dmDisarm true slot, 0)]

end Sys2Proof
end

