-- ==== Sys2Proof/Machine/HostProtocol.lean ====
section
/-! DEFINITION. The host side of the interface: the accesses that issue one command (R105, 30_encoding.md), and the DRAIN loop
(R104). A host's program is a list of agent steps; the block sees only the accesses. -/

namespace Sys2Proof.Machine

/-- The MMIO offset of port `p`: 0x20 × P (R62). -/
def portOffset (p : PortId) : Nat :=
  match p with
  | .p0 => 0x00
  | .p1 => 0x20

/-- Steps (2) to (4) of R105: write CMD_LO, VAL_LO, VAL_HI, then CMD_HI, which submits. -/
def issueWrites (c : Cfg) (h : HostId) (p : PortId) (cmd val : Word64) : List AgentStep :=
  [.hostWrite h (c.blockBase + portOffset p + 0x00) .w32 (loHalf cmd),
   .hostWrite h (c.blockBase + portOffset p + 0x08) .w32 (loHalf val),
   .hostWrite h (c.blockBase + portOffset p + 0x0C) .w32 (hiHalf val),
   .hostWrite h (c.blockBase + portOffset p + 0x04) .w32 (hiHalf cmd)]

/-- One command issued and performed: the writes of R105, and an Exec step that takes the port. -/
def issue (c : Cfg) (h : HostId) (p : PortId) (cmd val : Word64) : List AgentStep :=
  issueWrites c h p cmd val ++ [.execute p]

/-- `n` steps of the machine, stopping at a fault or a refusal. -/
def runSteps (n : Nat) (s : State) : Result :=
  match n with
  | 0 => .next s
  | n + 1 =>
    match step s with
    | .next t => runSteps n t
    | .fault r => .fault r
    | .refused r => .refused r

/-- The DRAIN loop (R104): EVT_POP until the result's valid bit is 0, at most `fuel` times; the events popped, oldest first. -/
def drain (fuel : Nat) (s : State) : State × List Word64 :=
  match fuel with
  | 0 => (s, [])
  | fuel + 1 =>
    match execEvtPop s with
    | .next t =>
      if (t.port t.cur).res.getLsbD 0 then
        ((drain fuel t).1, (t.port t.cur).res :: (drain fuel t).2)
      else (t, [])
    | .fault _ => (s, [])
    | .refused _ => (s, [])

end Sys2Proof.Machine
end

