-- ==== Sys2Proof/Safety.lean ====
section
/-! DEFINITION. What counts as a safe state and a safe step: the invariant of the machine, each field from a rule of the spec. -/

namespace Sys2Proof.Machine

/-- An event the FIFO may hold: it names an existing slot, carries that slot's tag and domain (R221), and its type is one that a
slot of that kind pushes (R222). -/
abbrev Event.legal (c : Cfg) (e : Event) : Prop :=
  e.slot.toNat < c.slots.length ∧ e.tag = (c.slot e.slot.toNat).tag ∧ e.dom.toNat = (c.slot e.slot.toNat).dom ∧
  match e.type with
  | .rxTimeout => (c.slot e.slot.toNat).kind = .rx
  | .txTimeout => (c.slot e.slot.toNat).kind = .tx ∧ (c.slot e.slot.toNat).per = true
  | .txTimeoutStop => (c.slot e.slot.toNat).kind = .tx ∧ (c.slot e.slot.toNat).per = false
  | .txStopNotify => (c.slot e.slot.toNat).kind = .tx

/-- The filter state a slot of configuration `c` may hold: OLD moves only in a delta filter, CNT only in a divide-by-N filter
(R191), where it stays below N (R32). -/
abbrev FiltState.legal (c : FiltCfg) (st : FiltState) : Prop :=
  (c.kind ≠ .maskedNewDiffersMaskedOld → st.old = c.initOld) ∧
  (c.kind ≠ .oneEveryN → st.cnt = 0) ∧
  (c.kind = .oneEveryN → st.cnt.toNat < c.n.toNat)

/-- The STATUS of a port: SUB is 1 only after a SIG_RD that completed, so only with CODE = OK (R15, R24). -/
abbrev Port.legal (p : Port) : Prop := p.sub = true → p.code = .ok

/-- The invariant of the machine. -/
structure State.Inv (s : State) : Prop where
  /-- The configuration is well-formed (R9, R11). -/
  cfg_wf : s.cfg.wf = true
  /-- PBUF is in canonical form. -/
  pbuf_wf : Memory.wf s.cfg s.pbuf = true
  /-- Every byte of PBUF that was ever written lies inside PBUF (R60, R76). -/
  pbuf_inside : ∀ c ∈ s.pbuf, c.1 < s.cfg.pbufBytes
  /-- DYNLEN is in canonical form. -/
  dynlen_wf : Table.wf (fun _ => 0) s.dynlen = true
  /-- DYNLEN exists for DYN signals only, and is at most the signal's length (R31). -/
  dynlen_legal : ∀ c ∈ s.dynlen, ∃ d, s.cfg.sigs[c.1]? = some d ∧ d.kind = .dynArray ∧ c.2.toNat ≤ d.len
  /-- FST is in canonical form. -/
  fst_wf : Table.wf (initFilt s.cfg) s.fst = true
  /-- FST exists for the configured slots only, and holds what its kind allows (R32, R191). -/
  fst_legal : ∀ c ∈ s.fst, c.1 < s.cfg.filts.length ∧ FiltState.legal (s.cfg.filt c.1) c.2
  /-- DM is in canonical form. -/
  dm_wf : Table.wf (fun _ => DmSlot.idle) s.dm = true
  /-- DM exists for the configured slots only, and no slot is both running and timed out (R33, R37). -/
  dm_legal : ∀ c ∈ s.dm, c.1 < s.cfg.slots.length ∧ ¬(c.2.run = true ∧ c.2.timeout = true)
  /-- NOW is in canonical form. -/
  now_wf : Table.wf (fun _ => 0) s.now = true
  /-- NOW exists for the configured domains only (R34). -/
  now_legal : ∀ c ∈ s.now, c.1 < s.cfg.ndom
  /-- The FIFO holds at most EVQ_DEPTH events (R35). -/
  evq_bound : s.evq.length ≤ Config.evqDepth
  /-- Every event in the FIFO is one that the block pushes (R221, R222). -/
  evq_legal : ∀ e ∈ s.evq, Event.legal s.cfg e
  /-- STATUS of both ports (R24). -/
  port0_legal : Port.legal s.port0
  port1_legal : Port.legal s.port1

/-- A step that neither faults nor refuses. -/
def State.stepsSafely (s : State) : Prop := ∃ t, step s = .next t

/-! ### Vocabulary of the statements -/

/-- The assigned opcodes (R101). -/
def assignedOpcodes : List Nat :=
  [0x00, 0x01, 0x02, 0x03, 0x04, 0x05, 0x08, 0x09, 0x0A, 0x0B, 0x0C, 0x0D, 0x10, 0x11, 0x12, 0x18, 0x19, 0x1A, 0x1B, 0x1C,
   0x1D, 0x1E]

/-- The offsets of the register map with a register behind them, and what a read of each returns (R62, R63); PARAM0 reports
EVQ_DEPTH = 16 in bits 7:0 and TICK_W = 16 in bits 13:8 (R28). -/
def registerMap (s : State) : List (Nat × Word32) :=
  [(0x00, s.port0.cmd.extractLsb' 0 32), (0x04, s.port0.cmd.extractLsb' 32 32),
   (0x08, s.port0.val.extractLsb' 0 32), (0x0C, s.port0.val.extractLsb' 32 32),
   (0x10, s.port0.res.extractLsb' 0 32), (0x14, s.port0.res.extractLsb' 32 32), (0x18, s.port0.status),
   (0x20, s.port1.cmd.extractLsb' 0 32), (0x24, s.port1.cmd.extractLsb' 32 32),
   (0x28, s.port1.val.extractLsb' 0 32), (0x2C, s.port1.val.extractLsb' 32 32),
   (0x30, s.port1.res.extractLsb' 0 32), (0x34, s.port1.res.extractLsb' 32 32), (0x38, s.port1.status),
   (0x40, s.ctrl), (0x44, s.evqStat), (0x48, 0x00001010)]

/-- The state after `n` TICK commands of domain `d`; none if one of them does not answer a next state. -/
def tickTimes (d : Half) (n : Nat) (s : State) : Option State :=
  match n with
  | 0 => some s
  | n + 1 =>
    match tickTimes d n s with
    | none => none
    | some t =>
      match exec (.tick d) t with
      | .next u => some u
      | .fault _ => none
      | .refused _ => none

/-- The pass bits of consecutive evaluations of one filter slot on the values `vs` (R201). -/
def filterRun (c : FiltCfg) (st : FiltState) (vs : List Word64) : List Bool :=
  match vs with
  | [] => []
  | v :: vs => filterPass c st v :: filterRun c (filterNext c st v) vs

/-- The slots that a TICK of domain `d` to the value `n` expires, in ascending order (R228, R229). -/
def expiring (s : State) (d : Nat) (n : Tick) : List Nat :=
  (List.range s.cfg.slots.length).filter fun k =>
    decide ((s.cfg.slot k).dom = d) && (s.dmAt k).run && decide ((s.dmAt k).due = n)

/-- The event of the expiry of slot `k` (R221, R222, R230). -/
def expiryEvent (c : Cfg) (k : Nat) : Event :=
  { type := if (c.slot k).kind = .rx then .rxTimeout else if (c.slot k).per then .txTimeout else .txTimeoutStop
    slot := BitVec.ofNat 16 k
    tag := (c.slot k).tag
    dom := BitVec.ofNat 16 (c.slot k).dom }

/-- The value `n` bytes from the region byte `b0` on make in little-endian order: the sum of `B[k] * 2^(8k)` (R129). -/
def bytesLe (s : State) (r : Region) (b0 n : Nat) : Nat :=
  match n with
  | 0 => 0
  | n + 1 => bytesLe s r b0 n + (s.byteAt (r.base + b0 + n)).toNat * 2 ^ (8 * n)

/-- The value the same bytes make in big-endian order: the sum of `B[k] * 2^(8(n-1-k))` (R129). -/
def bytesBe (s : State) (r : Region) (b0 n : Nat) : Nat :=
  match n with
  | 0 => 0
  | n + 1 => bytesBe s r b0 n * 256 + (s.byteAt (r.base + b0 + n)).toNat

end Sys2Proof.Machine
end

