-- ==== Sys2Proof/Certificates/Slice0/Obligations.lean ====
section
/-! DEFINITION. The statements for the provers: the numbered rules of spec/ that say what a command or the machine does.

Where a statement speaks of a step, `s.sched = a :: rest` says that the agent step `a` is the one taken next, and `s.cur` names the
port whose command `exec` performs. Both fields are the model's own (DESIGN CHOICE, notes/assumptions/2.md and 4.md): a statement
for every schedule is a statement for every interleaving of the agents and every choice of Exec (R20, R92). -/

open Sys2Proof Sys2Proof.Machine

/-! ### Encoding -/

/-- R93 to R98, R101: command words written out from the encoding strings decode to the commands they stand for. -/
def Obligations.SpecWordsDecodeToTheirCommands : Prop :=
  decode 0x0000000000000000 = .ok .nop ∧
  decode 0x0000000000080F01 = .ok (.fldRd .zero .le 15 8 0) ∧
  decode 0x000000000007CB02 = .ok (.fldWr .sign .be 11 7 0) ∧
  decode 0x0000000000010203 = .ok (.bufRd 2 1 0) ∧
  decode 0x0000000300040709 = .ok (.sigWr 7 4 3) ∧
  decode 0x000000040000000A = .ok (.dlenRd 4) ∧
  decode 0x000000010000000C = .ok (.grpCommit 1) ∧
  decode 0x0000000300000112 = .ok (.filtRdst .cnt 3) ∧
  decode 0x0000000200000119 = .ok (.dmDisarm true 2) ∧
  decode 0x000000000000001E = .ok .evtPop

/-- R93 to R98, R101: encoding then decoding gives every command back, with every operand at every value. -/
def Obligations.DecodeOfEncodeIsTheCommand : Prop := ∀ i : Instr, decode (encode i) = .ok i

/-- R90 to R102: a word that decodes has one encoding, its own: no bit of a command word is dropped. -/
def Obligations.EncodeOfDecodeIsTheWord : Prop := ∀ (w : Word64) (i : Instr), decode w = .ok i → encode i = w

/-- R102, R100 steps 1 and 2: an unassigned opcode ends with ERR_OPC, and an assigned opcode with a 1 in a must-be-0 bit of its
format with ERR_RSVD; neither changes anything else. The all-zero word is the command NOP. -/
def Obligations.IllegalWordsEndWithErrOpcOrErrRsvd : Prop :=
  (∀ (s : State) (p : PortId) (rest : List AgentStep),
    s.cfg.wf = true → s.sched = .execute p :: rest → (s.port p).busy = true →
    ((opcOf (s.port p).cmd).toNat ∉ assignedOpcodes →
      step s = .next (State.raise { s with sched := rest, cur := p } .errOpc)) ∧
    (∀ i : Instr, opcOf (s.port p).cmd = i.opcode.1 → (s.port p).cmd &&& i.opcode.2.reservedMask ≠ 0 →
      step s = .next (State.raise { s with sched := rest, cur := p } .errRsvd))) ∧
  decode 0 = .ok .nop

/-! ### Agents and steps -/

/-- R92: when a port is busy and its word decodes, an Exec step that takes it is the meaning of the command. -/
def Obligations.ExecStepRunsTheDecodedCommand : Prop :=
  ∀ (s : State) (p : PortId) (rest : List AgentStep) (i : Instr),
    s.cfg.wf = true → s.sched = .execute p :: rest → (s.port p).busy = true → decode (s.port p).cmd = .ok i →
    step s = exec i { s with sched := rest, cur := p }

/-- R92, R77: Exec takes a busy port: one that prefers an idle port serves the other. The last clause, that an Exec step with no busy
port answers the state with only the schedule consumed, is the model's choice (DESIGN CHOICE, notes/assumptions/3.md): R92 gives
Exec a step only when a port is busy, and R325 calls the rest idle. -/
def Obligations.ExecServesABusyPort : Prop :=
  ∀ (s : State) (p : PortId) (rest : List AgentStep) (i : Instr),
    s.cfg.wf = true → s.sched = .execute p :: rest → (s.port p).busy = false →
    ((s.port p.other).busy = true → decode (s.port p.other).cmd = .ok i →
      step s = exec i { s with sched := rest, cur := p.other }) ∧
    ((s.port p.other).busy = false → step s = .next { s with sched := rest })

/-- R92 (no command waits for anything): two Exec steps leave no port busy, whatever the two commands are and whichever port each
step prefers. -/
def Obligations.TwoExecStepsLeaveNoPortBusy : Prop :=
  ∀ (s : State) (p q : PortId) (rest : List AgentStep),
    s.cfg.wf = true → s.sched = .execute p :: .execute q :: rest →
    ∃ t, runSteps 2 s = .next t ∧ t.port0.busy = false ∧ t.port1.busy = false ∧ t.sched = rest

/-- R340: the hardware reset sets every piece of block state to its reset value in one step. -/
def Obligations.HardwareResetSetsEveryResetValue : Prop :=
  ∀ (s : State) (rest : List AgentStep), s.cfg.wf = true → s.sched = .hardReset :: rest →
    ∃ t, step s = .next t ∧ t.cfg = s.cfg ∧ t.sched = rest ∧
      (∀ a, t.byteAt a = s.cfg.initByte a) ∧ (∀ i, t.dynlenAt i = 0) ∧
      (∀ f, t.fstAt f = { old := (s.cfg.filt f).initOld, cnt := 0 }) ∧
      (∀ k, t.dmAt k = { run := false, timeout := false, due := 0 }) ∧ (∀ d, t.nowAt d = 0) ∧
      t.evq = [] ∧ t.ovf = false ∧ t.irqEn = false ∧
      ∀ p, t.port p = { cmd := 0, val := 0, res := 0, busy := false, code := .ok, ovr := false, sub := false }

/-- R341: a write to CTRL with bit 1 set performs exactly the state change of the hardware reset in the step of that write; IRQ_EN
ends 0 whatever bit 0 is, and SRST reads 0. -/
def Obligations.SoftResetIsTheHardwareReset : Prop :=
  ∀ (s : State) (h : HostId) (w : Word32) (rest : List AgentStep),
    s.cfg.wf = true → s.sched = .hostWrite h (s.cfg.blockBase + 0x40) .w32 w :: rest → w.getLsbD 1 = true →
    step s = step { s with sched := .hardReset :: rest } ∧
    ∃ t, step s = .next t ∧ t.irqEn = false ∧ t.ctrl.getLsbD 1 = false

/-- R62, R63, R28: a read of each register of the map returns its current value to the host, reserved offsets return 0, and no
register of the block changes. STATUS holds BUSY, CODE (with the numbers of R300), OVR and SUB in the bits of R24, CTRL holds
IRQ_EN in bit 0 (R26), and EVQ_STAT holds COUNT and OVF in the bits of R27; their other bits read 0. -/
def Obligations.MmioReadReturnsTheRegister : Prop :=
  ∀ (s : State) (h : HostId) (off : Nat) (rest : List AgentStep),
    s.cfg.wf = true → s.sched = .hostRead h (s.cfg.blockBase + off) .w32 :: rest → off ≤ 0x7C → off % 4 = 0 →
    ∃ v, step s = .next (State.setHost { s with sched := rest } h { s.host h with rdata := v }) ∧
      (∀ x, (off, x) ∈ registerMap s → v = x) ∧ ((∀ x, (off, x) ∉ registerMap s) → v = 0) ∧
      (∀ p, off = portOffset p + 0x18 →
        v.getLsbD 0 = (s.port p).busy ∧ v.extractLsb' 1 3 = 0 ∧
        (v.extractLsb' 4 4).toNat =
          (match (s.port p).code with
            | .ok => 0
            | .errOpc => 1
            | .errRsvd => 2
            | .errIndex => 3
            | .errType => 4
            | .errRange => 5
            | .errValue => 6) ∧
        v.getLsbD 8 = (s.port p).ovr ∧ v.getLsbD 9 = (s.port p).sub ∧ v.extractLsb' 10 22 = 0) ∧
      (off = 0x40 → v.getLsbD 0 = s.irqEn ∧ v.extractLsb' 1 31 = 0) ∧
      (off = 0x44 → (s.evq.length ≤ 16 → (v.extractLsb' 0 8).toNat = s.evq.length) ∧ v.getLsbD 8 = s.ovf ∧
        v.extractLsb' 9 23 = 0)

/-- R61: an access that is not an aligned 32-bit access inside the window has no step. That the whole machine, not the host alone,
stops there, with a named fault, is the model's choice (DEDUCED, notes/assumptions/6.md). -/
def Obligations.OtherBusAccessesHaveNoStep : Prop :=
  ∀ (s : State) (h : HostId) (addr : Nat) (width : AccessWidth) (w : Word32) (rest : List AgentStep),
    s.cfg.wf = true →
    (width ≠ .w32 ∨ addr < s.cfg.blockBase ∨ s.cfg.blockBase + 0x7C < addr ∨ (addr - s.cfg.blockBase) % 4 ≠ 0) →
    (s.sched = .hostRead h addr width :: rest ∨ s.sched = .hostWrite h addr width w :: rest) →
    step s = .fault .noBusStep

/-- R64, R29: a write of CMD_HI to an idle port submits and advances the host's command index by one; a write of CMD_LO, VAL_LO
or VAL_HI to an idle port only stores its 32 bits. -/
def Obligations.IdlePortWritesLatchAndSubmit : Prop :=
  ∀ (s : State) (h : HostId) (p : PortId) (off : Nat) (w : Word32) (rest : List AgentStep),
    s.cfg.wf = true → s.sched = .hostWrite h (s.cfg.blockBase + portOffset p + off) .w32 w :: rest →
    (s.port p).busy = false →
    (off = 0x00 → step s = .next (State.setPort { s with sched := rest } p
      { s.port p with cmd := (s.port p).cmd.extractLsb' 32 32 ++ w })) ∧
    (off = 0x04 → step s = .next (State.setPort
      (State.setHost { s with sched := rest } h { s.host h with nextCmd := (s.host h).nextCmd + 1 }) p
      { s.port p with cmd := w ++ (s.port p).cmd.extractLsb' 0 32, busy := true })) ∧
    (off = 0x08 → step s = .next (State.setPort { s with sched := rest } p
      { s.port p with val := (s.port p).val.extractLsb' 32 32 ++ w })) ∧
    (off = 0x0C → step s = .next (State.setPort { s with sched := rest } p
      { s.port p with val := w ++ (s.port p).val.extractLsb' 0 32 }))

/-- R65: a write to CMD_LO, CMD_HI, VAL_LO or VAL_HI of a busy port changes none of those registers, does not submit, and sets
OVR. -/
def Obligations.BusyPortWritesOnlySetOvr : Prop :=
  ∀ (s : State) (h : HostId) (p : PortId) (off : Nat) (w : Word32) (rest : List AgentStep),
    s.cfg.wf = true → s.sched = .hostWrite h (s.cfg.blockBase + portOffset p + off) .w32 w :: rest →
    (s.port p).busy = true → (off = 0x00 ∨ off = 0x04 ∨ off = 0x08 ∨ off = 0x0C) →
    step s = .next (State.setPort { s with sched := rest } p { s.port p with ovr := true })

/-- R66: the other MMIO writes: STATUS and EVQ_STAT clear OVR and OVF by a 1 in bit 8, CTRL sets IRQ_EN or resets, and RES,
PARAM0 and every reserved offset ignore the write. -/
def Obligations.ControlWritesClearAndIgnore : Prop :=
  ∀ (s : State) (h : HostId) (off : Nat) (w : Word32) (rest : List AgentStep),
    s.cfg.wf = true → s.sched = .hostWrite h (s.cfg.blockBase + off) .w32 w :: rest → off ≤ 0x7C → off % 4 = 0 →
    (∀ p, off = portOffset p + 0x18 → step s = .next (if w.getLsbD 8 then
      State.setPort { s with sched := rest } p { s.port p with ovr := false } else { s with sched := rest })) ∧
    (off = 0x44 → step s = .next (if w.getLsbD 8 then { s with sched := rest, ovf := false } else { s with sched := rest })) ∧
    (off = 0x40 → step s = .next (if w.getLsbD 1 then State.resetBlock { s with sched := rest }
      else { s with sched := rest, irqEn := w.getLsbD 0 })) ∧
    ((∃ p, off = portOffset p + 0x10 ∨ off = portOffset p + 0x14) ∨ off = 0x48 ∨ (∀ x, (off, x) ∉ registerMap s) →
      step s = .next { s with sched := rest })

/-- R105: the writes of the issue protocol to an idle port, and an Exec step that takes it, run the command with its operand; the
host's command index advances by one (R29). -/
def Obligations.IssueProtocolRunsTheCommand : Prop :=
  ∀ (s : State) (h : HostId) (p : PortId) (cmd val : Word64) (i : Instr) (rest : List AgentStep),
    s.cfg.wf = true → (s.port p).busy = false → s.sched = issue s.cfg h p cmd val ++ rest → decode cmd = .ok i →
    runSteps 5 s = exec i
      { (s.setHost h { s.host h with nextCmd := (s.host h).nextCmd + 1 }).setPort p
          { s.port p with cmd := cmd, val := val, busy := true } with sched := rest, cur := p }

/-- R310: IRQ is high exactly when it is enabled and EVQ_STAT.COUNT is not 0: no other state raises it. -/
def Obligations.IrqIsEnableAndFifoNotEmpty : Prop :=
  ∀ s : State, s.evq.length ≤ 16 → s.irq = (s.irqEn && decide (s.evqCount ≠ 0))

/-! ### How a command ends -/

/-- R100 step 3: a command whose index is not below its count ends with ERR_INDEX, whatever its other operands are. -/
def Obligations.IndexNotBelowItsCountEndsWithErrIndex : Prop :=
  ∀ (s : State) (i : Instr), s.cfg.wf = true → i.indexLegal s.cfg = false → exec i s = .next (s.raise .errIndex)

/-- R100 step 4 (R163, R164, R166 to R169): the type checks. -/
def Obligations.WrongKindEndsWithErrType : Prop :=
  ∀ (s : State) (idx off : Half) (lnm1 : BitVec 3), s.cfg.wf = true →
    (∀ d, s.cfg.sigs[idx.toNat]? = some d → d.kind.isScalar = true → (lnm1 ≠ 0 ∨ off ≠ 0) →
      exec (.sigRd lnm1 off idx) s = .next (s.raise .errType) ∧
      exec (.sigWr lnm1 off idx) s = .next (s.raise .errType)) ∧
    (∀ d, s.cfg.sigs[idx.toNat]? = some d → d.kind ≠ .dynArray →
      exec (.dlenRd idx) s = .next (s.raise .errType) ∧ exec (.dlenWr idx) s = .next (s.raise .errType)) ∧
    (∀ g, s.cfg.grps[idx.toNat]? = some g → g.shreg = none →
      exec (.grpCommit idx) s = .next (s.raise .errType) ∧ exec (.grpFetch idx) s = .next (s.raise .errType))

/-- R100 step 5 (R124, R130 to R133, R163, R164, R167): the range checks. -/
def Obligations.OutOfRangeEndsWithErrRange : Prop :=
  ∀ (s : State) (x : Ext) (e : Endian) (szm1 : BitVec 6) (lnm1 : BitVec 3) (off idx : Half), s.cfg.wf = true →
    (∀ r, s.cfg.regions[idx.toNat]? = some r →
      ((e = .le ∧ 8 * r.size < off.toNat + szm1.toNat + 1) ∨
       (e = .be ∧ 8 * r.size < msbIndex off.toNat + szm1.toNat + 1)) →
      exec (.fldRd x e szm1 off idx) s = .next (s.raise .errRange) ∧
      exec (.fldWr x e szm1 off idx) s = .next (s.raise .errRange)) ∧
    (∀ r, s.cfg.regions[idx.toNat]? = some r → r.size < off.toNat + lnm1.toNat + 1 →
      exec (.bufRd lnm1 off idx) s = .next (s.raise .errRange) ∧
      exec (.bufWr lnm1 off idx) s = .next (s.raise .errRange)) ∧
    (∀ d, s.cfg.sigs[idx.toNat]? = some d → d.kind.isScalar = false → d.len < off.toNat + lnm1.toNat + 1 →
      exec (.sigRd lnm1 off idx) s = .next (s.raise .errRange) ∧
      exec (.sigWr lnm1 off idx) s = .next (s.raise .errRange)) ∧
    (∀ d, s.cfg.sigs[idx.toNat]? = some d → d.kind = .dynArray → d.len < s.operand.toNat →
      exec (.dlenWr idx) s = .next (s.raise .errRange))

/-- R302, R15: an Exec step that ends with an error, in decoding or in any check of a command, changes CODE, SUB (to 0) and BUSY
(to 0) of its port and no other state; RES keeps its value. -/
def Obligations.FailingCommandChangesOnlyItsStatus : Prop :=
  ∀ (s t : State) (p : PortId) (rest : List AgentStep),
    s.sched = .execute p :: rest → (s.port p).busy = true → step s = .next t → (t.port p).code ≠ .ok →
    t = State.setPort { s with sched := rest, cur := p } p
      { s.port p with code := (t.port p).code, sub := false, busy := false }

/-- R92, R15, R16, R37: under a well-formed configuration every command, whatever its operands, completes in one step: it answers a
next state, in which its port is no longer busy, and SUB is 0 after an error and after every command that is not SIG_RD. -/
def Obligations.EveryCommandCompletesInOneStep : Prop :=
  ∀ (s : State) (i : Instr), s.cfg.wf = true → ∃ t, exec i s = .next t ∧ (t.port s.cur).busy = false ∧
    ((t.port s.cur).sub = true → (t.port s.cur).code = .ok ∧ ∃ lnm1 off idx, i = .sigRd lnm1 off idx)

/-- R9, R306: under an ill-formed configuration the model refuses every step and every command, by name. What it takes as ill-formed
and refuses beyond the words of R9 and R11 is the model's reading: the ranges of R6 count too, and MMIO accesses and resets are
refused with the commands (DEDUCED, notes/assumptions/9.md), and an update bit inside its own array is ill-formed (DEDUCED,
notes/assumptions/10.md). -/
def Obligations.IllFormedConfigurationIsRefused : Prop :=
  ∀ (s : State) (i : Instr), s.cfg.wf = false →
    step s = .refused .illFormedConfig ∧ exec i s = .refused .illFormedConfig

/-! ### Control -/

/-- R261, R16: NOP completes with result 0 and no other effect. What `State.complete` does, which other statements name, is said
here once for every result and SUB: RES, CODE = OK, BUSY = 0 and SUB on the executing port, CMD, VAL and OVR of that port and all
of the other port as they were, and nothing outside the ports; NOP's SUB is 0 (R37). -/
def Obligations.NopOnlyCompletes : Prop :=
  ∀ s : State, s.cfg.wf = true →
    exec .nop s = .next (s.complete 0 false) ∧
    ∀ (v : Word64) (sub : Bool),
      ((s.complete v sub).port s.cur).res = v ∧ ((s.complete v sub).port s.cur).code = .ok ∧
      ((s.complete v sub).port s.cur).busy = false ∧ ((s.complete v sub).port s.cur).sub = sub ∧
      ((s.complete v sub).port s.cur).cmd = (s.port s.cur).cmd ∧ ((s.complete v sub).port s.cur).val = (s.port s.cur).val ∧
      ((s.complete v sub).port s.cur).ovr = (s.port s.cur).ovr ∧
      (∀ p, p ≠ s.cur → (s.complete v sub).port p = s.port p) ∧
      s.complete v sub = { s with port0 := (s.complete v sub).port0, port1 := (s.complete v sub).port1 }

/-- R263, R264: EVT_POP returns 0 on an empty FIFO, and otherwise removes the oldest event and returns its word, with the fields of
the event in their bits, its type under the number R222 gives that type; it changes nothing else. -/
def Obligations.EvtPopReturnsTheOldestEvent : Prop :=
  ∀ s : State, s.cfg.wf = true →
    (s.evq = [] → exec .evtPop s = .next (s.complete 0)) ∧
    (∀ e rest, s.evq = e :: rest → ∃ v, exec .evtPop s = .next (State.complete { s with evq := rest } v) ∧
      v.getLsbD 0 = true ∧
      (v.extractLsb' 1 3).toNat =
        (match e.type with
          | .rxTimeout => 1
          | .txTimeout => 2
          | .txTimeoutStop => 3
          | .txStopNotify => 4) ∧
      v.extractLsb' 4 12 = 0 ∧
      v.extractLsb' 16 16 = e.slot ∧ v.extractLsb' 32 16 = e.tag ∧ v.extractLsb' 48 16 = e.dom)

/-- R104, R263, R314: the DRAIN loop returns every queued event in push order and leaves the FIFO empty and IRQ low. -/
def Obligations.DrainReturnsEveryEventInOrder : Prop :=
  ∀ s : State, s.cfg.wf = true →
    ∃ t, drain (s.evq.length + 1) s = (t, s.evq.map Event.word) ∧ t.evq = [] ∧ t.irq = false

/-! ### Codec and buffers -/

/-- R130, R126, R128: FLD_RD returns the field bit by bit, extended as S says, and changes nothing else. -/
def Obligations.FldRdReturnsTheField : Prop :=
  ∀ (s : State) (x : Ext) (e : Endian) (szm1 : BitVec 6) (pos idx : Half) (r : Region),
    s.cfg.wf = true → s.cfg.regions[idx.toNat]? = some r → r.fits e pos.toNat (szm1.toNat + 1) = true →
    ∃ v, exec (.fldRd x e szm1 pos idx) s = .next (s.complete v) ∧
      (∀ i ≤ szm1.toNat, v.getLsbD i = s.bitAt (8 * r.base + bitAddr e pos.toNat (szm1.toNat + 1) i)) ∧
      (∀ i, szm1.toNat < i → i < 64 → v.getLsbD i =
        (decide (x = .sign) && s.bitAt (8 * r.base + bitAddr e pos.toNat (szm1.toNat + 1) szm1.toNat)))

/-- R131, R127: FLD_WR stores the low bits of VAL in the field, keeps every other bit of PBUF, returns the decoded read-back, and
changes nothing else. -/
def Obligations.FldWrStoresOnlyTheField : Prop :=
  ∀ (s : State) (x : Ext) (e : Endian) (szm1 : BitVec 6) (pos idx : Half) (r : Region),
    s.cfg.wf = true → s.cfg.regions[idx.toNat]? = some r → r.fits e pos.toNat (szm1.toNat + 1) = true →
    ∃ m v, exec (.fldWr x e szm1 pos idx) s = .next (State.complete { s with pbuf := m } v) ∧
      (∀ i ≤ szm1.toNat, State.bitAt { s with pbuf := m } (8 * r.base + bitAddr e pos.toNat (szm1.toNat + 1) i) =
        s.operand.getLsbD i) ∧
      (∀ k, (∀ i ≤ szm1.toNat, k ≠ 8 * r.base + bitAddr e pos.toNat (szm1.toNat + 1) i) →
        State.bitAt { s with pbuf := m } k = s.bitAt k) ∧
      (∀ i ≤ szm1.toNat, v.getLsbD i = s.operand.getLsbD i) ∧
      (∀ i, szm1.toNat < i → i < 64 → v.getLsbD i = (decide (x = .sign) && s.operand.getLsbD szm1.toNat))

/-- R132, R70: BUF_RD returns its bytes, byte k in bits 8k+7:8k, with zeros above, and changes nothing else. -/
def Obligations.BufRdReturnsItsBytes : Prop :=
  ∀ (s : State) (lnm1 : BitVec 3) (off idx : Half) (r : Region),
    s.cfg.wf = true → s.cfg.regions[idx.toNat]? = some r → off.toNat + lnm1.toNat + 1 ≤ r.size →
    ∃ v, exec (.bufRd lnm1 off idx) s = .next (s.complete v) ∧
      ∀ k < 8, v.extractLsb' (8 * k) 8 = if k ≤ lnm1.toNat then s.byteAt (r.base + off.toNat + k) else 0

/-- R133, R70: BUF_WR stores its bytes of VAL, keeps every other byte, and changes nothing else. -/
def Obligations.BufWrStoresOnlyItsBytes : Prop :=
  ∀ (s : State) (lnm1 : BitVec 3) (off idx : Half) (r : Region),
    s.cfg.wf = true → s.cfg.regions[idx.toNat]? = some r → off.toNat + lnm1.toNat + 1 ≤ r.size →
    ∃ m, exec (.bufWr lnm1 off idx) s = .next (State.complete { s with pbuf := m } 0) ∧
      (∀ k ≤ lnm1.toNat, State.byteAt { s with pbuf := m } (r.base + off.toNat + k) = s.operand.extractLsb' (8 * k) 8) ∧
      (∀ a, a < r.base + off.toNat ∨ r.base + off.toNat + lnm1.toNat < a →
        State.byteAt { s with pbuf := m } a = s.byteAt a)

/-- R134: BUF_INIT reloads the region from INITIMG, keeps every other byte, and changes nothing else. -/
def Obligations.BufInitReloadsTheRegion : Prop :=
  ∀ (s : State) (idx : Half) (r : Region), s.cfg.wf = true → s.cfg.regions[idx.toNat]? = some r →
    ∃ m, exec (.bufInit idx) s = .next (State.complete { s with pbuf := m } 0) ∧
      (∀ a, r.base ≤ a → a < r.base + r.size → State.byteAt { s with pbuf := m } a = s.cfg.initByte a) ∧
      (∀ a, a < r.base ∨ r.base + r.size ≤ a → State.byteAt { s with pbuf := m } a = s.byteAt a)

/-- R135: after FLD_WR with operand v, FLD_RD with the same fields returns decode(v[size-1:0], size, S), whatever PBUF held. -/
def Obligations.FieldRoundTrip : Prop :=
  ∀ (s : State) (x : Ext) (e : Endian) (szm1 : BitVec 6) (pos idx : Half) (r : Region),
    s.cfg.wf = true → s.cfg.regions[idx.toNat]? = some r → r.fits e pos.toNat (szm1.toNat + 1) = true →
    ∃ t u, exec (.fldWr x e szm1 pos idx) s = .next t ∧ exec (.fldRd x e szm1 pos idx) t = .next u ∧
      (u.port s.cur).code = .ok ∧
      (u.port s.cur).res = extend x (szm1.toNat + 1) (s.operand &&& BitVec.ofNat 64 (2 ^ (szm1.toNat + 1) - 1))

/-- R136: -1 written to a field of fewer than 64 bits reads back sign-extended as -1, and the largest positive value as itself. -/
def Obligations.SignedFieldsReadBackSignExtended : Prop :=
  ∀ (s : State) (e : Endian) (szm1 : BitVec 6) (pos idx : Half) (r : Region),
    s.cfg.wf = true → s.cfg.regions[idx.toNat]? = some r → r.fits e pos.toNat (szm1.toNat + 1) = true → szm1.toNat < 63 →
    (s.operand = BitVec.allOnes 64 ∨ s.operand = BitVec.ofNat 64 (2 ^ szm1.toNat - 1)) →
    ∃ t u, exec (.fldWr .sign e szm1 pos idx) s = .next t ∧ exec (.fldRd .sign e szm1 pos idx) t = .next u ∧
      (u.port s.cur).res = s.operand

/-- R137: two fields with no bit address in common can be written in either order with the same final PBUF. -/
def Obligations.DisjointFieldWritesCommute : Prop :=
  ∀ (s : State) (r q : Region) (e g : Endian) (pos size pos' size' : Nat) (f h : Word64),
    (∀ i < size, ∀ j < size', 8 * r.base + bitAddr e pos size i ≠ 8 * q.base + bitAddr g pos' size' j) →
    ∀ a, ((s.insert r e pos size f).insert q g pos' size' h).byteAt a =
      ((s.insert q g pos' size' h).insert r e pos size f).byteAt a

/-- R138: a byte-aligned big-endian field at 8b+7 covers the same bytes as the little-endian field at 8b, in reversed order:
region byte b+j holds value bits 8(k-1-j)+7 : 8(k-1-j). -/
def Obligations.AlignedBigEndianFieldReversesBytes : Prop :=
  ∀ (s : State) (r : Region) (b k j : Nat) (f : Word64), k ≤ 8 → j < k →
    (s.insert r .be (8 * b + 7) (8 * k) f).byteAt (r.base + b + j) = f.extractLsb' (8 * (k - 1 - j)) 8 ∧
    (s.insert r .le (8 * b) (8 * k) f).byteAt (r.base + b + j) = f.extractLsb' (8 * j) 8

/-- R129: the shifter form equals the bit-by-bit extraction for every field that fits. -/
def Obligations.ShifterFormEqualsExtraction : Prop :=
  ∀ (s : State) (r : Region) (pos size : Nat), 1 ≤ size → size ≤ 64 →
    (r.fits .le pos size = true →
      (s.extract r .le pos size).toNat =
        bytesLe s r (pos / 8) ((pos + size - 1) / 8 - pos / 8 + 1) / 2 ^ (pos % 8) % 2 ^ size) ∧
    (r.fits .be pos size = true →
      (s.extract r .be pos size).toNat =
        bytesBe s r (pos / 8) ((msbIndex pos + size - 1) / 8 - pos / 8 + 1) /
          2 ^ (8 * ((msbIndex pos + size - 1) / 8 - pos / 8 + 1) - msbIndex pos % 8 - size) % 2 ^ size)

/-! ### Signals -/

/-- R163, R161: a scalar SIG_RD returns the decoded field, from INITIMG with SUB = 1 while the watching slot's TIMEOUT is set and
from PBUF otherwise, and changes nothing else. -/
def Obligations.SigRdScalarDecodesOrSubstitutes : Prop :=
  ∀ (s : State) (idx : Half) (d : SigDesc), s.cfg.wf = true → s.cfg.sigs[idx.toNat]? = some d → d.kind.isScalar = true →
    (∀ k, d.dm = some k → (s.dmAt k).timeout = true →
      exec (.sigRd 0 0 idx) s =
        .next (s.complete (decodeScalar d (s.extractInit (s.cfg.region d.reg) d.endian d.pos d.size)) true)) ∧
    ((∀ k, d.dm = some k → (s.dmAt k).timeout = false) →
      exec (.sigRd 0 0 idx) s =
        .next (s.complete (decodeScalar d (s.extract (s.cfg.region d.reg) d.endian d.pos d.size)) false))

/-- R163, R70: an array SIG_RD returns the bytes of its chunk, from INITIMG with SUB = 1 under substitution, and changes nothing
else. -/
def Obligations.SigRdArrayReturnsItsChunk : Prop :=
  ∀ (s : State) (lnm1 : BitVec 3) (off idx : Half) (d : SigDesc),
    s.cfg.wf = true → s.cfg.sigs[idx.toNat]? = some d → d.kind.isScalar = false → off.toNat + lnm1.toNat + 1 ≤ d.len →
    ∃ v, exec (.sigRd lnm1 off idx) s = .next (s.complete v (s.substitutes d)) ∧
      ∀ k < 8, v.extractLsb' (8 * k) 8 =
        if k ≤ lnm1.toNat then
          (if s.substitutes d then s.cfg.initByte ((s.cfg.region d.reg).base + d.pos / 8 + off.toNat + k)
           else s.byteAt ((s.cfg.region d.reg).base + d.pos / 8 + off.toNat + k))
        else 0

/-- R164, R165: a scalar SIG_WR stores the encoded value, sets the update bit, keeps every other bit of PBUF, steps the signal's
filter on the value decoded from the field, and changes nothing else. -/
def Obligations.SigWrScalarStoresFiltersAndMarks : Prop :=
  ∀ (s : State) (idx : Half) (d : SigDesc), s.cfg.wf = true → s.cfg.sigs[idx.toNat]? = some d → d.kind.isScalar = true →
    ∃ m fs v, exec (.sigWr 0 0 idx) s = .next (State.complete { s with pbuf := m, fst := fs } v) ∧
      (∀ i < d.size, State.bitAt { s with pbuf := m } (8 * (s.cfg.region d.reg).base + bitAddr d.endian d.pos d.size i) =
        (encodeScalar d s.operand).getLsbD i) ∧
      (∀ u, d.ub = some u → State.bitAt { s with pbuf := m } (8 * (s.cfg.region d.reg).base + u) = true) ∧
      (∀ k, (∀ i < d.size, k ≠ 8 * (s.cfg.region d.reg).base + bitAddr d.endian d.pos d.size i) →
        (∀ u, d.ub = some u → k ≠ 8 * (s.cfg.region d.reg).base + u) →
        State.bitAt { s with pbuf := m } k = s.bitAt k) ∧
      (d.filt = none → fs = s.fst ∧ v = 0) ∧
      (∀ f, d.filt = some f →
        (∀ g, State.fstAt { s with fst := fs } g =
          if g = f then filterNext (s.cfg.filt f) (s.fstAt f) (decodeScalar d (encodeScalar d s.operand)) else s.fstAt g) ∧
        v = if filterPass (s.cfg.filt f) (s.fstAt f) (decodeScalar d (encodeScalar d s.operand)) then 3 else 2)

/-- R164, R165: an array SIG_WR stores the bytes of its chunk, sets the update bit, keeps every other bit of PBUF, evaluates no
filter, and changes nothing else. That every byte of the chunk holds the operand's byte beside the set update bit rests on the
model's reading of CW-SIG-UB, by which an array's update bit lies outside its bytes (DEDUCED, notes/assumptions/10.md). -/
def Obligations.SigWrArrayStoresItsChunkAndMarks : Prop :=
  ∀ (s : State) (lnm1 : BitVec 3) (off idx : Half) (d : SigDesc),
    s.cfg.wf = true → s.cfg.sigs[idx.toNat]? = some d → d.kind.isScalar = false → off.toNat + lnm1.toNat + 1 ≤ d.len →
    ∃ m, exec (.sigWr lnm1 off idx) s = .next (State.complete { s with pbuf := m } 0) ∧
      (∀ k ≤ lnm1.toNat,
        State.byteAt { s with pbuf := m } ((s.cfg.region d.reg).base + d.pos / 8 + off.toNat + k) =
          s.operand.extractLsb' (8 * k) 8) ∧
      (∀ u, d.ub = some u → State.bitAt { s with pbuf := m } (8 * (s.cfg.region d.reg).base + u) = true) ∧
      (∀ k, (k / 8 < (s.cfg.region d.reg).base + d.pos / 8 + off.toNat ∨
             (s.cfg.region d.reg).base + d.pos / 8 + off.toNat + lnm1.toNat < k / 8) →
        (∀ u, d.ub = some u → k ≠ 8 * (s.cfg.region d.reg).base + u) →
        State.bitAt { s with pbuf := m } k = s.bitAt k)

/-- R161, R13: what is stored for a value and what is read from a field of `size` bits, by kind: a BOOL as 1 or 0, any other scalar
as its value modulo 2^size; read back as 0 or 1, zero-extended, or as the two's-complement number of a SINT. -/
def Obligations.ScalarCodingFollowsItsKind : Prop :=
  ∀ (d : SigDesc) (v f : Word64), 1 ≤ d.size → d.size ≤ 64 → f.toNat < 2 ^ d.size →
    (d.kind = .bool → encodeScalar d v = (if v = 0 then 0 else 1) ∧ decodeScalar d f = if f = 0 then 0 else 1) ∧
    (d.kind = .uint → (encodeScalar d v).toNat = v.toNat % 2 ^ d.size ∧ decodeScalar d f = f) ∧
    (d.kind = .sint → (encodeScalar d v).toNat = v.toNat % 2 ^ d.size ∧
      (decodeScalar d f).toInt =
        if f.getLsbD (d.size - 1) then (f.toNat : Int) - (2 ^ d.size : Nat) else (f.toNat : Int))

/-- R170: a scalar signal written and read back, its slot not timed out, returns decodeScalar(encodeScalar(v)): for a UINT v mod
2^size, for a SINT the two's-complement number that v mod 2^size stands for in `size` bits, for a BOOL 0 or 1. -/
def Obligations.TypedRoundTrip : Prop :=
  ∀ (s : State) (idx : Half) (d : SigDesc), s.cfg.wf = true → s.cfg.sigs[idx.toNat]? = some d → d.kind.isScalar = true →
    (∀ k, d.dm = some k → (s.dmAt k).timeout = false) →
    ∃ t u, exec (.sigWr 0 0 idx) s = .next t ∧ exec (.sigRd 0 0 idx) t = .next u ∧
      (u.port s.cur).res = decodeScalar d (encodeScalar d s.operand) ∧
      (u.port s.cur).code = .ok ∧ (u.port s.cur).sub = false ∧
      (d.kind = .uint → (u.port s.cur).res.toNat = s.operand.toNat % 2 ^ d.size) ∧
      (d.kind = .sint → (u.port s.cur).res.toInt =
        if s.operand.getLsbD (d.size - 1) then ((s.operand.toNat % 2 ^ d.size : Nat) : Int) - (2 ^ d.size : Nat)
        else ((s.operand.toNat % 2 ^ d.size : Nat) : Int)) ∧
      (d.kind = .bool → (u.port s.cur).res = if s.operand = 0 then 0 else 1)

/-- R166, R167: DLEN_WR stores a length up to the signal's maximum, DLEN_RD then returns it, and neither changes anything else. -/
def Obligations.DynamicLengthIsStoredAndReturned : Prop :=
  ∀ (s : State) (idx : Half) (d : SigDesc), s.cfg.wf = true → s.cfg.sigs[idx.toNat]? = some d → d.kind = .dynArray →
    exec (.dlenRd idx) s = .next (s.complete ((s.dynlenAt idx.toNat).setWidth 64)) ∧
    (s.operand.toNat ≤ d.len →
      ∃ l, exec (.dlenWr idx) s = .next (State.complete { s with dynlen := l } 0) ∧
        (State.dynlenAt { s with dynlen := l } idx.toNat).toNat = s.operand.toNat ∧
        ∀ j, j ≠ idx.toNat → State.dynlenAt { s with dynlen := l } j = s.dynlenAt j)

/-- R168, R165: GRP_COMMIT merges every byte of the group with its shadow byte under the mask, sets the update bit, keeps every
other bit (the shadow's among them), reports whether a byte changed, and changes nothing else. The mask byte `mk k` is 0xFF when the
group has no mask, and byte k of the mask otherwise. -/
def Obligations.GrpCommitMergesUnderTheMask : Prop :=
  ∀ (s : State) (idx : Half) (g : GrpDesc) (r pb sb : Nat) (mk np : Nat → Byte),
    s.cfg.wf = true → s.cfg.grps[idx.toNat]? = some g → g.shreg = some r →
    pb = (s.cfg.region g.pdureg).base + g.off → sb = (s.cfg.region r).base →
    (g.mask = none → ∀ k < g.len, mk k = 0xFF) → (∀ ms, g.mask = some ms → ∀ k < g.len, ms[k]? = some (mk k)) →
    (∀ k < g.len, np k = (s.byteAt (pb + k) &&& ~~~(mk k)) ||| (s.byteAt (sb + k) &&& mk k)) →
    ∃ m v, exec (.grpCommit idx) s = .next (State.complete { s with pbuf := m } v) ∧
      (∀ u, g.ub = some u → State.bitAt { s with pbuf := m } (8 * (s.cfg.region g.pdureg).base + u) = true) ∧
      (∀ j, (∀ u, g.ub = some u → j ≠ 8 * (s.cfg.region g.pdureg).base + u) →
        State.bitAt { s with pbuf := m } j =
          if pb ≤ j / 8 ∧ j / 8 < pb + g.len then (np (j / 8 - pb)).getLsbD (j % 8) else s.bitAt j) ∧
      ((v = 1 ∧ ∃ k < g.len, np k ≠ s.byteAt (pb + k)) ∨ (v = 0 ∧ ∀ k < g.len, np k = s.byteAt (pb + k)))

/-- R169: GRP_FETCH copies every byte of the group into the shadow, keeps every other byte, and changes nothing else. -/
def Obligations.GrpFetchCopiesIntoTheShadow : Prop :=
  ∀ (s : State) (idx : Half) (g : GrpDesc) (r : Nat),
    s.cfg.wf = true → s.cfg.grps[idx.toNat]? = some g → g.shreg = some r →
    ∃ m, exec (.grpFetch idx) s = .next (State.complete { s with pbuf := m } 0) ∧
      (∀ k < g.len, State.byteAt { s with pbuf := m } ((s.cfg.region r).base + k) =
        s.byteAt ((s.cfg.region g.pdureg).base + g.off + k)) ∧
      (∀ a, a < (s.cfg.region r).base ∨ (s.cfg.region r).base + g.len ≤ a →
        State.byteAt { s with pbuf := m } a = s.byteAt a)

/-! ### Filters -/

/-- R192, R191, R197: the result and the state change of every filter kind, comparisons signed or unsigned as `sgn` says; the
counter of a divide-by-N slot for every value below N, the values it can have (R32). -/
def Obligations.FilterStepFollowsItsKind : Prop :=
  ∀ (c : FiltCfg) (st : FiltState) (v : Word64),
    match c.kind with
    | .always => filterPass c st v = true ∧ filterNext c st v = st
    | .never => filterPass c st v = false ∧ filterNext c st v = st
    | .maskedNewDiffersMaskedOld =>
      (filterPass c st v = true ↔ v &&& c.mask ≠ st.old &&& c.mask) ∧
      (filterNext c st v).old = v ∧ (filterNext c st v).cnt = st.cnt
    | .oneEveryN =>
      (filterPass c st v = true ↔ st.cnt = 0) ∧ (filterNext c st v).old = st.old ∧
      (st.cnt.toNat < c.n.toNat → (filterNext c st v).cnt.toNat = (st.cnt.toNat + 1) % c.n.toNat)
    | .equal => (filterPass c st v = true ↔ v = c.x) ∧ filterNext c st v = st
    | .notEqual => (filterPass c st v = true ↔ v ≠ c.x) ∧ filterNext c st v = st
    | .min =>
      (filterPass c st v = true ↔ if c.sgn then c.min.toInt ≤ v.toInt else c.min.toNat ≤ v.toNat) ∧
      filterNext c st v = st
    | .max =>
      (filterPass c st v = true ↔ if c.sgn then v.toInt ≤ c.max.toInt else v.toNat ≤ c.max.toNat) ∧
      filterNext c st v = st
    | .window =>
      (filterPass c st v = true ↔ if c.sgn then c.min.toInt ≤ v.toInt ∧ v.toInt ≤ c.max.toInt
        else c.min.toNat ≤ v.toNat ∧ v.toNat ≤ c.max.toNat) ∧
      filterNext c st v = st

/-- R198, R202: FILT_EVAL returns the pass bit, writes FST of its slot only, and changes nothing else. -/
def Obligations.FiltEvalStepsItsSlotOnly : Prop :=
  ∀ (s : State) (idx : Half) (c : FiltCfg), s.cfg.wf = true → s.cfg.filts[idx.toNat]? = some c →
    ∃ fs, exec (.filtEval idx) s = .next (State.complete { s with fst := fs }
        (if filterPass c (s.fstAt idx.toNat) s.operand then 1 else 0)) ∧
      ∀ g, State.fstAt { s with fst := fs } g =
        if g = idx.toNat then filterNext c (s.fstAt idx.toNat) s.operand else s.fstAt g

/-- R199, R200: FILT_RESET sets OLD to INITOLD and CNT to 0 whatever the kind; FILT_RDST returns OLD or CNT; neither changes
anything else. -/
def Obligations.FiltResetAndReadState : Prop :=
  ∀ (s : State) (idx : Half) (c : FiltCfg), s.cfg.wf = true → s.cfg.filts[idx.toNat]? = some c →
    (∃ fs, exec (.filtReset idx) s = .next (State.complete { s with fst := fs } 0) ∧
      ∀ g, State.fstAt { s with fst := fs } g =
        if g = idx.toNat then { old := c.initOld, cnt := 0 } else s.fstAt g) ∧
    exec (.filtRdst .old idx) s = .next (s.complete (s.fstAt idx.toNat).old) ∧
    exec (.filtRdst .cnt idx) s = .next (s.complete ((s.fstAt idx.toNat).cnt.setWidth 64))

/-- R201: two consecutive evaluations of a delta slot with the same value fail on the second, an evaluation with a masked-bit
change passes; any N consecutive evaluations of a divide-by-N slot, on any values and from any counter below N, pass exactly once;
FILT_RESET leaves CNT = 0. -/
def Obligations.FiltersAreDeterministic : Prop :=
  (∀ (c : FiltCfg) (st : FiltState) (v : Word64), c.kind = .maskedNewDiffersMaskedOld →
    filterPass c (filterNext c st v) v = false ∧ (v &&& c.mask ≠ st.old &&& c.mask → filterPass c st v = true)) ∧
  (∀ (c : FiltCfg) (st : FiltState) (vs : List Word64), c.kind = .oneEveryN → st.cnt.toNat < c.n.toNat →
    vs.length = c.n.toNat → (filterRun c st vs).count true = 1) ∧
  (∀ (s : State) (idx : Half) (c : FiltCfg), s.cfg.wf = true → s.cfg.filts[idx.toNat]? = some c →
    ∃ t, exec (.filtReset idx) s = .next t ∧ (t.fstAt idx.toNat).cnt = 0)

/-! ### Deadline monitor -/

/-- R224, R223, R234: DM_ARM with a timeout of 1 to 2^16 - 1 sets RUN, clears TO, sets DUE to (NOW + T) mod 2^16, returns it, and
changes no other slot and nothing else; any other timeout ends with ERR_VALUE. -/
def Obligations.DmArmSetsTheDueTick : Prop :=
  ∀ (s : State) (idx : Half) (c : SlotCfg), s.cfg.wf = true → s.cfg.slots[idx.toNat]? = some c →
    (1 ≤ s.operand.toNat → s.operand.toNat < 65536 →
      ∃ ds due, exec (.dmArm idx) s = .next (State.complete { s with dm := ds } (due.setWidth 64)) ∧
        due.toNat = ((s.nowAt c.dom).toNat + s.operand.toNat) % 65536 ∧
        ∀ k, State.dmAt { s with dm := ds } k =
          if k = idx.toNat then { run := true, timeout := false, due := due } else s.dmAt k) ∧
    (s.operand.toNat = 0 ∨ 65536 ≤ s.operand.toNat → exec (.dmArm idx) s = .next (s.raise .errValue))

/-- R225, R222, R234: DM_DISARM clears RUN and keeps TO and DUE, returns the old RUN, pushes TX_STOP_NOTIFY exactly for a running
TX slot with NTF, and changes nothing else. -/
def Obligations.DmDisarmClearsRunAndNotifies : Prop :=
  ∀ (s : State) (ntf : Bool) (idx : Half) (c : SlotCfg), s.cfg.wf = true → s.cfg.slots[idx.toNat]? = some c →
    ∃ ds q o, exec (.dmDisarm ntf idx) s =
        .next (State.complete { s with dm := ds, evq := q, ovf := o } (if (s.dmAt idx.toNat).run then 1 else 0)) ∧
      (∀ k, State.dmAt { s with dm := ds } k =
        if k = idx.toNat then { s.dmAt k with run := false } else s.dmAt k) ∧
      (if ntf = true ∧ (s.dmAt idx.toNat).run = true ∧ c.kind = .tx then
        (if s.evq.length < 16 then
          q = s.evq ++ [⟨.txStopNotify, idx, c.tag, BitVec.ofNat 16 c.dom⟩] ∧ o = s.ovf
         else q = s.evq ∧ o = true)
       else q = s.evq ∧ o = s.ovf)

/-- R226, R227: DM_CLEAR clears TO of its slot and returns the old TO; DM_STAT returns DUE, TO and RUN in their bits; neither
changes anything else. -/
def Obligations.DmClearAndDmStat : Prop :=
  ∀ (s : State) (idx : Half) (c : SlotCfg), s.cfg.wf = true → s.cfg.slots[idx.toNat]? = some c →
    (∃ ds, exec (.dmClear idx) s =
        .next (State.complete { s with dm := ds } (if (s.dmAt idx.toNat).timeout then 1 else 0)) ∧
      ∀ k, State.dmAt { s with dm := ds } k =
        if k = idx.toNat then { s.dmAt k with timeout := false } else s.dmAt k) ∧
    (∃ v, exec (.dmStat idx) s = .next (s.complete v) ∧
      v.toNat = (s.dmAt idx.toNat).due.toNat * 2 ^ 32 + (s.dmAt idx.toNat).timeout.toNat * 2 +
        (s.dmAt idx.toNat).run.toNat)

/-- R231, R228 to R230, R221: TICK advances its domain's counter by one modulo 2^16, expires exactly the running slots of the
domain whose due tick is the new value, pushes their events in ascending slot order and drops those past the capacity with OVF
set, returns the count and the new value, and changes nothing else. -/
def Obligations.TickAdvancesAndExpires : Prop :=
  ∀ (s : State) (idx : Half) (n : Tick), s.cfg.wf = true → idx.toNat < s.cfg.ndom → s.evq.length ≤ 16 →
    n = s.nowAt idx.toNat + 1 →
    ∃ ns ds q o, exec (.tick idx) s =
        .next (State.complete { s with now := ns, dm := ds, evq := q, ovf := o }
          (BitVec.ofNat 32 (expiring s idx.toNat n).length ++ n.setWidth 32)) ∧
      (∀ d, State.nowAt { s with now := ns } d = if d = idx.toNat then n else s.nowAt d) ∧
      (∀ k, State.dmAt { s with dm := ds } k =
        if k ∈ expiring s idx.toNat n then { s.dmAt k with run := false, timeout := true } else s.dmAt k) ∧
      q = (s.evq ++ (expiring s idx.toNat n).map (expiryEvent s.cfg)).take 16 ∧
      o = (s.ovf || decide (16 < s.evq.length + (expiring s idx.toNat n).length))

/-- R232: NOW_RD returns the tick counter of its domain and changes nothing else. -/
def Obligations.NowRdReturnsTheCounter : Prop :=
  ∀ (s : State) (idx : Half), s.cfg.wf = true → idx.toNat < s.cfg.ndom →
    exec (.nowRd idx) s = .next (s.complete ((s.nowAt idx.toNat).setWidth 64))

/-- R233: a slot armed with T is running and not timed out after every number of ticks of its domain below T, and is timed out and
not running after every number from T on: tick T raises TIMEOUT, exactly once, and pushes the one event of the slot; while OVF shows
that no event was dropped, the FIFO holds one event of the slot more than before from tick T on, and none more before it. The slot
may be running already when it is armed, so this is also what a rearm does. -/
def Obligations.ArmedSlotTimesOutOnTickT : Prop :=
  ∀ (s : State) (idx : Half) (c : SlotCfg) (n : Nat), s.cfg.wf = true → s.cfg.slots[idx.toNat]? = some c →
    1 ≤ s.operand.toNat → s.operand.toNat < 65536 →
    ∃ t u, exec (.dmArm idx) s = .next t ∧ tickTimes (BitVec.ofNat 16 c.dom) n t = some u ∧
      (u.dmAt idx.toNat).run = decide (n < s.operand.toNat) ∧
      (u.dmAt idx.toNat).timeout = decide (s.operand.toNat ≤ n) ∧
      (u.ovf = false → (u.evq.filter fun e => decide (e.slot = idx)).length =
        (s.evq.filter fun e => decide (e.slot = idx)).length + if s.operand.toNat ≤ n then 1 else 0)

/-- R235: a scalar signal watched by a slot armed with T reads its PBUF value with SUB = 0 after n < T ticks and its init value
with SUB = 1 from tick T on. -/
def Obligations.WatchedSignalSubstitutesFromTickT : Prop :=
  ∀ (s : State) (idx slot : Half) (d : SigDesc) (c : SlotCfg) (n : Nat), s.cfg.wf = true →
    s.cfg.sigs[idx.toNat]? = some d → d.kind.isScalar = true → d.dm = some slot.toNat →
    s.cfg.slots[slot.toNat]? = some c → 1 ≤ s.operand.toNat → s.operand.toNat < 65536 →
    ∃ t u v, exec (.dmArm slot) s = .next t ∧ tickTimes (BitVec.ofNat 16 c.dom) n t = some u ∧
      exec (.sigRd 0 0 idx) u = .next v ∧
      (v.port s.cur).sub = decide (s.operand.toNat ≤ n) ∧
      (v.port s.cur).res = decodeScalar d (if n < s.operand.toNat
        then s.extract (s.cfg.region d.reg) d.endian d.pos d.size
        else s.extractInit (s.cfg.region d.reg) d.endian d.pos d.size)

/-! ### Frames over all commands -/

/-- R37, R20, R38 (what no command writes): no command changes the configuration, IRQ_EN, the hosts, the schedule, any register of
the other port, or CMD, VAL or OVR of its own port. -/
def Obligations.NoCommandTouchesTheOtherPortOrItsOperands : Prop :=
  ∀ (s t : State) (i : Instr), exec i s = .next t →
    t.cfg = s.cfg ∧ t.irqEn = s.irqEn ∧ t.host0 = s.host0 ∧ t.host1 = s.host1 ∧ t.sched = s.sched ∧ t.cur = s.cur ∧
    (∀ p, p ≠ s.cur → t.port p = s.port p) ∧
    (t.port s.cur).cmd = (s.port s.cur).cmd ∧ (t.port s.cur).val = (s.port s.cur).val ∧
    (t.port s.cur).ovr = (s.port s.cur).ovr

/-- R74, R72, R31 to R35: who writes what. Every command outside the ones named for a state file leaves all of it unchanged (PBUF,
DYNLEN, FST, DM, NOW, and EVQ with OVF), and the reading commands change only RES and STATUS of their port. -/
def Obligations.OnlyTheNamedCommandsWriteEachStateFile : Prop :=
  ∀ (s t : State) (i : Instr), exec i s = .next t →
    (match i with
      | .fldWr .. | .bufWr .. | .bufInit .. | .sigWr .. | .grpCommit .. | .grpFetch .. => True
      | _ => t.pbuf = s.pbuf) ∧
    (match i with
      | .dlenWr .. => True
      | _ => t.dynlen = s.dynlen) ∧
    (match i with
      | .sigWr .. | .filtEval .. | .filtReset .. => True
      | _ => t.fst = s.fst) ∧
    (match i with
      | .dmArm .. | .dmDisarm .. | .dmClear .. | .tick .. => True
      | _ => t.dm = s.dm) ∧
    (match i with
      | .tick .. => True
      | _ => t.now = s.now) ∧
    (match i with
      | .dmDisarm .. | .tick .. | .evtPop => True
      | _ => t.evq = s.evq ∧ t.ovf = s.ovf) ∧
    (match i with
      | .nop | .fldRd .. | .bufRd .. | .sigRd .. | .dlenRd .. | .filtRdst .. | .dmStat .. | .nowRd .. =>
        t = s.setPort s.cur (t.port s.cur)
      | _ => True)

/-! ### The whole machine -/

/-- The invariant of Safety.lean (R11, R24, R30 to R35, R37, R76, R191, R221, R222) is kept by every step of every agent. -/
def Obligations.EveryStepKeepsTheInvariant : Prop := ∀ s t : State, s.Inv → step s = .next t → t.Inv

/-- The reset state of every well-formed configuration meets the invariant, and so does `State.reset` (R46, R343), whose
configuration, the spec's CFG-P, is the model's choice (DESIGN CHOICE, notes/assumptions/1.md). -/
def Obligations.ResetMeetsTheInvariant : Prop :=
  (∀ c : Cfg, c.wf = true → (State.resetOf c).Inv) ∧ State.reset.Inv

/-- R15, R61: under a well-formed configuration the only step that does not answer a next state is an MMIO access that the spec
gives no step (the fault is the model's choice, notes/assumptions/6.md). -/
def Obligations.OnlyBadBusAccessesStopTheMachine : Prop :=
  ∀ s : State, s.cfg.wf = true → (¬ ∃ t, step s = .next t) →
    step s = .fault .noBusStep ∧
    ∃ h addr width rest, s.regAt? addr width = none ∧
      (s.sched = .hostRead h addr width :: rest ∨ ∃ w, s.sched = .hostWrite h addr width w :: rest)
end

