-- ==== Sys2Proof/Laws/Cfg.lean ====
section
/-! SUPPORT. What a well-formed configuration says (R11, 00_scope.md), one lemma per check, in the form that the proofs about
accesses use. -/

namespace Sys2Proof

/-- A configuration is well-formed exactly when every named check holds. -/
theorem Cfg.wf_iff (c : Cfg) : c.wf = true ↔
    c.paramsLegal = true ∧ c.cwReg = true ∧ c.cwInit = true ∧ c.cwSigReg = true ∧ c.cwSigScalar = true ∧
    c.cwSigArray = true ∧ c.cwSigFilt = true ∧ c.cwSigDm = true ∧ c.cwSigUb = true ∧ c.cwGrp = true ∧
    c.cwGrpMember = true ∧ c.cwFilt = true ∧ c.cwSlot = true := by
  simp [Cfg.wf]

theorem Cfg.region_of_getElem? (c : Cfg) (k : Nat) (r : Region) (h : c.regions[k]? = some r) : c.region k = r := by
  simp [Cfg.region, List.getD_eq_getElem?_getD, h]

theorem Cfg.filt_of_getElem? (c : Cfg) (k : Nat) (f : FiltCfg) (h : c.filts[k]? = some f) : c.filt k = f := by
  simp [Cfg.filt, List.getD_eq_getElem?_getD, h]

theorem Cfg.slot_of_getElem? (c : Cfg) (k : Nat) (d : SlotCfg) (h : c.slots[k]? = some d) : c.slot k = d := by
  simp [Cfg.slot, List.getD_eq_getElem?_getD, h]

theorem Cfg.region_mem (c : Cfg) (k : Nat) (h : k < c.regions.length) : c.region k ∈ c.regions := by
  simp [Cfg.region, List.getD_eq_getElem?_getD, List.getElem?_eq_getElem h]

/-- R6: the counts and the size of PBUF are at most 65536, and there is at least one domain. -/
theorem Cfg.wf_params (c : Cfg) (h : c.wf = true) :
    1 ≤ c.pbufBytes ∧ c.pbufBytes ≤ 65536 ∧ 1 ≤ c.ndom ∧ c.ndom ≤ 65536 ∧ c.regions.length ≤ 65536 ∧
    c.sigs.length ≤ 65536 ∧ c.grps.length ≤ 65536 ∧ c.filts.length ≤ 65536 ∧ c.slots.length ≤ 65536 := by
  have := ((Cfg.wf_iff c).1 h).1
  simpa [Cfg.paramsLegal, and_assoc] using this

/-- CW-REG: a region lies inside PBUF. -/
theorem Cfg.wf_region (c : Cfg) (h : c.wf = true) (r : Region) (hr : r ∈ c.regions) :
    1 ≤ r.size ∧ r.size ≤ 8192 ∧ r.base + r.size ≤ c.pbufBytes := by
  have := ((Cfg.wf_iff c).1 h).2.1
  simp only [Cfg.cwReg, List.all_eq_true, Bool.and_eq_true, decide_eq_true_eq] at this
  exact ⟨(this r hr).1.1, (this r hr).1.2, (this r hr).2⟩

/-- CW-INIT. -/
theorem Cfg.wf_init (c : Cfg) (h : c.wf = true) : c.initImg.length = c.pbufBytes := by
  have := ((Cfg.wf_iff c).1 h).2.2.1
  simpa [Cfg.cwInit] using this

/-- CW-SIG-REG. -/
theorem Cfg.wf_sigReg (c : Cfg) (h : c.wf = true) (d : SigDesc) (hd : d ∈ c.sigs) : d.reg < c.regions.length := by
  have := ((Cfg.wf_iff c).1 h).2.2.2.1
  simp only [Cfg.cwSigReg, List.all_eq_true, decide_eq_true_eq] at this
  exact this d hd

/-- CW-SIG-SCALAR: a scalar has 1 to 64 bits and lies inside its region. -/
theorem Cfg.wf_scalar (c : Cfg) (h : c.wf = true) (d : SigDesc) (hd : d ∈ c.sigs) (hk : d.kind.isScalar = true) :
    1 ≤ d.size ∧ d.size ≤ 64 ∧ (c.region d.reg).fits d.endian d.pos d.size = true := by
  have := ((Cfg.wf_iff c).1 h).2.2.2.2.1
  simp only [Cfg.cwSigScalar, List.all_eq_true] at this
  have := this d hd
  simp only [hk, Bool.not_true, Bool.false_or, Bool.and_eq_true, decide_eq_true_eq] at this
  exact ⟨this.1.1.1, this.1.1.2, this.2⟩

/-- CW-SIG-ARRAY: an array is byte-aligned, lies inside its region and has no filter. -/
theorem Cfg.wf_array (c : Cfg) (h : c.wf = true) (d : SigDesc) (hd : d ∈ c.sigs) (hk : d.kind.isScalar = false) :
    d.pos % 8 = 0 ∧ 1 ≤ d.len ∧ d.pos / 8 + d.len ≤ (c.region d.reg).size ∧ d.filt = none := by
  have := ((Cfg.wf_iff c).1 h).2.2.2.2.2.1
  simp only [Cfg.cwSigArray, List.all_eq_true] at this
  have := this d hd
  simp only [hk, Bool.false_or, Bool.and_eq_true, decide_eq_true_eq, Option.isNone_iff_eq_none] at this
  exact ⟨this.1.1.1, this.1.1.2, this.1.2, this.2⟩

/-- CW-SIG-FILT: a signal's filter exists and has the signal's signedness. -/
theorem Cfg.wf_sigFilt (c : Cfg) (h : c.wf = true) (d : SigDesc) (hd : d ∈ c.sigs) (f : Nat) (hf : d.filt = some f) :
    f < c.filts.length ∧ (c.filt f).sgn = decide (d.kind = .sint) := by
  have := ((Cfg.wf_iff c).1 h).2.2.2.2.2.2.1
  simp only [Cfg.cwSigFilt, List.all_eq_true] at this
  have := this d hd
  simp only [hf, Bool.and_eq_true, decide_eq_true_eq, beq_iff_eq] at this
  exact this

/-- CW-SIG-DM: the slot that watches a signal exists and is of kind RX. -/
theorem Cfg.wf_sigDm (c : Cfg) (h : c.wf = true) (d : SigDesc) (hd : d ∈ c.sigs) (k : Nat) (hk : d.dm = some k) :
    k < c.slots.length ∧ (c.slot k).kind = .rx := by
  have := ((Cfg.wf_iff c).1 h).2.2.2.2.2.2.2.1
  simp only [Cfg.cwSigDm, List.all_eq_true] at this
  have := this d hd
  simp only [hk, Bool.and_eq_true, decide_eq_true_eq] at this
  exact this

/-- CW-SIG-UB: a signal's update bit lies inside its region and outside the signal's own bits. -/
theorem Cfg.wf_sigUb (c : Cfg) (h : c.wf = true) (d : SigDesc) (hd : d ∈ c.sigs) (u : Nat) (hu : d.ub = some u) :
    u < (c.region d.reg).bits ∧ u ∉ d.bitAddrs := by
  have := ((Cfg.wf_iff c).1 h).2.2.2.2.2.2.2.2.1
  simp only [Cfg.cwSigUb, List.all_eq_true] at this
  have := this d hd
  simp only [hu, Bool.and_eq_true, decide_eq_true_eq, Bool.not_eq_true', List.contains_eq_mem,
    decide_eq_false_iff_not] at this
  exact this

/-- CW-GRP: a group lies inside its I-PDU, as do its update bit and mask. -/
theorem Cfg.wf_grp (c : Cfg) (h : c.wf = true) (g : GrpDesc) (hg : g ∈ c.grps) :
    g.pdureg < c.regions.length ∧ g.off + g.len ≤ (c.region g.pdureg).size ∧ 1 ≤ g.len ∧
    (∀ u, g.ub = some u → u < (c.region g.pdureg).bits) ∧ (∀ m, g.mask = some m → m.length = g.len) := by
  have := ((Cfg.wf_iff c).1 h).2.2.2.2.2.2.2.2.2.1
  simp only [Cfg.cwGrp, List.all_eq_true] at this
  have := this g hg
  simp only [Cfg.groupOk, Bool.and_eq_true, decide_eq_true_eq] at this
  obtain ⟨⟨⟨⟨⟨h1, h2⟩, h3⟩, -⟩, hu⟩, hm⟩ := this
  refine ⟨h1, h2, h3, fun u e => ?_, fun m e => ?_⟩
  · simpa [e] using hu
  · simpa [e] using hm

/-- CW-GRP: the shadow exists, is long enough and does not overlap the group's I-PDU bytes. -/
theorem Cfg.wf_shadow (c : Cfg) (h : c.wf = true) (g : GrpDesc) (hg : g ∈ c.grps) (r : Nat) (hr : g.shreg = some r) :
    r < c.regions.length ∧ g.len ≤ (c.region r).size ∧
    ((c.region r).base + g.len ≤ (c.region g.pdureg).base + g.off ∨
     (c.region g.pdureg).base + g.off + g.len ≤ (c.region r).base) := by
  have := ((Cfg.wf_iff c).1 h).2.2.2.2.2.2.2.2.2.1
  simp only [Cfg.cwGrp, List.all_eq_true] at this
  have := this g hg
  simp only [Cfg.groupOk, hr, Bool.and_eq_true, decide_eq_true_eq] at this
  obtain ⟨⟨⟨-, ⟨h1, h2⟩, h3⟩, -⟩, -⟩ := this
  exact ⟨h1, h2, h3⟩

/-- CW-FILT. -/
theorem Cfg.wf_filt (c : Cfg) (h : c.wf = true) (f : FiltCfg) (hf : f ∈ c.filts) (hk : f.kind = .oneEveryN) :
    1 ≤ f.n.toNat := by
  have := ((Cfg.wf_iff c).1 h).2.2.2.2.2.2.2.2.2.2.2.1
  simp only [Cfg.cwFilt, List.all_eq_true] at this
  have := this f hf
  simpa [hk] using this

/-- CW-SLOT. -/
theorem Cfg.wf_slot (c : Cfg) (h : c.wf = true) (k : SlotCfg) (hk : k ∈ c.slots) : k.dom < c.ndom := by
  have := ((Cfg.wf_iff c).1 h).2.2.2.2.2.2.2.2.2.2.2.2
  simp only [Cfg.cwSlot, List.all_eq_true, decide_eq_true_eq] at this
  exact this k hk

end Sys2Proof
end

