-- ==== Sys2Proof/Laws/State.lean ====
section
/-! SUPPORT. One lemma per field per update of State, each true by rfl, so that no proof unfolds a record update. -/

namespace Sys2Proof.Machine

@[simp] theorem State.setByte_cfg (s : State) (a : Nat) (b : Byte) : (s.setByte a b).cfg = s.cfg := rfl
@[simp] theorem State.setByte_port0 (s : State) (a : Nat) (b : Byte) : (s.setByte a b).port0 = s.port0 := rfl
@[simp] theorem State.setByte_port1 (s : State) (a : Nat) (b : Byte) : (s.setByte a b).port1 = s.port1 := rfl
@[simp] theorem State.setByte_irqEn (s : State) (a : Nat) (b : Byte) : (s.setByte a b).irqEn = s.irqEn := rfl
@[simp] theorem State.setByte_ovf (s : State) (a : Nat) (b : Byte) : (s.setByte a b).ovf = s.ovf := rfl
@[simp] theorem State.setByte_evq (s : State) (a : Nat) (b : Byte) : (s.setByte a b).evq = s.evq := rfl
@[simp] theorem State.setByte_dynlen (s : State) (a : Nat) (b : Byte) : (s.setByte a b).dynlen = s.dynlen := rfl
@[simp] theorem State.setByte_fst (s : State) (a : Nat) (b : Byte) : (s.setByte a b).fst = s.fst := rfl
@[simp] theorem State.setByte_dm (s : State) (a : Nat) (b : Byte) : (s.setByte a b).dm = s.dm := rfl
@[simp] theorem State.setByte_now (s : State) (a : Nat) (b : Byte) : (s.setByte a b).now = s.now := rfl
@[simp] theorem State.setByte_host0 (s : State) (a : Nat) (b : Byte) : (s.setByte a b).host0 = s.host0 := rfl
@[simp] theorem State.setByte_host1 (s : State) (a : Nat) (b : Byte) : (s.setByte a b).host1 = s.host1 := rfl
@[simp] theorem State.setByte_sched (s : State) (a : Nat) (b : Byte) : (s.setByte a b).sched = s.sched := rfl
@[simp] theorem State.setByte_cur (s : State) (a : Nat) (b : Byte) : (s.setByte a b).cur = s.cur := rfl

@[simp] theorem State.setDynlen_cfg (s : State) (i : Nat) (v : Half) : (s.setDynlen i v).cfg = s.cfg := rfl
@[simp] theorem State.setDynlen_port0 (s : State) (i : Nat) (v : Half) : (s.setDynlen i v).port0 = s.port0 := rfl
@[simp] theorem State.setDynlen_port1 (s : State) (i : Nat) (v : Half) : (s.setDynlen i v).port1 = s.port1 := rfl
@[simp] theorem State.setDynlen_irqEn (s : State) (i : Nat) (v : Half) : (s.setDynlen i v).irqEn = s.irqEn := rfl
@[simp] theorem State.setDynlen_ovf (s : State) (i : Nat) (v : Half) : (s.setDynlen i v).ovf = s.ovf := rfl
@[simp] theorem State.setDynlen_evq (s : State) (i : Nat) (v : Half) : (s.setDynlen i v).evq = s.evq := rfl
@[simp] theorem State.setDynlen_pbuf (s : State) (i : Nat) (v : Half) : (s.setDynlen i v).pbuf = s.pbuf := rfl
@[simp] theorem State.setDynlen_fst (s : State) (i : Nat) (v : Half) : (s.setDynlen i v).fst = s.fst := rfl
@[simp] theorem State.setDynlen_dm (s : State) (i : Nat) (v : Half) : (s.setDynlen i v).dm = s.dm := rfl
@[simp] theorem State.setDynlen_now (s : State) (i : Nat) (v : Half) : (s.setDynlen i v).now = s.now := rfl
@[simp] theorem State.setDynlen_host0 (s : State) (i : Nat) (v : Half) : (s.setDynlen i v).host0 = s.host0 := rfl
@[simp] theorem State.setDynlen_host1 (s : State) (i : Nat) (v : Half) : (s.setDynlen i v).host1 = s.host1 := rfl
@[simp] theorem State.setDynlen_sched (s : State) (i : Nat) (v : Half) : (s.setDynlen i v).sched = s.sched := rfl
@[simp] theorem State.setDynlen_cur (s : State) (i : Nat) (v : Half) : (s.setDynlen i v).cur = s.cur := rfl

@[simp] theorem State.setFst_cfg (s : State) (f : Nat) (v : FiltState) : (s.setFst f v).cfg = s.cfg := rfl
@[simp] theorem State.setFst_port0 (s : State) (f : Nat) (v : FiltState) : (s.setFst f v).port0 = s.port0 := rfl
@[simp] theorem State.setFst_port1 (s : State) (f : Nat) (v : FiltState) : (s.setFst f v).port1 = s.port1 := rfl
@[simp] theorem State.setFst_irqEn (s : State) (f : Nat) (v : FiltState) : (s.setFst f v).irqEn = s.irqEn := rfl
@[simp] theorem State.setFst_ovf (s : State) (f : Nat) (v : FiltState) : (s.setFst f v).ovf = s.ovf := rfl
@[simp] theorem State.setFst_evq (s : State) (f : Nat) (v : FiltState) : (s.setFst f v).evq = s.evq := rfl
@[simp] theorem State.setFst_pbuf (s : State) (f : Nat) (v : FiltState) : (s.setFst f v).pbuf = s.pbuf := rfl
@[simp] theorem State.setFst_dynlen (s : State) (f : Nat) (v : FiltState) : (s.setFst f v).dynlen = s.dynlen := rfl
@[simp] theorem State.setFst_dm (s : State) (f : Nat) (v : FiltState) : (s.setFst f v).dm = s.dm := rfl
@[simp] theorem State.setFst_now (s : State) (f : Nat) (v : FiltState) : (s.setFst f v).now = s.now := rfl
@[simp] theorem State.setFst_host0 (s : State) (f : Nat) (v : FiltState) : (s.setFst f v).host0 = s.host0 := rfl
@[simp] theorem State.setFst_host1 (s : State) (f : Nat) (v : FiltState) : (s.setFst f v).host1 = s.host1 := rfl
@[simp] theorem State.setFst_sched (s : State) (f : Nat) (v : FiltState) : (s.setFst f v).sched = s.sched := rfl
@[simp] theorem State.setFst_cur (s : State) (f : Nat) (v : FiltState) : (s.setFst f v).cur = s.cur := rfl

@[simp] theorem State.setDm_cfg (s : State) (k : Nat) (v : DmSlot) : (s.setDm k v).cfg = s.cfg := rfl
@[simp] theorem State.setDm_port0 (s : State) (k : Nat) (v : DmSlot) : (s.setDm k v).port0 = s.port0 := rfl
@[simp] theorem State.setDm_port1 (s : State) (k : Nat) (v : DmSlot) : (s.setDm k v).port1 = s.port1 := rfl
@[simp] theorem State.setDm_irqEn (s : State) (k : Nat) (v : DmSlot) : (s.setDm k v).irqEn = s.irqEn := rfl
@[simp] theorem State.setDm_ovf (s : State) (k : Nat) (v : DmSlot) : (s.setDm k v).ovf = s.ovf := rfl
@[simp] theorem State.setDm_evq (s : State) (k : Nat) (v : DmSlot) : (s.setDm k v).evq = s.evq := rfl
@[simp] theorem State.setDm_pbuf (s : State) (k : Nat) (v : DmSlot) : (s.setDm k v).pbuf = s.pbuf := rfl
@[simp] theorem State.setDm_dynlen (s : State) (k : Nat) (v : DmSlot) : (s.setDm k v).dynlen = s.dynlen := rfl
@[simp] theorem State.setDm_fst (s : State) (k : Nat) (v : DmSlot) : (s.setDm k v).fst = s.fst := rfl
@[simp] theorem State.setDm_now (s : State) (k : Nat) (v : DmSlot) : (s.setDm k v).now = s.now := rfl
@[simp] theorem State.setDm_host0 (s : State) (k : Nat) (v : DmSlot) : (s.setDm k v).host0 = s.host0 := rfl
@[simp] theorem State.setDm_host1 (s : State) (k : Nat) (v : DmSlot) : (s.setDm k v).host1 = s.host1 := rfl
@[simp] theorem State.setDm_sched (s : State) (k : Nat) (v : DmSlot) : (s.setDm k v).sched = s.sched := rfl
@[simp] theorem State.setDm_cur (s : State) (k : Nat) (v : DmSlot) : (s.setDm k v).cur = s.cur := rfl

@[simp] theorem State.setNow_cfg (s : State) (d : Nat) (v : Tick) : (s.setNow d v).cfg = s.cfg := rfl
@[simp] theorem State.setNow_port0 (s : State) (d : Nat) (v : Tick) : (s.setNow d v).port0 = s.port0 := rfl
@[simp] theorem State.setNow_port1 (s : State) (d : Nat) (v : Tick) : (s.setNow d v).port1 = s.port1 := rfl
@[simp] theorem State.setNow_irqEn (s : State) (d : Nat) (v : Tick) : (s.setNow d v).irqEn = s.irqEn := rfl
@[simp] theorem State.setNow_ovf (s : State) (d : Nat) (v : Tick) : (s.setNow d v).ovf = s.ovf := rfl
@[simp] theorem State.setNow_evq (s : State) (d : Nat) (v : Tick) : (s.setNow d v).evq = s.evq := rfl
@[simp] theorem State.setNow_pbuf (s : State) (d : Nat) (v : Tick) : (s.setNow d v).pbuf = s.pbuf := rfl
@[simp] theorem State.setNow_dynlen (s : State) (d : Nat) (v : Tick) : (s.setNow d v).dynlen = s.dynlen := rfl
@[simp] theorem State.setNow_fst (s : State) (d : Nat) (v : Tick) : (s.setNow d v).fst = s.fst := rfl
@[simp] theorem State.setNow_dm (s : State) (d : Nat) (v : Tick) : (s.setNow d v).dm = s.dm := rfl
@[simp] theorem State.setNow_host0 (s : State) (d : Nat) (v : Tick) : (s.setNow d v).host0 = s.host0 := rfl
@[simp] theorem State.setNow_host1 (s : State) (d : Nat) (v : Tick) : (s.setNow d v).host1 = s.host1 := rfl
@[simp] theorem State.setNow_sched (s : State) (d : Nat) (v : Tick) : (s.setNow d v).sched = s.sched := rfl
@[simp] theorem State.setNow_cur (s : State) (d : Nat) (v : Tick) : (s.setNow d v).cur = s.cur := rfl

@[simp] theorem State.setPort_cfg (s : State) (p : PortId) (x : Port) : (s.setPort p x).cfg = s.cfg := rfl
@[simp] theorem State.setPort_irqEn (s : State) (p : PortId) (x : Port) : (s.setPort p x).irqEn = s.irqEn := rfl
@[simp] theorem State.setPort_ovf (s : State) (p : PortId) (x : Port) : (s.setPort p x).ovf = s.ovf := rfl
@[simp] theorem State.setPort_evq (s : State) (p : PortId) (x : Port) : (s.setPort p x).evq = s.evq := rfl
@[simp] theorem State.setPort_pbuf (s : State) (p : PortId) (x : Port) : (s.setPort p x).pbuf = s.pbuf := rfl
@[simp] theorem State.setPort_dynlen (s : State) (p : PortId) (x : Port) : (s.setPort p x).dynlen = s.dynlen := rfl
@[simp] theorem State.setPort_fst (s : State) (p : PortId) (x : Port) : (s.setPort p x).fst = s.fst := rfl
@[simp] theorem State.setPort_dm (s : State) (p : PortId) (x : Port) : (s.setPort p x).dm = s.dm := rfl
@[simp] theorem State.setPort_now (s : State) (p : PortId) (x : Port) : (s.setPort p x).now = s.now := rfl
@[simp] theorem State.setPort_host0 (s : State) (p : PortId) (x : Port) : (s.setPort p x).host0 = s.host0 := rfl
@[simp] theorem State.setPort_host1 (s : State) (p : PortId) (x : Port) : (s.setPort p x).host1 = s.host1 := rfl
@[simp] theorem State.setPort_sched (s : State) (p : PortId) (x : Port) : (s.setPort p x).sched = s.sched := rfl
@[simp] theorem State.setPort_cur (s : State) (p : PortId) (x : Port) : (s.setPort p x).cur = s.cur := rfl

@[simp] theorem State.setHost_cfg (s : State) (h : HostId) (x : HostAgent) : (s.setHost h x).cfg = s.cfg := rfl
@[simp] theorem State.setHost_port0 (s : State) (h : HostId) (x : HostAgent) : (s.setHost h x).port0 = s.port0 := rfl
@[simp] theorem State.setHost_port1 (s : State) (h : HostId) (x : HostAgent) : (s.setHost h x).port1 = s.port1 := rfl
@[simp] theorem State.setHost_irqEn (s : State) (h : HostId) (x : HostAgent) : (s.setHost h x).irqEn = s.irqEn := rfl
@[simp] theorem State.setHost_ovf (s : State) (h : HostId) (x : HostAgent) : (s.setHost h x).ovf = s.ovf := rfl
@[simp] theorem State.setHost_evq (s : State) (h : HostId) (x : HostAgent) : (s.setHost h x).evq = s.evq := rfl
@[simp] theorem State.setHost_pbuf (s : State) (h : HostId) (x : HostAgent) : (s.setHost h x).pbuf = s.pbuf := rfl
@[simp] theorem State.setHost_dynlen (s : State) (h : HostId) (x : HostAgent) : (s.setHost h x).dynlen = s.dynlen := rfl
@[simp] theorem State.setHost_fst (s : State) (h : HostId) (x : HostAgent) : (s.setHost h x).fst = s.fst := rfl
@[simp] theorem State.setHost_dm (s : State) (h : HostId) (x : HostAgent) : (s.setHost h x).dm = s.dm := rfl
@[simp] theorem State.setHost_now (s : State) (h : HostId) (x : HostAgent) : (s.setHost h x).now = s.now := rfl
@[simp] theorem State.setHost_sched (s : State) (h : HostId) (x : HostAgent) : (s.setHost h x).sched = s.sched := rfl
@[simp] theorem State.setHost_cur (s : State) (h : HostId) (x : HostAgent) : (s.setHost h x).cur = s.cur := rfl

@[simp] theorem State.setBitAt_cfg (s : State) (k : Nat) (v : Bool) : (s.setBitAt k v).cfg = s.cfg := rfl
@[simp] theorem State.setBitAt_port0 (s : State) (k : Nat) (v : Bool) : (s.setBitAt k v).port0 = s.port0 := rfl
@[simp] theorem State.setBitAt_port1 (s : State) (k : Nat) (v : Bool) : (s.setBitAt k v).port1 = s.port1 := rfl
@[simp] theorem State.setBitAt_irqEn (s : State) (k : Nat) (v : Bool) : (s.setBitAt k v).irqEn = s.irqEn := rfl
@[simp] theorem State.setBitAt_ovf (s : State) (k : Nat) (v : Bool) : (s.setBitAt k v).ovf = s.ovf := rfl
@[simp] theorem State.setBitAt_evq (s : State) (k : Nat) (v : Bool) : (s.setBitAt k v).evq = s.evq := rfl
@[simp] theorem State.setBitAt_dynlen (s : State) (k : Nat) (v : Bool) : (s.setBitAt k v).dynlen = s.dynlen := rfl
@[simp] theorem State.setBitAt_fst (s : State) (k : Nat) (v : Bool) : (s.setBitAt k v).fst = s.fst := rfl
@[simp] theorem State.setBitAt_dm (s : State) (k : Nat) (v : Bool) : (s.setBitAt k v).dm = s.dm := rfl
@[simp] theorem State.setBitAt_now (s : State) (k : Nat) (v : Bool) : (s.setBitAt k v).now = s.now := rfl
@[simp] theorem State.setBitAt_host0 (s : State) (k : Nat) (v : Bool) : (s.setBitAt k v).host0 = s.host0 := rfl
@[simp] theorem State.setBitAt_host1 (s : State) (k : Nat) (v : Bool) : (s.setBitAt k v).host1 = s.host1 := rfl
@[simp] theorem State.setBitAt_sched (s : State) (k : Nat) (v : Bool) : (s.setBitAt k v).sched = s.sched := rfl
@[simp] theorem State.setBitAt_cur (s : State) (k : Nat) (v : Bool) : (s.setBitAt k v).cur = s.cur := rfl

@[simp] theorem State.complete_cfg (s : State) (r : Word64) (b : Bool) : (s.complete r b).cfg = s.cfg := rfl
@[simp] theorem State.complete_irqEn (s : State) (r : Word64) (b : Bool) : (s.complete r b).irqEn = s.irqEn := rfl
@[simp] theorem State.complete_ovf (s : State) (r : Word64) (b : Bool) : (s.complete r b).ovf = s.ovf := rfl
@[simp] theorem State.complete_evq (s : State) (r : Word64) (b : Bool) : (s.complete r b).evq = s.evq := rfl
@[simp] theorem State.complete_pbuf (s : State) (r : Word64) (b : Bool) : (s.complete r b).pbuf = s.pbuf := rfl
@[simp] theorem State.complete_dynlen (s : State) (r : Word64) (b : Bool) : (s.complete r b).dynlen = s.dynlen := rfl
@[simp] theorem State.complete_fst (s : State) (r : Word64) (b : Bool) : (s.complete r b).fst = s.fst := rfl
@[simp] theorem State.complete_dm (s : State) (r : Word64) (b : Bool) : (s.complete r b).dm = s.dm := rfl
@[simp] theorem State.complete_now (s : State) (r : Word64) (b : Bool) : (s.complete r b).now = s.now := rfl
@[simp] theorem State.complete_host0 (s : State) (r : Word64) (b : Bool) : (s.complete r b).host0 = s.host0 := rfl
@[simp] theorem State.complete_host1 (s : State) (r : Word64) (b : Bool) : (s.complete r b).host1 = s.host1 := rfl
@[simp] theorem State.complete_sched (s : State) (r : Word64) (b : Bool) : (s.complete r b).sched = s.sched := rfl
@[simp] theorem State.complete_cur (s : State) (r : Word64) (b : Bool) : (s.complete r b).cur = s.cur := rfl

@[simp] theorem State.raise_cfg (s : State) (e : StatusCode) : (s.raise e).cfg = s.cfg := rfl
@[simp] theorem State.raise_irqEn (s : State) (e : StatusCode) : (s.raise e).irqEn = s.irqEn := rfl
@[simp] theorem State.raise_ovf (s : State) (e : StatusCode) : (s.raise e).ovf = s.ovf := rfl
@[simp] theorem State.raise_evq (s : State) (e : StatusCode) : (s.raise e).evq = s.evq := rfl
@[simp] theorem State.raise_pbuf (s : State) (e : StatusCode) : (s.raise e).pbuf = s.pbuf := rfl
@[simp] theorem State.raise_dynlen (s : State) (e : StatusCode) : (s.raise e).dynlen = s.dynlen := rfl
@[simp] theorem State.raise_fst (s : State) (e : StatusCode) : (s.raise e).fst = s.fst := rfl
@[simp] theorem State.raise_dm (s : State) (e : StatusCode) : (s.raise e).dm = s.dm := rfl
@[simp] theorem State.raise_now (s : State) (e : StatusCode) : (s.raise e).now = s.now := rfl
@[simp] theorem State.raise_host0 (s : State) (e : StatusCode) : (s.raise e).host0 = s.host0 := rfl
@[simp] theorem State.raise_host1 (s : State) (e : StatusCode) : (s.raise e).host1 = s.host1 := rfl
@[simp] theorem State.raise_sched (s : State) (e : StatusCode) : (s.raise e).sched = s.sched := rfl
@[simp] theorem State.raise_cur (s : State) (e : StatusCode) : (s.raise e).cur = s.cur := rfl

@[simp] theorem State.resetBlock_cfg (s : State) : s.resetBlock.cfg = s.cfg := rfl
@[simp] theorem State.resetBlock_port0 (s : State) : s.resetBlock.port0 = Port.reset := rfl
@[simp] theorem State.resetBlock_port1 (s : State) : s.resetBlock.port1 = Port.reset := rfl
@[simp] theorem State.resetBlock_irqEn (s : State) : s.resetBlock.irqEn = false := rfl
@[simp] theorem State.resetBlock_ovf (s : State) : s.resetBlock.ovf = false := rfl
@[simp] theorem State.resetBlock_evq (s : State) : s.resetBlock.evq = [] := rfl
@[simp] theorem State.resetBlock_pbuf (s : State) : s.resetBlock.pbuf = [] := rfl
@[simp] theorem State.resetBlock_dynlen (s : State) : s.resetBlock.dynlen = [] := rfl
@[simp] theorem State.resetBlock_fst (s : State) : s.resetBlock.fst = [] := rfl
@[simp] theorem State.resetBlock_dm (s : State) : s.resetBlock.dm = [] := rfl
@[simp] theorem State.resetBlock_now (s : State) : s.resetBlock.now = [] := rfl
@[simp] theorem State.resetBlock_host0 (s : State) : s.resetBlock.host0 = s.host0 := rfl
@[simp] theorem State.resetBlock_host1 (s : State) : s.resetBlock.host1 = s.host1 := rfl
@[simp] theorem State.resetBlock_sched (s : State) : s.resetBlock.sched = s.sched := rfl
@[simp] theorem State.resetBlock_cur (s : State) : s.resetBlock.cur = s.cur := rfl

@[simp] theorem State.resetOf_cfg (c : Cfg) : (State.resetOf c).cfg = c := rfl
@[simp] theorem State.resetOf_port0 (c : Cfg) : (State.resetOf c).port0 = Port.reset := rfl
@[simp] theorem State.resetOf_port1 (c : Cfg) : (State.resetOf c).port1 = Port.reset := rfl
@[simp] theorem State.resetOf_irqEn (c : Cfg) : (State.resetOf c).irqEn = false := rfl
@[simp] theorem State.resetOf_ovf (c : Cfg) : (State.resetOf c).ovf = false := rfl
@[simp] theorem State.resetOf_evq (c : Cfg) : (State.resetOf c).evq = [] := rfl
@[simp] theorem State.resetOf_pbuf (c : Cfg) : (State.resetOf c).pbuf = [] := rfl
@[simp] theorem State.resetOf_dynlen (c : Cfg) : (State.resetOf c).dynlen = [] := rfl
@[simp] theorem State.resetOf_fst (c : Cfg) : (State.resetOf c).fst = [] := rfl
@[simp] theorem State.resetOf_dm (c : Cfg) : (State.resetOf c).dm = [] := rfl
@[simp] theorem State.resetOf_now (c : Cfg) : (State.resetOf c).now = [] := rfl
@[simp] theorem State.resetOf_host0 (c : Cfg) : (State.resetOf c).host0 = ⟨0, 0⟩ := rfl
@[simp] theorem State.resetOf_host1 (c : Cfg) : (State.resetOf c).host1 = ⟨0, 0⟩ := rfl
@[simp] theorem State.resetOf_sched (c : Cfg) : (State.resetOf c).sched = [] := rfl
@[simp] theorem State.resetOf_cur (c : Cfg) : (State.resetOf c).cur = .p0 := rfl

end Sys2Proof.Machine
end

