-- ==== Sys2Proof/Laws/Table.lean ====
section
/-! SUPPORT. Laws of the sparse tables and of PBUF: read after write, writes elsewhere, and the canonical form. -/

namespace Sys2Proof.Machine

variable {α : Type}

@[simp] theorem Table.read_nil (dflt : Nat → α) (k : Nat) : Table.read dflt [] k = dflt k := rfl

theorem Table.read_cons (dflt : Nat → α) (c : Nat × α) (m : Table α) (k : Nat) :
    Table.read dflt (c :: m) k = if c.1 = k then c.2 else Table.read dflt m k := rfl

theorem Table.read_insert_same (dflt : Nat → α) (m : Table α) (k : Nat) (v : α) (h : ∀ c ∈ m, c.1 ≠ k) :
    Table.read dflt (Table.insert m k v) k = v := by
  induction m with
  | nil => simp [Table.insert, Table.read_cons]
  | cons c m ih =>
    have hc : c.1 ≠ k := h c (by simp)
    have ih := ih fun d hd => h d (by simp [hd])
    by_cases hlt : c.1 < k <;> simp [Table.insert, Table.read_cons, hlt, hc, ih]

theorem Table.read_insert_other (dflt : Nat → α) (m : Table α) (k j : Nat) (v : α) (h : j ≠ k) :
    Table.read dflt (Table.insert m k v) j = Table.read dflt m j := by
  induction m with
  | nil => simp [Table.insert, Table.read_cons, h.symm]
  | cons c m ih =>
    by_cases hlt : c.1 < k
    · simp [Table.insert, Table.read_cons, hlt, ih]
    · simp [Table.insert, Table.read_cons, hlt, h.symm]

theorem Table.read_filter_other (dflt : Nat → α) (m : Table α) (k j : Nat) (h : j ≠ k) :
    Table.read dflt (m.filter fun c => c.1 != k) j = Table.read dflt m j := by
  induction m with
  | nil => rfl
  | cons c m ih =>
    by_cases hk : c.1 = k
    · have hj : k ≠ j := h.symm
      simp [Table.read_cons, hk, ih, hj]
    · simp [Table.read_cons, hk, ih]

theorem Table.read_filter_same (dflt : Nat → α) (m : Table α) (k : Nat) :
    Table.read dflt (m.filter fun c => c.1 != k) k = dflt k := by
  induction m with
  | nil => rfl
  | cons c m ih =>
    by_cases hk : c.1 = k
    · simp [hk, ih]
    · simp [Table.read_cons, hk, ih]

/-- A read after a write to the same index gives the value written. -/
@[simp] theorem Table.read_write_same [DecidableEq α] (dflt : Nat → α) (m : Table α) (k : Nat) (v : α) :
    Table.read dflt (Table.write dflt m k v) k = v := by
  unfold Table.write
  split
  · next h => rw [Table.read_filter_same, h]
  · exact Table.read_insert_same dflt _ k v (by simp)

/-- A write leaves every other index alone. -/
theorem Table.read_write_other [DecidableEq α] (dflt : Nat → α) (m : Table α) (k j : Nat) (v : α) (h : j ≠ k) :
    Table.read dflt (Table.write dflt m k v) j = Table.read dflt m j := by
  unfold Table.write
  split
  · exact Table.read_filter_other dflt m k j h
  · rw [Table.read_insert_other dflt _ k j v h, Table.read_filter_other dflt m k j h]

theorem Table.read_write [DecidableEq α] (dflt : Nat → α) (m : Table α) (k j : Nat) (v : α) :
    Table.read dflt (Table.write dflt m k v) j = if j = k then v else Table.read dflt m j := by
  split
  · next h => subst h; exact Table.read_write_same dflt m j v
  · next h => exact Table.read_write_other dflt m k j v h

theorem Table.rising_mono (m : Table α) (a b : Nat) (h : a ≤ b) (hm : Table.rising b m = true) :
    Table.rising a m = true := by
  cases m with
  | nil => rfl
  | cons c m =>
    simp only [Table.rising, Bool.and_eq_true, decide_eq_true_eq] at hm ⊢
    exact ⟨by omega, hm.2⟩

theorem Table.rising_filter (m : Table α) (k lo : Nat) (h : Table.rising lo m = true) :
    Table.rising lo (m.filter fun c => c.1 != k) = true := by
  induction m generalizing lo with
  | nil => rfl
  | cons c m ih =>
    simp only [Table.rising, Bool.and_eq_true, decide_eq_true_eq] at h
    by_cases hk : c.1 = k
    · simpa [hk] using Table.rising_mono _ lo _ (by omega) (ih _ h.2)
    · simpa [Table.rising, hk, h.1] using ih _ h.2

theorem Table.rising_insert (m : Table α) (k lo : Nat) (v : α) (hlo : lo ≤ k) (hk : ∀ c ∈ m, c.1 ≠ k)
    (h : Table.rising lo m = true) : Table.rising lo (Table.insert m k v) = true := by
  induction m generalizing lo with
  | nil => simp [Table.insert, Table.rising, hlo]
  | cons c m ih =>
    simp only [Table.rising, Bool.and_eq_true, decide_eq_true_eq] at h
    have hc : c.1 ≠ k := hk c (by simp)
    by_cases hlt : c.1 < k
    · have := ih (c.1 + 1) (by omega) (fun d hd => hk d (by simp [hd])) h.2
      simp [Table.insert, hlt, Table.rising, h.1, this]
    · have hle : k + 1 ≤ c.1 := by omega
      simp [Table.insert, hlt, Table.rising, hlo, hle, h.2]

theorem Table.mem_insert (m : Table α) (k : Nat) (v : α) (c : Nat × α) :
    c ∈ Table.insert m k v ↔ c = (k, v) ∨ c ∈ m := by
  induction m with
  | nil => simp [Table.insert]
  | cons d m ih =>
    by_cases hlt : d.1 < k
    · simp only [Table.insert, hlt, if_true, List.mem_cons, ih]; tauto
    · simp [Table.insert, hlt]

/-- Every entry after a write is the one written, or was there before at another index. -/
theorem Table.mem_write [DecidableEq α] (dflt : Nat → α) (m : Table α) (k : Nat) (v : α) (c : Nat × α)
    (h : c ∈ Table.write dflt m k v) : (c = (k, v) ∧ v ≠ dflt k) ∨ (c ∈ m ∧ c.1 ≠ k) := by
  unfold Table.write at h
  split at h
  · right; simpa using h
  · next hv =>
    rcases (Table.mem_insert _ k v c).1 h with h | h
    · exact .inl ⟨h, hv⟩
    · right; simpa using h

/-- A write keeps the canonical form. -/
theorem Table.wf_write [DecidableEq α] (dflt : Nat → α) (m : Table α) (k : Nat) (v : α)
    (h : Table.wf dflt m = true) : Table.wf dflt (Table.write dflt m k v) = true := by
  simp only [Table.wf, Bool.and_eq_true, List.all_eq_true, decide_eq_true_eq] at h ⊢
  refine ⟨?_, fun c hc => ?_⟩
  · unfold Table.write
    split
    · exact Table.rising_filter m k 0 h.1
    · exact Table.rising_insert _ k 0 v (by omega) (by simp) (Table.rising_filter m k 0 h.1)
  · rcases Table.mem_write dflt m k v c hc with ⟨rfl, hv⟩ | ⟨hm, -⟩
    · exact hv
    · exact h.2 c hm

theorem Table.rising_le (m : Table α) (lo : Nat) (h : Table.rising lo m = true) (c : Nat × α) (hc : c ∈ m) :
    lo ≤ c.1 := by
  induction m generalizing lo with
  | nil => simp at hc
  | cons d m ih =>
    simp only [Table.rising, Bool.and_eq_true, decide_eq_true_eq] at h
    rcases List.mem_cons.1 hc with rfl | hc
    · exact h.1
    · have := ih _ h.2 hc; omega

theorem Table.read_of_mem (dflt : Nat → α) (m : Table α) (lo : Nat) (h : Table.rising lo m = true) (c : Nat × α)
    (hc : c ∈ m) : Table.read dflt m c.1 = c.2 := by
  induction m generalizing lo with
  | nil => simp at hc
  | cons d m ih =>
    simp only [Table.rising, Bool.and_eq_true, decide_eq_true_eq] at h
    rcases List.mem_cons.1 hc with rfl | hc
    · simp [Table.read_cons]
    · have := Table.rising_le m _ h.2 c hc
      simp [Table.read_cons, show d.1 ≠ c.1 by omega, ih _ h.2 hc]

theorem Table.read_lt (dflt : Nat → α) (m : Table α) (lo k : Nat) (h : Table.rising lo m = true) (hk : k < lo) :
    Table.read dflt m k = dflt k := by
  induction m generalizing lo with
  | nil => rfl
  | cons d m ih =>
    simp only [Table.rising, Bool.and_eq_true, decide_eq_true_eq] at h
    simp [Table.read_cons, show d.1 ≠ k by omega, ih _ h.2 (by omega)]

theorem Table.eq_of_rising [DecidableEq α] (dflt : Nat → α) (m n : Table α) (lo : Nat)
    (hm : Table.rising lo m = true) (hn : Table.rising lo n = true)
    (am : ∀ c ∈ m, c.2 ≠ dflt c.1) (an : ∀ c ∈ n, c.2 ≠ dflt c.1)
    (h : ∀ k, Table.read dflt m k = Table.read dflt n k) : m = n := by
  induction m generalizing n lo with
  | nil =>
    cases n with
    | nil => rfl
    | cons d n => exact absurd ((h d.1).symm.trans rfl) (by simpa [Table.read_cons] using an d (by simp))
  | cons c m ih =>
    simp only [Table.rising, Bool.and_eq_true, decide_eq_true_eq] at hm
    cases n with
    | nil => exact absurd (h c.1) (by simpa [Table.read_cons] using am c (by simp))
    | cons d n =>
      simp only [Table.rising, Bool.and_eq_true, decide_eq_true_eq] at hn
      have key : c.1 = d.1 := by
        rcases Nat.lt_trichotomy c.1 d.1 with hlt | heq | hlt
        · have := h c.1
          rw [Table.read_cons, if_pos rfl, Table.read_cons, if_neg (by omega),
            Table.read_lt dflt n _ c.1 hn.2 (by omega)] at this
          exact absurd this (am c (by simp))
        · exact heq
        · have := h d.1
          rw [Table.read_cons, if_neg (by omega), Table.read_lt dflt m _ d.1 hm.2 (by omega), Table.read_cons,
            if_pos rfl] at this
          exact absurd this.symm (an d (by simp))
      have hv : c.2 = d.2 := by simpa [Table.read_cons, key] using h c.1
      have hcd : c = d := Prod.ext key hv
      subst hcd
      refine congrArg _ (ih n (c.1 + 1) hm.2 hn.2 (fun e he => am e (by simp [he])) (fun e he => an e (by simp [he])) ?_)
      intro k
      by_cases hk : c.1 = k
      · subst hk
        rw [Table.read_lt dflt m _ c.1 hm.2 (by omega), Table.read_lt dflt n _ c.1 hn.2 (by omega)]
      · simpa [Table.read_cons, hk] using h k

/-- Equal contents are equal data: two tables in canonical form that read alike everywhere are the same list. -/
theorem Table.ext_of_wf [DecidableEq α] (dflt : Nat → α) (m n : Table α) (hm : Table.wf dflt m = true)
    (hn : Table.wf dflt n = true) (h : ∀ k, Table.read dflt m k = Table.read dflt n k) : m = n := by
  simp only [Table.wf, Bool.and_eq_true, List.all_eq_true, decide_eq_true_eq] at hm hn
  exact Table.eq_of_rising dflt m n 0 hm.1 hn.1 hm.2 hn.2 h

/-- Two writes to one index: the second decides. -/
theorem Table.write_write [DecidableEq α] (dflt : Nat → α) (m : Table α) (k : Nat) (v w : α) (h : Table.wf dflt m = true) :
    Table.write dflt (Table.write dflt m k v) k w = Table.write dflt m k w := by
  refine Table.ext_of_wf dflt _ _ (Table.wf_write _ _ _ _ (Table.wf_write _ _ _ _ h)) (Table.wf_write _ _ _ _ h) ?_
  intro j
  by_cases hj : j = k <;> simp [Table.read_write, hj]

/-- A read of PBUF after a write (R14). -/
theorem Memory.read_write (c : Cfg) (m : Memory) (a a' : Nat) (b : Byte) :
    Memory.read c (Memory.write c m a b) a' = if a' = a then b else Memory.read c m a' :=
  Table.read_write c.initByte m a a' b

/-- A write to PBUF keeps its canonical form. -/
theorem Memory.wf_write (c : Cfg) (m : Memory) (a : Nat) (b : Byte) (h : Memory.wf c m = true) :
    Memory.wf c (Memory.write c m a b) = true := Table.wf_write c.initByte m a b h

/-- Nothing listed: PBUF holds INITIMG (R30). -/
@[simp] theorem Memory.read_nil (c : Cfg) (a : Nat) : Memory.read c [] a = c.initByte a := rfl

/-- The reset PBUF is in canonical form. -/
@[simp] theorem Memory.wf_nil (c : Cfg) : Memory.wf c [] = true := rfl

end Sys2Proof.Machine
end

