-- ==== Sys2Proof/Laws/Ops.lean ====
section
/-! SUPPORT. For each shared operation, what it can do, said once: reads after the named writes, `complete` and `raise`,
`pushEvent`, and the checks of R100. -/

namespace Sys2Proof.Machine

/-! ### Reads after writes -/

theorem State.byteAt_setByte (s : State) (a a' : Nat) (b : Byte) :
    (s.setByte a b).byteAt a' = if a' = a then b else s.byteAt a' := Memory.read_write s.cfg s.pbuf a a' b

theorem State.dynlenAt_setDynlen (s : State) (i j : Nat) (v : Half) :
    (s.setDynlen i v).dynlenAt j = if j = i then v else s.dynlenAt j := Table.read_write _ s.dynlen i j v

theorem State.fstAt_setFst (s : State) (f g : Nat) (v : FiltState) :
    (s.setFst f v).fstAt g = if g = f then v else s.fstAt g := Table.read_write _ s.fst f g v

theorem State.dmAt_setDm (s : State) (k j : Nat) (v : DmSlot) :
    (s.setDm k v).dmAt j = if j = k then v else s.dmAt j := Table.read_write _ s.dm k j v

theorem State.nowAt_setNow (s : State) (d e : Nat) (v : Tick) :
    (s.setNow d v).nowAt e = if e = d then v else s.nowAt e := Table.read_write _ s.now d e v

@[simp] theorem State.port_setPort_same (s : State) (p : PortId) (x : Port) : (s.setPort p x).port p = x := by
  cases p <;> rfl

theorem State.port_setPort_other (s : State) (p q : PortId) (x : Port) (h : q ≠ p) :
    (s.setPort p x).port q = s.port q := by
  cases p <;> cases q <;> first | rfl | exact absurd rfl h

theorem State.host_setHost (s : State) (h j : HostId) (x : HostAgent) :
    (s.setHost h x).host j = if j = h then x else s.host j := by
  cases h <;> cases j <;> rfl

/-! ### Reads that a write does not touch -/

@[simp] theorem State.byteAt_setPort (s : State) (p : PortId) (x : Port) (a : Nat) :
    (s.setPort p x).byteAt a = s.byteAt a := rfl
@[simp] theorem State.byteAt_setDynlen (s : State) (i : Nat) (v : Half) (a : Nat) :
    (s.setDynlen i v).byteAt a = s.byteAt a := rfl
@[simp] theorem State.byteAt_setFst (s : State) (f : Nat) (v : FiltState) (a : Nat) :
    (s.setFst f v).byteAt a = s.byteAt a := rfl
@[simp] theorem State.byteAt_setDm (s : State) (k : Nat) (v : DmSlot) (a : Nat) :
    (s.setDm k v).byteAt a = s.byteAt a := rfl
@[simp] theorem State.byteAt_setNow (s : State) (d : Nat) (v : Tick) (a : Nat) :
    (s.setNow d v).byteAt a = s.byteAt a := rfl
@[simp] theorem State.byteAt_complete (s : State) (r : Word64) (b : Bool) (a : Nat) :
    (s.complete r b).byteAt a = s.byteAt a := rfl
@[simp] theorem State.byteAt_raise (s : State) (e : StatusCode) (a : Nat) : (s.raise e).byteAt a = s.byteAt a := rfl
@[simp] theorem State.fstAt_complete (s : State) (r : Word64) (b : Bool) (f : Nat) :
    (s.complete r b).fstAt f = s.fstAt f := rfl
@[simp] theorem State.dmAt_complete (s : State) (r : Word64) (b : Bool) (k : Nat) :
    (s.complete r b).dmAt k = s.dmAt k := rfl
@[simp] theorem State.nowAt_complete (s : State) (r : Word64) (b : Bool) (d : Nat) :
    (s.complete r b).nowAt d = s.nowAt d := rfl
@[simp] theorem State.dynlenAt_complete (s : State) (r : Word64) (b : Bool) (i : Nat) :
    (s.complete r b).dynlenAt i = s.dynlenAt i := rfl
@[simp] theorem State.dmAt_setNow (s : State) (d : Nat) (v : Tick) (k : Nat) : (s.setNow d v).dmAt k = s.dmAt k := rfl
@[simp] theorem State.nowAt_setDm (s : State) (k : Nat) (v : DmSlot) (d : Nat) : (s.setDm k v).nowAt d = s.nowAt d := rfl
@[simp] theorem State.operand_setByte (s : State) (a : Nat) (b : Byte) : (s.setByte a b).operand = s.operand := rfl

/-! ### One bit of PBUF -/

theorem getLsbD_setBit (b : Byte) (j i : Nat) (v : Bool) (hj : j < 8) :
    (setBit b j v).getLsbD i = if i = j then v else b.getLsbD i := by
  unfold setBit
  by_cases hi : i < 8
  · cases v <;> by_cases hij : i = j <;> simp [hi, hij, hj]
    all_goals omega
  · have hb : ∀ c : Byte, c.getLsbD i = false := fun c => BitVec.getLsbD_of_ge c i (by omega)
    rw [if_neg (show ¬ i = j by omega), hb, hb]

/-- Writing one bit replaces that bit and keeps every other (R14, R127). -/
theorem State.bitAt_setBitAt (s : State) (k j : Nat) (v : Bool) :
    (s.setBitAt k v).bitAt j = if j = k then v else s.bitAt j := by
  unfold State.bitAt State.setBitAt
  rw [State.byteAt_setByte]
  by_cases h : j / 8 = k / 8
  · rw [if_pos h, getLsbD_setBit _ _ _ _ (Nat.mod_lt _ (by omega))]
    by_cases hm : j % 8 = k % 8
    · rw [if_pos hm, if_pos (by omega)]
    · rw [if_neg hm, if_neg (by omega), h]
  · rw [if_neg h, if_neg (by intro e; exact h (by rw [e]))]

/-- A byte of PBUF is its eight bits. -/
theorem State.byteAt_eq_of_bitAt (s t : State) (a b : Nat) (h : ∀ j < 8, s.bitAt (8 * a + j) = t.bitAt (8 * b + j)) :
    s.byteAt a = t.byteAt b := by
  apply BitVec.eq_of_getLsbD_eq
  intro j hj
  have := h j hj
  unfold State.bitAt at this
  rwa [show (8 * a + j) / 8 = a by omega, show (8 * a + j) % 8 = j by omega, show (8 * b + j) / 8 = b by omega,
    show (8 * b + j) % 8 = j by omega] at this

/-! ### Canonical form -/

/-- Every write to PBUF keeps its canonical form: a byte, a bit, a run of bytes. -/
theorem State.wf_setByte (s : State) (a : Nat) (b : Byte) (h : Memory.wf s.cfg s.pbuf = true) :
    Memory.wf (s.setByte a b).cfg (s.setByte a b).pbuf = true := Memory.wf_write s.cfg s.pbuf a b h

theorem State.wf_setBitAt (s : State) (k : Nat) (v : Bool) (h : Memory.wf s.cfg s.pbuf = true) :
    Memory.wf (s.setBitAt k v).cfg (s.setBitAt k v).pbuf = true := State.wf_setByte s _ _ h

theorem State.wf_memWrite (s : State) (a : Nat) (bs : List Byte) (h : Memory.wf s.cfg s.pbuf = true) :
    Memory.wf (s.memWrite a bs).cfg (s.memWrite a bs).pbuf = true := by
  induction bs generalizing s a with
  | nil => exact h
  | cons b bs ih => exact ih _ _ (State.wf_setByte s a b h)

/-! ### How a command ends -/

/-- `complete(res)` on the executing port (R16). -/
theorem State.port_complete (s : State) (r : Word64) (b : Bool) :
    (s.complete r b).port s.cur = { s.port s.cur with res := r, code := .ok, busy := false, sub := b } :=
  State.port_setPort_same s s.cur _

/-- `complete` leaves the other port alone. -/
theorem State.port_complete_other (s : State) (r : Word64) (b : Bool) (q : PortId) (h : q ≠ s.cur) :
    (s.complete r b).port q = s.port q := State.port_setPort_other s s.cur q _ h

/-- `raise Err(code)` on the executing port: RES is kept (R15, R302). -/
theorem State.port_raise (s : State) (e : StatusCode) :
    (s.raise e).port s.cur = { s.port s.cur with code := e, busy := false, sub := false } :=
  State.port_setPort_same s s.cur _

/-- `raise` leaves the other port alone. -/
theorem State.port_raise_other (s : State) (e : StatusCode) (q : PortId) (h : q ≠ s.cur) :
    (s.raise e).port q = s.port q := State.port_setPort_other s s.cur q _ h

/-! ### The checks of R100 -/

/-- What the configuration guard can answer (R9). -/
theorem State.guarded_cases (s : State) (r : Result) :
    (s.cfg.wf = true ∧ s.guarded r = r) ∨ (s.cfg.wf = false ∧ s.guarded r = .refused .illFormedConfig) := by
  unfold State.guarded
  cases s.cfg.wf <;> simp

@[simp] theorem State.guarded_of_wf (s : State) (r : Result) (h : s.cfg.wf = true) : s.guarded r = r := by
  simp [State.guarded, h]

/-- A guarded step that goes on ran under a well-formed configuration (R9). -/
theorem State.guarded_eq_next (s t : State) (r : Result) (h : s.guarded r = .next t) :
    s.cfg.wf = true ∧ r = .next t := by
  rcases State.guarded_cases s r with ⟨hw, he⟩ | ⟨-, he⟩
  · exact ⟨hw, he ▸ h⟩
  · rw [he] at h; cases h

@[simp] theorem State.indexed_none {α : Type} (s : State) (k : α → Result) :
    s.indexed none k = .next (s.raise .errIndex) := rfl

@[simp] theorem State.indexed_some {α : Type} (s : State) (x : α) (k : α → Result) : s.indexed (some x) k = k x := rfl

/-- What the index check can answer (R100 step 3). -/
theorem State.indexed_eq_next {α : Type} (s t : State) (o : Option α) (k : α → Result) (h : s.indexed o k = .next t) :
    (o = none ∧ t = s.raise .errIndex) ∨ (∃ x, o = some x ∧ k x = .next t) := by
  cases o with
  | none => exact .inl ⟨rfl, by simpa using h.symm⟩
  | some x => exact .inr ⟨x, rfl, h⟩

@[simp] theorem State.require_true (s : State) (e : StatusCode) (r : Result) : s.require true e r = r := rfl

@[simp] theorem State.require_false (s : State) (e : StatusCode) (r : Result) :
    s.require false e r = .next (s.raise e) := rfl

/-- What a further check can answer (R100 steps 3 to 6). -/
theorem State.require_eq_next (s t : State) (ok : Bool) (e : StatusCode) (r : Result) (h : s.require ok e r = .next t) :
    (ok = false ∧ t = s.raise e) ∨ (ok = true ∧ r = .next t) := by
  cases ok with
  | false => exact .inl ⟨rfl, by simpa using h.symm⟩
  | true => exact .inr ⟨rfl, h⟩

/-! ### Events -/

/-- All `push_event` can do: append the new event, or set OVF when the FIFO is full (R221). -/
theorem State.pushEvent_cases (s : State) (t : EventType) (k : Nat) :
    (s.evq.length < Config.evqDepth ∧ s.pushEvent t k = { s with evq := s.evq ++ [s.eventOf t k] }) ∨
    (Config.evqDepth ≤ s.evq.length ∧ s.pushEvent t k = { s with ovf := true }) := by
  unfold State.pushEvent
  split
  · next h => exact .inl ⟨h, rfl⟩
  · next h => exact .inr ⟨by omega, rfl⟩

/-- The FIFO and OVF aside, `push_event` changes nothing (R221). -/
theorem State.pushEvent_frame (s : State) (t : EventType) (k : Nat) :
    ∃ q o, s.pushEvent t k = { s with evq := q, ovf := o } := by
  rcases State.pushEvent_cases s t k with ⟨-, h⟩ | ⟨-, h⟩
  · exact ⟨_, s.ovf, h⟩
  · exact ⟨s.evq, true, h⟩

/-- The FIFO never grows past its capacity (R35, R221). -/
theorem State.pushEvent_bound (s : State) (t : EventType) (k : Nat) (h : s.evq.length ≤ Config.evqDepth) :
    (s.pushEvent t k).evq.length ≤ Config.evqDepth := by
  rcases State.pushEvent_cases s t k with ⟨hl, he⟩ | ⟨-, he⟩
  · rw [he]; simp only [List.length_append, List.length_cons, List.length_nil]; omega
  · rw [he]; exact h

end Sys2Proof.Machine
end

