-- ==== Sys2Proof/Laws/Codec.lean ====
section
/-! SUPPORT. The codec functions, each said once (R121 to R128, 40_codec.md): the bits of an extraction, the bits an insertion
leaves, and the bytes a byte transfer leaves. -/

namespace Sys2Proof.Machine

/-! ### Addresses -/

/-- The MSB-first index is its own inverse (R123). -/
@[simp] theorem msbIndex_msbIndex (k : Nat) : msbIndex (msbIndex k) = k := by
  unfold msbIndex; omega

theorem msbIndex_injective (j k : Nat) (h : msbIndex j = msbIndex k) : j = k := by
  rw [← msbIndex_msbIndex j, h, msbIndex_msbIndex]

/-- Different bits of one field stand at different addresses (R122, R123). -/
theorem bitAddr_injective (e : Endian) (pos size i j : Nat) (hi : i < size) (hj : j < size)
    (h : bitAddr e pos size i = bitAddr e pos size j) : i = j := by
  cases e with
  | le => simp only [bitAddr] at h; omega
  | be =>
    have := msbIndex_injective _ _ h
    omega

/-- A field that fits its region has every bit inside it (R124). -/
theorem bitAddr_lt_of_fits (r : Region) (e : Endian) (pos size i : Nat) (hi : i < size)
    (h : r.fits e pos size = true) : bitAddr e pos size i < r.bits := by
  have h : fieldStart e pos + size ≤ 8 * r.size := of_decide_eq_true h
  unfold Region.bits
  cases e with
  | le => simp only [fieldStart, bitAddr] at *; omega
  | be => simp only [fieldStart, bitAddr, msbIndex] at *; omega

/-! ### Extraction -/

theorem gather_lt (bit : Nat → Bool) (n : Nat) : gather bit n < 2 ^ n := by
  induction n with
  | zero => simp [gather]
  | succ n ih => simp only [gather, Nat.pow_succ]; split <;> omega

/-- Bit i of the sum is bit i of the field (R126). -/
theorem testBit_gather (bit : Nat → Bool) (n i : Nat) : (gather bit n).testBit i = (decide (i < n) && bit i) := by
  induction n with
  | zero => simp [gather]
  | succ n ih =>
    have hlt := gather_lt bit n
    by_cases hb : bit n
    · rw [gather, if_pos hb, Nat.add_comm]
      by_cases hin : i = n
      · subst hin
        rw [Nat.testBit_two_pow_add_eq, ih]; simp [hb]
      · rcases Nat.lt_or_gt_of_ne hin with h | h
        · rw [Nat.testBit_two_pow_add_gt h, ih]; simp [h, show i < n + 1 by omega]
        · rw [Nat.testBit_lt_two_pow (Nat.lt_of_lt_of_le (show 2 ^ n + gather bit n < 2 ^ (n + 1) by
            rw [Nat.pow_succ]; omega) (Nat.pow_le_pow_right (by omega) h))]
          simp [show ¬ i < n + 1 by omega]
    · rw [gather, if_neg hb, Nat.add_zero, ih]
      by_cases hin : i = n
      · subst hin; simp [hb]
      · simp [show i < n + 1 ↔ i < n by omega]

/-- The bits of an extracted field: bit i is the PBUF bit at its address, and the bits from `size` on are 0 (R126). -/
theorem State.getLsbD_extract (s : State) (r : Region) (e : Endian) (pos size i : Nat) (hs : size ≤ 64) :
    (s.extract r e pos size).getLsbD i = (decide (i < size) && s.bitAt (r.bit (bitAddr e pos size i))) := by
  unfold State.extract
  rw [BitVec.getLsbD_ofNat, testBit_gather]
  by_cases hi : i < size <;> simp [hi]
  omega

/-- The bits of a field extracted from INITIMG (R126). -/
theorem State.getLsbD_extractInit (s : State) (r : Region) (e : Endian) (pos size i : Nat) (hs : size ≤ 64) :
    (s.extractInit r e pos size).getLsbD i = (decide (i < size) && s.cfg.initBit (r.bit (bitAddr e pos size i))) := by
  unfold State.extractInit
  rw [BitVec.getLsbD_ofNat, testBit_gather]
  by_cases hi : i < size <;> simp [hi]
  omega

theorem getLsbD_trunc (size i : Nat) (v : Word64) (hs : size ≤ 64) :
    (trunc size v).getLsbD i = (decide (i < size) && v.getLsbD i) := by
  unfold trunc
  rw [BitVec.getLsbD_and, BitVec.getLsbD_ofNat, Nat.testBit_two_pow_sub_one]
  by_cases hi : i < size
  · simp [hi, show i < 64 by omega]
  · simp [hi]

/-! ### Insertion -/

theorem State.insertBits_frame (s : State) (r : Region) (e : Endian) (pos size : Nat) (f : Word64) (n : Nat) :
    ∃ m, s.insertBits r e pos size f n = { s with pbuf := m } := by
  induction n with
  | zero => exact ⟨s.pbuf, rfl⟩
  | succ n ih =>
    obtain ⟨m, hm⟩ := ih
    exact ⟨_, by simp only [State.insertBits, hm, State.setBitAt, State.setByte]; rfl⟩

/-- An insertion changes PBUF and nothing else (R127). -/
theorem State.insert_frame (s : State) (r : Region) (e : Endian) (pos size : Nat) (f : Word64) :
    ∃ m, s.insert r e pos size f = { s with pbuf := m } := State.insertBits_frame s r e pos size f size

theorem State.bitAt_insertBits_other (s : State) (r : Region) (e : Endian) (pos size : Nat) (f : Word64) (n k : Nat)
    (h : ∀ i < n, k ≠ r.bit (bitAddr e pos size i)) : (s.insertBits r e pos size f n).bitAt k = s.bitAt k := by
  induction n with
  | zero => rfl
  | succ n ih =>
    rw [State.insertBits, State.bitAt_setBitAt, if_neg (h n (by omega)), ih fun i hi => h i (by omega)]

theorem State.bitAt_insertBits_field (s : State) (r : Region) (e : Endian) (pos size : Nat) (f : Word64) (n i : Nat)
    (hn : n ≤ size) (hi : i < n) :
    (s.insertBits r e pos size f n).bitAt (r.bit (bitAddr e pos size i)) = f.getLsbD i := by
  induction n with
  | zero => omega
  | succ n ih =>
    rw [State.insertBits, State.bitAt_setBitAt]
    by_cases hin : i = n
    · subst hin; simp
    · rw [if_neg, ih (by omega) (by omega)]
      intro h
      have : bitAddr e pos size i = bitAddr e pos size n := by unfold Region.bit at h; omega
      exact hin (bitAddr_injective e pos size i n (by omega) (by omega) this)

/-- An insertion leaves every bit outside the field as it was (R127). -/
theorem State.bitAt_insert_other (s : State) (r : Region) (e : Endian) (pos size : Nat) (f : Word64) (k : Nat)
    (h : ∀ i < size, k ≠ r.bit (bitAddr e pos size i)) : (s.insert r e pos size f).bitAt k = s.bitAt k :=
  State.bitAt_insertBits_other s r e pos size f size k h

/-- An insertion leaves field bit i at its address (R127). -/
theorem State.bitAt_insert_field (s : State) (r : Region) (e : Endian) (pos size : Nat) (f : Word64) (i : Nat)
    (hi : i < size) : (s.insert r e pos size f).bitAt (r.bit (bitAddr e pos size i)) = f.getLsbD i :=
  State.bitAt_insertBits_field s r e pos size f size i (Nat.le_refl _) hi

/-! ### Byte transfers -/

theorem State.memWrite_frame (s : State) (a : Nat) (bs : List Byte) : ∃ m, s.memWrite a bs = { s with pbuf := m } := by
  induction bs generalizing s a with
  | nil => exact ⟨s.pbuf, rfl⟩
  | cons b bs ih =>
    obtain ⟨m, hm⟩ := ih (s.setByte a b) (a + 1)
    exact ⟨m, by rw [State.memWrite, hm]; rfl⟩

/-- The bytes after a byte write: the list at its addresses, and every other byte as it was (R14). -/
theorem State.byteAt_memWrite (s : State) (a : Nat) (bs : List Byte) (k : Nat) :
    (s.memWrite a bs).byteAt k = if h : a ≤ k ∧ k - a < bs.length then bs[k - a]'h.2 else s.byteAt k := by
  induction bs generalizing s a with
  | nil => simp [State.memWrite]
  | cons b bs ih =>
    rw [State.memWrite, ih, State.byteAt_setByte]
    by_cases hk : k = a
    · subst hk; simp
    · by_cases h : a ≤ k ∧ k - a < (b :: bs).length
      · have h' : a + 1 ≤ k ∧ k - (a + 1) < bs.length := by
          simp only [List.length_cons] at h; omega
        rw [dif_pos h, dif_pos h']
        have : k - a = k - (a + 1) + 1 := by omega
        simp [this]
      · have h' : ¬(a + 1 ≤ k ∧ k - (a + 1) < bs.length) := by
          simp only [List.length_cons] at h; omega
        rw [dif_neg h, dif_neg h', if_neg hk]

@[simp] theorem length_unpackBytes (n : Nat) (v : Word64) : (unpackBytes n v).length = n := by simp [unpackBytes]

@[simp] theorem State.length_memRead (s : State) (a n : Nat) : (s.memRead a n).length = n := by simp [State.memRead]

end Sys2Proof.Machine
end

