-- ==== Sys2Proof/Laws/Deadline.lean ====
section
/-! SUPPORT. The shared operations of the deadline monitor, each said once (43_deadline.md): the expiry of a slot (R230) and the
scan of the slots on a TICK (R228, R229, R231). -/

namespace Sys2Proof.Machine

/-- `push_event` leaves the deadline slots alone (R221). -/
@[simp] theorem State.dmAt_pushEvent (s : State) (t : EventType) (k j : Nat) : (s.pushEvent t k).dmAt j = s.dmAt j := by
  obtain ⟨q, o, h⟩ := State.pushEvent_frame s t k
  rw [h]; rfl

@[simp] theorem State.nowAt_pushEvent (s : State) (t : EventType) (k d : Nat) : (s.pushEvent t k).nowAt d = s.nowAt d := by
  obtain ⟨q, o, h⟩ := State.pushEvent_frame s t k
  rw [h]; rfl

@[simp] theorem State.cfg_pushEvent (s : State) (t : EventType) (k : Nat) : (s.pushEvent t k).cfg = s.cfg := by
  obtain ⟨q, o, h⟩ := State.pushEvent_frame s t k
  rw [h]

/-- The expiry of a slot writes that slot and the FIFO (R230, R234). -/
theorem State.expire_frame (s : State) (k : Nat) : ∃ ds q o, s.expire k = { s with dm := ds, evq := q, ovf := o } := by
  obtain ⟨q, o, h⟩ := State.pushEvent_frame (s.setDm k { s.dmAt k with run := false, timeout := true })
    (expiryType (s.cfg.slot k)) k
  exact ⟨_, q, o, h⟩

/-- The slots after an expiry (R230). -/
theorem State.dmAt_expire (s : State) (k j : Nat) :
    (s.expire k).dmAt j = if j = k then { s.dmAt k with run := false, timeout := true } else s.dmAt j := by
  rw [State.expire, State.dmAt_pushEvent, State.dmAt_setDm]

/-- The scan of a TICK writes the slots and the FIFO, and nothing else (R231). -/
theorem State.scanSlots_frame (s : State) (d n : Nat) :
    ∃ ds q o, (s.scanSlots d n).1 = { s with dm := ds, evq := q, ovf := o } := by
  induction n with
  | zero => exact ⟨s.dm, s.evq, s.ovf, rfl⟩
  | succ n ih =>
    obtain ⟨ds, q, o, h⟩ := ih
    simp only [State.scanSlots]
    split
    · obtain ⟨ds', q', o', h'⟩ := State.expire_frame (s.scanSlots d n).1 n
      exact ⟨ds', q', o', by rw [h', h]⟩
    · exact ⟨ds, q, o, h⟩

theorem State.cfg_scanSlots (s : State) (d n : Nat) : (s.scanSlots d n).1.cfg = s.cfg := by
  obtain ⟨ds, q, o, h⟩ := State.scanSlots_frame s d n
  rw [h]

theorem State.nowAt_scanSlots (s : State) (d n e : Nat) : (s.scanSlots d n).1.nowAt e = s.nowAt e := by
  obtain ⟨ds, q, o, h⟩ := State.scanSlots_frame s d n
  rw [h]; rfl

/-- The slots after the scan of slots 0..n-1: exactly the expiring ones below n are stopped and timed out (R228, R230). -/
theorem State.dmAt_scanSlots (s : State) (d n j : Nat) :
    (s.scanSlots d n).1.dmAt j =
      if j < n ∧ s.expires d j = true then { s.dmAt j with run := false, timeout := true } else s.dmAt j := by
  induction n generalizing j with
  | zero => simp [State.scanSlots]
  | succ n ih =>
    have he : (s.scanSlots d n).1.expires d n = s.expires d n := by
      unfold State.expires
      rw [State.cfg_scanSlots, State.nowAt_scanSlots, ih n, if_neg (by omega)]
    simp only [State.scanSlots, he]
    by_cases hx : s.expires d n = true
    · rw [if_pos hx, State.dmAt_expire, ih j, ih n, if_neg (show ¬(n < n ∧ s.expires d n = true) by omega)]
      by_cases hj : j = n
      · subst hj; simp [hx]
      · rw [if_neg hj]
        simp only [show j < n + 1 ↔ j < n by omega]
    · rw [if_neg hx, ih j]
      by_cases hj : j = n
      · subst hj; simp [hx]
      · simp only [show j < n + 1 ↔ j < n by omega]

/-- The number of slots that the scan of slots 0..n-1 expires (R231). -/
theorem State.scanSlots_count (s : State) (d n : Nat) :
    (s.scanSlots d n).2 = ((List.range n).filter (s.expires d)).length := by
  induction n with
  | zero => rfl
  | succ n ih =>
    have he : (s.scanSlots d n).1.expires d n = s.expires d n := by
      unfold State.expires
      rw [State.cfg_scanSlots, State.nowAt_scanSlots, State.dmAt_scanSlots, if_neg (by omega)]
    simp only [State.scanSlots, he, List.range_succ, List.filter_append, List.length_append]
    by_cases hx : s.expires d n = true <;> simp [hx, ih]

end Sys2Proof.Machine
end

