-- ==== Sys2Proof/Laws/Signal.lean ====
section
/-! SUPPORT. The shared operations of the signal, group and filter commands, each said once (41_signal.md, 42_filter.md): byte
packing (R70), the update bit (R165), the copies of a group (R168, R169) and the filter step (R192). -/

namespace Sys2Proof.Machine

/-! ### Byte packing -/

/-- The bits of packed bytes: bit i is bit `i % 8` of byte `i / 8` (R70). -/
theorem getLsbD_packBytes (bs : List Byte) (i : Nat) (h : bs.length ≤ 8) :
    (packBytes bs).getLsbD i = (bs.getD (i / 8) 0).getLsbD (i % 8) := by
  induction bs generalizing i with
  | nil => simp [packBytes]
  | cons b bs ih =>
    have hl : bs.length ≤ 8 := by simp only [List.length_cons] at h; omega
    rw [packBytes, BitVec.getLsbD_or, BitVec.getLsbD_shiftLeft, BitVec.getLsbD_setWidth]
    by_cases hi : i < 8
    · have : i / 8 = 0 := by omega
      simp [hi, this, show i % 8 = i by omega, show i < 64 by omega]
    · rw [ih (i - 8) hl]
      have h1 : i / 8 = (i - 8) / 8 + 1 := by omega
      have h2 : (i - 8) % 8 = i % 8 := by omega
      have h3 : b.getLsbD i = false := BitVec.getLsbD_of_ge b i (by omega)
      rw [h1, h2, h3]
      by_cases h64 : i < 64
      · simp [hi, h64]
      · have : bs.length ≤ (i - 8) / 8 := by simp only [List.length_cons] at h; omega
        simp [h64, List.getElem?_eq_none this]

/-- Byte k of packed bytes is the k-th byte of the list (R70). -/
theorem extractLsb'_packBytes (bs : List Byte) (k : Nat) (h : bs.length ≤ 8) :
    (packBytes bs).extractLsb' (8 * k) 8 = bs.getD k 0 := by
  apply BitVec.eq_of_getLsbD_eq
  intro i hi
  rw [BitVec.getLsbD_extractLsb', getLsbD_packBytes bs _ h]
  simp [hi, show (8 * k + i) / 8 = k by omega, show (8 * k + i) % 8 = i by omega]

/-! ### The update bit -/

/-- Setting an update bit changes PBUF and nothing else (R165). -/
theorem State.setUpdateBit_frame (s : State) (reg : Nat) (ub : Option Nat) :
    ∃ m, s.setUpdateBit reg ub = { s with pbuf := m } := by
  cases ub with
  | none => exact ⟨s.pbuf, rfl⟩
  | some u => exact ⟨_, rfl⟩

/-- The bits after setting an update bit: that bit is 1, every other as it was (R165). -/
theorem State.bitAt_setUpdateBit (s : State) (reg : Nat) (ub : Option Nat) (j : Nat) :
    (s.setUpdateBit reg ub).bitAt j =
      (decide (∃ u, ub = some u ∧ j = (s.cfg.region reg).bit u) || s.bitAt j) := by
  cases ub with
  | none => simp [State.setUpdateBit]
  | some u =>
    rw [State.setUpdateBit, State.bitAt_setBitAt]
    by_cases h : j = (s.cfg.region reg).bit u <;> simp [h]

/-! ### The copies of a group -/

theorem State.commitBytes_frame (s : State) (g : GrpDesc) (pb sb n : Nat) :
    ∃ m, (s.commitBytes g pb sb n).1 = { s with pbuf := m } := by
  induction n with
  | zero => exact ⟨s.pbuf, rfl⟩
  | succ n ih =>
    obtain ⟨m, hm⟩ := ih
    exact ⟨_, by simp only [State.commitBytes, hm, State.setByte]; rfl⟩

/-- The bytes that GRP_COMMIT leaves: each byte of the group merged with its shadow byte under the mask, every other byte as it
was, when shadow and group do not overlap (R168). -/
theorem State.byteAt_commitBytes (s : State) (g : GrpDesc) (pb sb n a : Nat)
    (hd : sb + n ≤ pb ∨ pb + n ≤ sb) :
    (s.commitBytes g pb sb n).1.byteAt a =
      if pb ≤ a ∧ a < pb + n then mergeByte (s.byteAt a) (s.byteAt (sb + (a - pb))) (maskByte g (a - pb))
      else s.byteAt a := by
  induction n generalizing a with
  | zero => rw [if_neg (by omega)]; rfl
  | succ n ih =>
    have ih := fun a => ih a (by omega)
    have hp : (s.commitBytes g pb sb n).1.byteAt (pb + n) = s.byteAt (pb + n) := by rw [ih, if_neg (by omega)]
    have hs : (s.commitBytes g pb sb n).1.byteAt (sb + n) = s.byteAt (sb + n) := by rw [ih, if_neg (by omega)]
    rw [State.commitBytes, State.byteAt_setByte, hp, hs]
    by_cases h : a = pb + n
    · subst h
      rw [if_pos rfl, if_pos (by omega), show pb + n - pb = n by omega]
    · rw [if_neg h, ih a]
      by_cases h' : pb ≤ a ∧ a < pb + n
      · rw [if_pos h', if_pos (by omega)]
      · rw [if_neg h', if_neg (by omega)]

/-- GRP_COMMIT reports a change exactly when some byte of the group changes (R168). -/
theorem State.commitBytes_changed (s : State) (g : GrpDesc) (pb sb n : Nat) (hd : sb + n ≤ pb ∨ pb + n ≤ sb) :
    (s.commitBytes g pb sb n).2 = true ↔
      ∃ k < n, mergeByte (s.byteAt (pb + k)) (s.byteAt (sb + k)) (maskByte g k) ≠ s.byteAt (pb + k) := by
  induction n with
  | zero => simp [State.commitBytes]
  | succ n ih =>
    have ih := ih (by omega)
    simp only [State.commitBytes, Bool.or_eq_true, decide_eq_true_eq, ih]
    rw [State.byteAt_commitBytes s g pb sb n _ (by omega), if_neg (by omega),
      State.byteAt_commitBytes s g pb sb n _ (by omega), if_neg (by omega)]
    constructor
    · rintro (⟨k, hk, h⟩ | h)
      · exact ⟨k, by omega, h⟩
      · exact ⟨n, by omega, h⟩
    · rintro ⟨k, hk, h⟩
      by_cases hkn : k = n
      · subst hkn; exact .inr h
      · exact .inl ⟨k, by omega, h⟩

theorem State.fetchBytes_frame (s : State) (pb sb n : Nat) : ∃ m, s.fetchBytes pb sb n = { s with pbuf := m } := by
  induction n with
  | zero => exact ⟨s.pbuf, rfl⟩
  | succ n ih =>
    obtain ⟨m, hm⟩ := ih
    exact ⟨_, by simp only [State.fetchBytes, hm, State.setByte]; rfl⟩

/-- The bytes that GRP_FETCH leaves: the group's bytes in the shadow, every other byte as it was, when shadow and group do not
overlap (R169). -/
theorem State.byteAt_fetchBytes (s : State) (pb sb n a : Nat) (hd : sb + n ≤ pb ∨ pb + n ≤ sb) :
    (s.fetchBytes pb sb n).byteAt a = if sb ≤ a ∧ a < sb + n then s.byteAt (pb + (a - sb)) else s.byteAt a := by
  induction n generalizing a with
  | zero => rw [if_neg (by omega)]; rfl
  | succ n ih =>
    have ih := fun a => ih a (by omega)
    have hp : (s.fetchBytes pb sb n).byteAt (pb + n) = s.byteAt (pb + n) := by rw [ih, if_neg (by omega)]
    rw [State.fetchBytes, State.byteAt_setByte, hp]
    by_cases h : a = sb + n
    · subst h
      rw [if_pos rfl, if_pos (by omega), show sb + n - sb = n by omega]
    · rw [if_neg h, ih a]
      by_cases h' : sb ≤ a ∧ a < sb + n
      · rw [if_pos h', if_pos (by omega)]
      · rw [if_neg h', if_neg (by omega)]

/-! ### Filters -/

/-- The filter step writes FST of its slot only (R192, R202). -/
theorem State.fstAt_filterStep (s : State) (f g : Nat) (v : Word64) :
    (s.filterStep f v).fstAt g = if g = f then filterNext (s.cfg.filt f) (s.fstAt f) v else s.fstAt g :=
  State.fstAt_setFst s f g _

theorem State.writeFilter_frame (s : State) (d : SigDesc) (dv : Word64) :
    ∃ fs, s.writeFilter d dv = { s with fst := fs } := by
  unfold State.writeFilter
  cases d.filt with
  | none => exact ⟨s.fst, rfl⟩
  | some f => exact ⟨_, rfl⟩

/-- A filter step keeps what a slot may hold: the counter of a divide-by-N slot stays below N (R32, R192). -/
theorem filterNext_cnt_lt (c : FiltCfg) (st : FiltState) (v : Word64) (h : st.cnt.toNat < c.n.toNat) :
    (filterNext c st v).cnt.toNat < c.n.toNat := by
  have hn := c.n.isLt
  have hm : (st.cnt.toNat + 1) % c.n.toNat < c.n.toNat := Nat.mod_lt _ (by omega)
  unfold filterNext
  split <;> first | exact h | skip
  simp only [BitVec.toNat_ofNat]
  rw [Nat.mod_eq_of_lt (by omega)]
  exact hm

end Sys2Proof.Machine
end

