-- ==== Sys2Proof/Laws/Exec.lean ====
section
/-! SUPPORT. What a command and a step can do, said once: a command ends with `raise` or with `complete` over the state files it
may write (R15, R16, R92), and a step is the agent step at the head of the schedule. -/

namespace Sys2Proof.Machine

/-- `s` with the state files that commands write replaced. -/
abbrev State.withFiles (s : State) (m : Memory) (dl : Table Half) (fs : Table FiltState) (ds : Table DmSlot)
    (ns : Table Tick) (q : List Event) (o : Bool) : State :=
  { s with pbuf := m, dynlen := dl, fst := fs, dm := ds, now := ns, evq := q, ovf := o }

/-- How a command can end (R15, R16): an error that is not OK, or a completion with new contents of the state files. -/
abbrev State.EndsCommand (s : State) (r : Result) : Prop :=
  (∃ e, e ≠ StatusCode.ok ∧ r = .next (s.raise e)) ∨
  (∃ m dl fs ds ns q o v b, r = .next ((s.withFiles m dl fs ds ns q o).complete v b))

theorem State.endsCommand_indexed {α : Type} (s : State) (x : Option α) (k : α → Result)
    (h : ∀ y, x = some y → s.EndsCommand (k y)) : s.EndsCommand (s.indexed x k) := by
  cases x with
  | none => exact .inl ⟨.errIndex, by decide, rfl⟩
  | some y => exact h y rfl

theorem State.endsCommand_require (s : State) (c : Bool) (e : StatusCode) (r : Result) (he : e ≠ .ok)
    (h : s.EndsCommand r) : s.EndsCommand (s.require c e r) := by
  cases c with
  | false => exact .inl ⟨e, he, rfl⟩
  | true => exact h

theorem State.endsCommand_complete (s t : State) (v : Word64) (b : Bool)
    (h : ∃ m dl fs ds ns q o, t = s.withFiles m dl fs ds ns q o) : s.EndsCommand (.next (t.complete v b)) := by
  obtain ⟨m, dl, fs, ds, ns, q, o, rfl⟩ := h
  exact .inr ⟨m, dl, fs, ds, ns, q, o, v, b, rfl⟩

theorem State.endsCommand_pbuf (s t : State) (v : Word64) (b : Bool) (h : ∃ m, t = { s with pbuf := m }) :
    s.EndsCommand (.next (t.complete v b)) := by
  obtain ⟨m, rfl⟩ := h
  exact State.endsCommand_complete s _ v b ⟨m, s.dynlen, s.fst, s.dm, s.now, s.evq, s.ovf, rfl⟩

theorem State.endsCommand_same (s : State) (v : Word64) (b : Bool) : s.EndsCommand (.next (s.complete v b)) :=
  State.endsCommand_pbuf s s v b ⟨s.pbuf, rfl⟩

theorem State.writeScalar_frame (s : State) (d : SigDesc) (v dv : Word64) :
    ∃ m fs, ((s.writeScalar d v).writeFilter d dv).setUpdateBit d.reg d.ub = { s with pbuf := m, fst := fs } := by
  obtain ⟨m0, h0⟩ := State.insert_frame s (s.cfg.region d.reg) d.endian d.pos d.size (encodeScalar d v)
  have h0 : s.writeScalar d v = { s with pbuf := m0 } := h0
  obtain ⟨fs, h1⟩ := State.writeFilter_frame (s.writeScalar d v) d dv
  obtain ⟨m, h2⟩ := State.setUpdateBit_frame ((s.writeScalar d v).writeFilter d dv) d.reg d.ub
  exact ⟨m, fs, by rw [h2, h1, h0]⟩

/-- Every command, under a well-formed configuration, ends in the step that performs it (R92). -/
theorem exec_ends (s : State) (i : Instr) (hw : s.cfg.wf = true) : s.EndsCommand (exec i s) := by
  have hg := fun r => State.guarded_of_wf s r hw
  cases i with
  | nop => rw [exec, execNop, hg]; exact State.endsCommand_same s _ _
  | fldRd x e z p r =>
    rw [exec, execFldRd, hg]
    refine State.endsCommand_indexed _ _ _ fun _ _ => State.endsCommand_require _ _ _ _ (by decide) ?_
    exact State.endsCommand_same s _ _
  | fldWr x e z p r =>
    rw [exec, execFldWr, hg]
    refine State.endsCommand_indexed _ _ _ fun _ _ => State.endsCommand_require _ _ _ _ (by decide) ?_
    exact State.endsCommand_pbuf _ _ _ _ (State.insert_frame ..)
  | bufRd l o r =>
    rw [exec, execBufRd, hg]
    refine State.endsCommand_indexed _ _ _ fun _ _ => State.endsCommand_require _ _ _ _ (by decide) ?_
    exact State.endsCommand_same s _ _
  | bufWr l o r =>
    rw [exec, execBufWr, hg]
    refine State.endsCommand_indexed _ _ _ fun _ _ => State.endsCommand_require _ _ _ _ (by decide) ?_
    exact State.endsCommand_pbuf _ _ _ _ (State.memWrite_frame ..)
  | bufInit r =>
    rw [exec, execBufInit, hg]
    exact State.endsCommand_indexed _ _ _ fun _ _ => State.endsCommand_pbuf _ _ _ _ (State.memWrite_frame ..)
  | sigRd l o k =>
    rw [exec, execSigRd, hg]
    refine State.endsCommand_indexed _ _ _ fun d _ => ?_
    split <;> exact State.endsCommand_require _ _ _ _ (by decide) (State.endsCommand_same s _ _)
  | sigWr l o k =>
    rw [exec, execSigWr, hg]
    refine State.endsCommand_indexed _ _ _ fun d _ => ?_
    split <;> refine State.endsCommand_require _ _ _ _ (by decide) ?_
    · obtain ⟨m, fs, h⟩ := State.writeScalar_frame s d s.operand (decodeScalar d (encodeScalar d s.operand))
      exact State.endsCommand_complete _ _ _ _ ⟨m, s.dynlen, fs, s.dm, s.now, s.evq, s.ovf, h⟩
    · obtain ⟨m0, h0⟩ := State.memWrite_frame s (s.cfg.arrayAddr d o.toNat) (unpackBytes (chunkLen l) s.operand)
      obtain ⟨m, h1⟩ := State.setUpdateBit_frame
        (s.memWrite (s.cfg.arrayAddr d o.toNat) (unpackBytes (chunkLen l) s.operand)) d.reg d.ub
      exact State.endsCommand_pbuf _ _ _ _ ⟨m, by rw [h1, h0]⟩
  | dlenRd k =>
    rw [exec, execDlenRd, hg]
    refine State.endsCommand_indexed _ _ _ fun _ _ => State.endsCommand_require _ _ _ _ (by decide) ?_
    exact State.endsCommand_same s _ _
  | dlenWr k =>
    rw [exec, execDlenWr, hg]
    refine State.endsCommand_indexed _ _ _ fun _ _ => State.endsCommand_require _ _ _ _ (by decide) ?_
    refine State.endsCommand_require _ _ _ _ (by decide) ?_
    exact State.endsCommand_complete _ _ _ _ ⟨s.pbuf, _, s.fst, s.dm, s.now, s.evq, s.ovf, rfl⟩
  | grpCommit k =>
    rw [exec, execGrpCommit, hg]
    refine State.endsCommand_indexed _ _ _ fun g _ => ?_
    split
    · exact .inl ⟨.errType, by decide, rfl⟩
    · rename_i r _
      obtain ⟨m0, h0⟩ := State.commitBytes_frame s g ((s.cfg.region g.pdureg).base + g.off) (s.cfg.region r).base g.len
      obtain ⟨m, h1⟩ := State.setUpdateBit_frame
        (s.commitBytes g ((s.cfg.region g.pdureg).base + g.off) (s.cfg.region r).base g.len).1 g.pdureg g.ub
      exact State.endsCommand_pbuf _ _ _ _ ⟨m, by rw [h1, h0]⟩
  | grpFetch k =>
    rw [exec, execGrpFetch, hg]
    refine State.endsCommand_indexed _ _ _ fun g _ => ?_
    split
    · exact .inl ⟨.errType, by decide, rfl⟩
    · exact State.endsCommand_pbuf _ _ _ _ (State.fetchBytes_frame ..)
  | filtEval f =>
    rw [exec, execFiltEval, hg]
    refine State.endsCommand_indexed _ _ _ fun _ _ => ?_
    exact State.endsCommand_complete _ _ _ _ ⟨s.pbuf, s.dynlen, _, s.dm, s.now, s.evq, s.ovf, rfl⟩
  | filtReset f =>
    rw [exec, execFiltReset, hg]
    refine State.endsCommand_indexed _ _ _ fun _ _ => ?_
    exact State.endsCommand_complete _ _ _ _ ⟨s.pbuf, s.dynlen, _, s.dm, s.now, s.evq, s.ovf, rfl⟩
  | filtRdst sel f =>
    simp only [exec, execFiltRdst, hg]
    exact State.endsCommand_indexed _ _ _ fun _ _ => State.endsCommand_same s _ _
  | dmArm k =>
    rw [exec, execDmArm, hg]
    refine State.endsCommand_indexed _ _ _ fun _ _ => State.endsCommand_require _ _ _ _ (by decide) ?_
    exact State.endsCommand_complete _ _ _ _ ⟨s.pbuf, s.dynlen, s.fst, _, s.now, s.evq, s.ovf, rfl⟩
  | dmDisarm n k =>
    rw [exec, execDmDisarm, hg]
    refine State.endsCommand_indexed _ _ _ fun _ _ => State.endsCommand_complete _ _ _ _ ?_
    split
    · obtain ⟨q, o, h⟩ := State.pushEvent_frame (s.setDm k.toNat { s.dmAt k.toNat with run := false })
        .txStopNotify k.toNat
      exact ⟨s.pbuf, s.dynlen, s.fst, _, s.now, q, o, h⟩
    · exact ⟨s.pbuf, s.dynlen, s.fst, _, s.now, s.evq, s.ovf, rfl⟩
  | dmClear k =>
    rw [exec, execDmClear, hg]
    refine State.endsCommand_indexed _ _ _ fun _ _ => ?_
    exact State.endsCommand_complete _ _ _ _ ⟨s.pbuf, s.dynlen, s.fst, _, s.now, s.evq, s.ovf, rfl⟩
  | dmStat k =>
    rw [exec, execDmStat, hg]
    exact State.endsCommand_indexed _ _ _ fun _ _ => State.endsCommand_same s _ _
  | tick d =>
    rw [exec, execTick, hg]
    refine State.endsCommand_require _ _ _ _ (by decide) (State.endsCommand_complete _ _ _ _ ?_)
    obtain ⟨ds, q, o, h⟩ := State.scanSlots_frame (s.setNow d.toNat (s.nowAt d.toNat + 1)) d.toNat s.cfg.slots.length
    exact ⟨s.pbuf, s.dynlen, s.fst, ds, _, q, o, h⟩
  | nowRd d =>
    rw [exec, execNowRd, hg]
    exact State.endsCommand_require _ _ _ _ (by decide) (State.endsCommand_same s _ _)
  | evtPop =>
    rw [exec, execEvtPop, hg]
    split
    · exact State.endsCommand_same s _ _
    · exact State.endsCommand_complete _ _ _ _ ⟨s.pbuf, s.dynlen, s.fst, s.dm, s.now, _, s.ovf, rfl⟩

/-- A step that goes on ran under a well-formed configuration (R9). -/
theorem step_eq_next_wf (s t : State) (h : step s = .next t) : s.cfg.wf = true := (State.guarded_eq_next s t _ h).1

/-- A step is the agent step at the head of the schedule (R20). -/
theorem step_of_sched (s : State) (a : AgentStep) (rest : List AgentStep) (hw : s.cfg.wf = true)
    (hs : s.sched = a :: rest) : step s = State.agentStep { s with sched := rest } a := by
  rw [step, State.guarded_of_wf _ _ hw, State.nextStep, hs]

/-- An aligned 32-bit access inside the window reaches the register at its offset (R61, R62). -/
theorem State.regAt?_window (s : State) (off : Nat) (h : off ≤ 0x7C) (hm : off % 4 = 0) :
    s.regAt? (s.cfg.blockBase + off) .w32 = some (regOfOffset off) := by
  unfold State.regAt?
  rw [if_pos ⟨rfl, by omega, by omega, by omega⟩, Nat.add_sub_cancel_left]

end Sys2Proof.Machine
end

