-- ==== Sys2Proof/Laws/Flags.lean ====
section
/-! SUPPORT. The status words, each said once: where the fields of STATUS, CTRL and EVQ_STAT stand (R24, R26, R27, 10_state.md), and
the fields of the event word (R264, 44_control.md). -/

namespace Sys2Proof.Machine

/-- The fields of STATUS in their bits (R24). -/
theorem Port.status_fields (p : Port) :
    p.status.getLsbD 0 = p.busy ∧ p.status.extractLsb' 1 3 = 0 ∧ p.status.extractLsb' 4 4 = p.code.toBits ∧
    p.status.getLsbD 8 = p.ovr ∧ p.status.getLsbD 9 = p.sub ∧ p.status.extractLsb' 10 22 = 0 := by
  obtain ⟨c, v, r, b, k, o, u⟩ := p
  unfold Port.status
  dsimp only
  cases b <;> cases k <;> cases o <;> cases u <;> decide

/-- IRQ_EN is bit 0 of CTRL, and SRST and the reserved bits read 0 (R26). -/
theorem State.ctrl_fields (s : State) : s.ctrl.getLsbD 0 = s.irqEn ∧ s.ctrl.extractLsb' 1 31 = 0 := by
  unfold State.ctrl
  cases s.irqEn <;> decide

/-- COUNT and OVF in their bits of EVQ_STAT (R27). -/
theorem State.evqStat_fields (s : State) :
    s.evqStat.extractLsb' 0 8 = s.evqCount ∧ s.evqStat.getLsbD 8 = s.ovf ∧ s.evqStat.extractLsb' 9 23 = 0 := by
  unfold State.evqStat
  generalize s.evqCount = n
  refine ⟨?_, ?_, ?_⟩
  · rw [BitVec.extractLsb'_append_eq_of_add_le (by omega), BitVec.extractLsb'_eq_self]
  · rw [BitVec.getLsbD_append, BitVec.getLsbD_append]
    cases s.ovf <;> simp
  · apply BitVec.eq_of_getLsbD_eq
    intro i hi
    rw [BitVec.getLsbD_extractLsb', BitVec.getLsbD_append, BitVec.getLsbD_append]
    simp [show ¬ 9 + i < 8 by omega, show ¬ 9 + i - 8 < 1 by omega]

/-- COUNT is the length of a FIFO within its capacity (R27, R35). -/
theorem State.evqCount_toNat (s : State) (h : s.evq.length ≤ Config.evqDepth) : s.evqCount.toNat = s.evq.length := by
  unfold State.evqCount
  rw [BitVec.toNat_ofNat, Nat.mod_eq_of_lt (Nat.lt_of_le_of_lt h (by decide))]

/-- The fields of the event word in their bits (R264). -/
theorem Event.word_fields (e : Event) :
    e.word.getLsbD 0 = true ∧ e.word.extractLsb' 1 3 = e.type.toBits ∧ e.word.extractLsb' 4 12 = 0 ∧
    e.word.extractLsb' 16 16 = e.slot ∧ e.word.extractLsb' 32 16 = e.tag ∧ e.word.extractLsb' 48 16 = e.dom := by
  unfold Event.word
  generalize e.type.toBits = y
  generalize e.slot = k; generalize e.tag = t; generalize e.dom = d
  refine ⟨by rw [BitVec.getLsbD_append]; simp, ?_, ?_, ?_, ?_, ?_⟩ <;>
    (apply BitVec.eq_of_getLsbD_eq; intro i hi
     simp only [BitVec.getLsbD_extractLsb', BitVec.getLsbD_append, hi, decide_true, Bool.true_and])
  · simp
    omega
  · interval_cases i <;> simp
  · rw [if_neg (by omega), if_neg (by omega), if_neg (by omega), if_pos (by omega)]
    exact congrArg k.getLsbD (by omega)
  · rw [if_neg (by omega), if_neg (by omega), if_neg (by omega), if_neg (by omega), if_pos (by omega)]
    exact congrArg t.getLsbD (by omega)
  · rw [if_neg (by omega), if_neg (by omega), if_neg (by omega), if_neg (by omega), if_neg (by omega)]
    exact congrArg d.getLsbD (by omega)

end Sys2Proof.Machine
end

