-- ==== Sys2Proof/Laws/Operands.lean ====
section
/-! SUPPORT. The extension primitives, each said once as numbers (R13, 00_scope.md). -/

namespace Sys2Proof.Machine

/-- `trunc_size(v) = v mod 2^size` (R13). -/
theorem trunc_toNat (size : Nat) (v : Word64) (h : size ≤ 64) : (trunc size v).toNat = v.toNat % 2 ^ size := by
  have hle : 2 ^ size ≤ 2 ^ 64 := Nat.pow_le_pow_right (by omega) h
  have hpos : 0 < 2 ^ size := Nat.pow_pos (by omega)
  rw [trunc, BitVec.toNat_and, BitVec.toNat_ofNat, Nat.mod_eq_of_lt (show 2 ^ size - 1 < 2 ^ 64 by omega),
    Nat.and_two_pow_sub_one_eq_mod]

/-- Bit size-1 of a field of `size` bits says that it is at least 2^(size-1). -/
theorem getLsbD_top (size : Nat) (f : Word64) (h : 1 ≤ size) (hf : f.toNat < 2 ^ size) :
    f.getLsbD (size - 1) = decide (2 ^ (size - 1) ≤ f.toNat) := by
  have hp : 2 ^ size = 2 * 2 ^ (size - 1) := by rw [← Nat.pow_succ']; congr 1; omega
  rw [BitVec.getLsbD, Nat.testBit_eq_decide_div_mod_eq]
  congr 1
  rw [eq_iff_iff]
  constructor
  · intro hm
    by_contra hc
    rw [Nat.div_eq_of_lt (by omega)] at hm
    omega
  · intro hm
    rw [Nat.div_eq_of_lt_le (k := 1) (by omega) (by omega)]

/-- `sext_64` is two's complement: a field of `size` bits with its top bit set stands for its value less 2^size (R13). -/
theorem signExtend_toInt (size : Nat) (f : Word64) (h1 : 1 ≤ size) (h2 : size ≤ 64) (hf : f.toNat < 2 ^ size) :
    (signExtend size f).toInt =
      if f.getLsbD (size - 1) then (f.toNat : Int) - (2 ^ size : Nat) else (f.toNat : Int) := by
  have hp : 2 ^ size = 2 * 2 ^ (size - 1) := by rw [← Nat.pow_succ']; congr 1; omega
  have hle : 2 ^ size ≤ 2 ^ 64 := Nat.pow_le_pow_right (by omega) h2
  have hpos : 0 < 2 ^ (size - 1) := Nat.pow_pos (by omega)
  unfold signExtend
  rw [getLsbD_top size f h1 hf]
  by_cases hx : 2 ^ (size - 1) ≤ f.toNat
  · simp only [hx, decide_true, if_true]
    rw [BitVec.toInt_eq_toNat_cond, BitVec.toNat_add, BitVec.toNat_ofNat,
      Nat.mod_eq_of_lt (show 2 ^ 64 - 2 ^ size < 2 ^ 64 by omega), Nat.mod_eq_of_lt (by omega), if_neg (by omega)]
    generalize 2 ^ size = a at *
    generalize 2 ^ (size - 1) = b at *
    omega
  · simp only [hx, decide_false, Bool.false_eq_true, if_false]
    rw [BitVec.toInt_eq_toNat_cond, if_pos (by omega)]

end Sys2Proof.Machine
end

