-- ==== Sys2Proof/Laws/PerInstr.lean ====
section
/-! SUPPORT. A statement about every command as syntax, proved constructor by constructor: the encoding carries the command's opcode
in bits 7:0 and its index in bits 47:32 (R91, R101). -/

namespace Sys2Proof.Laws

theorem opcOf_encodeF (opc : BitVec 8) (x : Ext) (e : Endian) (z : BitVec 6) (p r : Half) :
    opcOf (encodeF opc x e z p r) = opc := by
  unfold opcOf encodeF
  rw [BitVec.extractLsb'_append_eq_of_add_le (by omega), BitVec.extractLsb'_eq_self]

theorem opcOf_encodeB (opc : BitVec 8) (l : BitVec 3) (o r : Half) : opcOf (encodeB opc l o r) = opc := by
  unfold opcOf encodeB
  rw [BitVec.extractLsb'_append_eq_of_add_le (by omega), BitVec.extractLsb'_eq_self]

theorem opcOf_encodeX (opc : BitVec 8) (r : Half) : opcOf (encodeX opc r) = opc := by
  unfold opcOf encodeX
  rw [BitVec.extractLsb'_append_eq_of_add_le (by omega), BitVec.extractLsb'_eq_self]

theorem opcOf_encodeXS (opc : BitVec 8) (s : BitVec 1) (r : Half) : opcOf (encodeXS opc s r) = opc := by
  unfold opcOf encodeXS
  rw [BitVec.extractLsb'_append_eq_of_add_le (by omega), BitVec.extractLsb'_eq_self]

theorem idxOf_encodeF (opc : BitVec 8) (x : Ext) (e : Endian) (z : BitVec 6) (p r : Half) :
    idxOf (encodeF opc x e z p r) = r := by
  unfold idxOf encodeF
  iterate 5 rw [BitVec.extractLsb'_append_eq_of_le (by omega)]
  rw [BitVec.extractLsb'_append_eq_of_add_le (by omega)]
  exact BitVec.extractLsb'_eq_self

theorem idxOf_encodeB (opc : BitVec 8) (l : BitVec 3) (o r : Half) : idxOf (encodeB opc l o r) = r := by
  unfold idxOf encodeB
  iterate 4 rw [BitVec.extractLsb'_append_eq_of_le (by omega)]
  rw [BitVec.extractLsb'_append_eq_of_add_le (by omega)]
  exact BitVec.extractLsb'_eq_self

theorem idxOf_encodeX (opc : BitVec 8) (r : Half) : idxOf (encodeX opc r) = r := by
  unfold idxOf encodeX
  iterate 2 rw [BitVec.extractLsb'_append_eq_of_le (by omega)]
  rw [BitVec.extractLsb'_append_eq_of_add_le (by omega)]
  exact BitVec.extractLsb'_eq_self

theorem idxOf_encodeXS (opc : BitVec 8) (s : BitVec 1) (r : Half) : idxOf (encodeXS opc s r) = r := by
  unfold idxOf encodeXS
  iterate 3 rw [BitVec.extractLsb'_append_eq_of_le (by omega)]
  rw [BitVec.extractLsb'_append_eq_of_add_le (by omega)]
  exact BitVec.extractLsb'_eq_self

/-- The opcode and the index of a command stand in its word where R91 puts them. -/
def EncodePlacesFields.Statement (i : Instr) : Prop :=
  opcOf (encode i) = i.opcode.1 ∧ ∀ c k n, i.index? c = some (k, n) → idxOf (encode i) = k

/-- From the two facts about a word, the statement about a command whose index is `k`. -/
theorem EncodePlacesFields.of_word (i : Instr) (k : Half) (ho : opcOf (encode i) = i.opcode.1)
    (hk : ∀ c j n, i.index? c = some (j, n) → j = k) (hw : idxOf (encode i) = k) : EncodePlacesFields.Statement i :=
  ⟨ho, fun c j n h => by rw [hk c j n h, hw]⟩

theorem EncodePlacesFields.nop : EncodePlacesFields.Statement .nop :=
  ⟨by decide, fun c k n h => by cases h⟩

theorem EncodePlacesFields.fldRd (x : Ext) (e : Endian) (z : BitVec 6) (p : Half) (r : Half) :
    EncodePlacesFields.Statement (.fldRd x e z p r) :=
  EncodePlacesFields.of_word _ r (opcOf_encodeF ..) (fun c j n h => by cases h; rfl) (idxOf_encodeF ..)

theorem EncodePlacesFields.fldWr (x : Ext) (e : Endian) (z : BitVec 6) (p : Half) (r : Half) :
    EncodePlacesFields.Statement (.fldWr x e z p r) :=
  EncodePlacesFields.of_word _ r (opcOf_encodeF ..) (fun c j n h => by cases h; rfl) (idxOf_encodeF ..)

theorem EncodePlacesFields.bufRd (l : BitVec 3) (o : Half) (r : Half) :
    EncodePlacesFields.Statement (.bufRd l o r) :=
  EncodePlacesFields.of_word _ r (opcOf_encodeB ..) (fun c j n h => by cases h; rfl) (idxOf_encodeB ..)

theorem EncodePlacesFields.bufWr (l : BitVec 3) (o : Half) (r : Half) :
    EncodePlacesFields.Statement (.bufWr l o r) :=
  EncodePlacesFields.of_word _ r (opcOf_encodeB ..) (fun c j n h => by cases h; rfl) (idxOf_encodeB ..)

theorem EncodePlacesFields.bufInit (r : Half) :
    EncodePlacesFields.Statement (.bufInit r) :=
  EncodePlacesFields.of_word _ r (opcOf_encodeX ..) (fun c j n h => by cases h; rfl) (idxOf_encodeX ..)

theorem EncodePlacesFields.sigRd (l : BitVec 3) (o : Half) (k : Half) :
    EncodePlacesFields.Statement (.sigRd l o k) :=
  EncodePlacesFields.of_word _ k (opcOf_encodeB ..) (fun c j n h => by cases h; rfl) (idxOf_encodeB ..)

theorem EncodePlacesFields.sigWr (l : BitVec 3) (o : Half) (k : Half) :
    EncodePlacesFields.Statement (.sigWr l o k) :=
  EncodePlacesFields.of_word _ k (opcOf_encodeB ..) (fun c j n h => by cases h; rfl) (idxOf_encodeB ..)

theorem EncodePlacesFields.dlenRd (k : Half) :
    EncodePlacesFields.Statement (.dlenRd k) :=
  EncodePlacesFields.of_word _ k (opcOf_encodeX ..) (fun c j n h => by cases h; rfl) (idxOf_encodeX ..)

theorem EncodePlacesFields.dlenWr (k : Half) :
    EncodePlacesFields.Statement (.dlenWr k) :=
  EncodePlacesFields.of_word _ k (opcOf_encodeX ..) (fun c j n h => by cases h; rfl) (idxOf_encodeX ..)

theorem EncodePlacesFields.grpCommit (g : Half) :
    EncodePlacesFields.Statement (.grpCommit g) :=
  EncodePlacesFields.of_word _ g (opcOf_encodeX ..) (fun c j n h => by cases h; rfl) (idxOf_encodeX ..)

theorem EncodePlacesFields.grpFetch (g : Half) :
    EncodePlacesFields.Statement (.grpFetch g) :=
  EncodePlacesFields.of_word _ g (opcOf_encodeX ..) (fun c j n h => by cases h; rfl) (idxOf_encodeX ..)

theorem EncodePlacesFields.filtEval (f : Half) :
    EncodePlacesFields.Statement (.filtEval f) :=
  EncodePlacesFields.of_word _ f (opcOf_encodeX ..) (fun c j n h => by cases h; rfl) (idxOf_encodeX ..)

theorem EncodePlacesFields.filtReset (f : Half) :
    EncodePlacesFields.Statement (.filtReset f) :=
  EncodePlacesFields.of_word _ f (opcOf_encodeX ..) (fun c j n h => by cases h; rfl) (idxOf_encodeX ..)

theorem EncodePlacesFields.filtRdst (s : FiltSel) (f : Half) :
    EncodePlacesFields.Statement (.filtRdst s f) :=
  EncodePlacesFields.of_word _ f (opcOf_encodeXS ..) (fun c j n h => by cases h; rfl) (idxOf_encodeXS ..)

theorem EncodePlacesFields.dmArm (k : Half) :
    EncodePlacesFields.Statement (.dmArm k) :=
  EncodePlacesFields.of_word _ k (opcOf_encodeX ..) (fun c j n h => by cases h; rfl) (idxOf_encodeX ..)

theorem EncodePlacesFields.dmDisarm (n : Bool) (k : Half) :
    EncodePlacesFields.Statement (.dmDisarm n k) :=
  EncodePlacesFields.of_word _ k (opcOf_encodeXS ..) (fun c j n h => by cases h; rfl) (idxOf_encodeXS ..)

theorem EncodePlacesFields.dmClear (k : Half) :
    EncodePlacesFields.Statement (.dmClear k) :=
  EncodePlacesFields.of_word _ k (opcOf_encodeX ..) (fun c j n h => by cases h; rfl) (idxOf_encodeX ..)

theorem EncodePlacesFields.dmStat (k : Half) :
    EncodePlacesFields.Statement (.dmStat k) :=
  EncodePlacesFields.of_word _ k (opcOf_encodeX ..) (fun c j n h => by cases h; rfl) (idxOf_encodeX ..)

theorem EncodePlacesFields.tick (d : Half) :
    EncodePlacesFields.Statement (.tick d) :=
  EncodePlacesFields.of_word _ d (opcOf_encodeX ..) (fun c j n h => by cases h; rfl) (idxOf_encodeX ..)

theorem EncodePlacesFields.nowRd (d : Half) :
    EncodePlacesFields.Statement (.nowRd d) :=
  EncodePlacesFields.of_word _ d (opcOf_encodeX ..) (fun c j n h => by cases h; rfl) (idxOf_encodeX ..)

theorem EncodePlacesFields.evtPop : EncodePlacesFields.Statement .evtPop :=
  ⟨by decide, fun c k n h => by cases h⟩

end Sys2Proof.Laws
end

