-- ==== Sys2Proof/Tests/Slice0.lean ====
section
/-! SUPPORT. The model's own tests: command words written out from the encodings of 30_encoding.md, ill-formed configurations that
each check refuses, single steps with the results that 95_test_vectors.md states, and for every statement with hypotheses a witness
that meets them. -/

namespace Sys2Proof.Tests

open Sys2Proof Sys2Proof.Machine

/-! ### A configuration with every kind of record -/

/-- CFG-S (signals s0 to s4), CFG-F (filters) and CFG-D (slots) of 95_test_vectors.md in one, with the group of its section 4 in
regions 2 and 3, and a watched, filtered signal s5 with an update bit. -/
def cfg : Cfg :=
  { Config.cfgP with
    pbufBytes := 24
    ndom := 2
    regions := [⟨0, 4⟩, ⟨4, 16⟩, ⟨20, 2⟩, ⟨22, 2⟩]
    sigs :=
      [{ SigDesc.blank with typew := 16, pos := 8, size := 16 },
       { SigDesc.blank with kind := .sint, typew := 8, pos := 31, size := 4, endian := .be, ub := some 0 },
       { SigDesc.blank with kind := .bool, pos := 26 },
       { SigDesc.blank with kind := .opaqueArray, reg := 1, len := 12 },
       { SigDesc.blank with kind := .dynArray, reg := 1, pos := 16, len := 10 },
       { SigDesc.blank with typew := 16, reg := 1, pos := 96, size := 16, filt := some 2, dm := some 0, ub := some 127 },
       { SigDesc.blank with kind := .opaqueArray, reg := 1, pos := 96, len := 2, dm := some 0, ub := some 127 }]
    grps :=
      [{ pdureg := 2, off := 0, len := 2, shreg := some 3, mask := some [0xF0, 0xFF], ub := none, members := [0] },
       { pdureg := 2, off := 0, len := 2, shreg := none, mask := none, ub := none, members := [1] },
       { pdureg := 2, off := 0, len := 1, shreg := some 3, mask := none, ub := some 15, members := [] }]
    filts :=
      [{ FiltCfg.blank with kind := .always },
       { FiltCfg.blank with kind := .never },
       { FiltCfg.blank with kind := .maskedNewDiffersMaskedOld, mask := 0xFF },
       { FiltCfg.blank with kind := .oneEveryN, n := 3 },
       { FiltCfg.blank with kind := .equal, x := 7 },
       { FiltCfg.blank with kind := .notEqual, x := 7 },
       { FiltCfg.blank with kind := .min, sgn := true, min := -5 },
       { FiltCfg.blank with kind := .max, max := 100 },
       { FiltCfg.blank with kind := .window, sgn := true, min := -10, max := 10 }]
    slots :=
      [{ dom := 0, kind := .rx, per := false, tag := 0x100 },
       { dom := 0, kind := .tx, per := true, tag := 0x200 },
       { dom := 0, kind := .tx, per := false, tag := 0x300 },
       { dom := 1, kind := .rx, per := false, tag := 0x400 }]
    initImg := List.replicate 16 0 ++ [0x55, 0x00] ++ List.replicate 2 0 ++ [0x11, 0x22] ++ List.replicate 2 0 }

theorem cfg_wf : cfg.wf = true := by decide

/-- The reset state of the test configuration. -/
def s0 : State := State.resetOf cfg

/-- The state a command leaves, with operand `v`, on port 0. -/
def run (i : Instr) (v : Word64) (s : State) : State :=
  match exec i { s with port0 := { s.port0 with val := v } } with
  | .next t => t
  | .fault _ => s
  | .refused _ => s

/-- A submitted word on port 0 that the next Exec step takes. -/
def busy (w v : Word64) (s : State) : State :=
  { s with port0 := { s.port0 with cmd := w, val := v, busy := true }, sched := [.execute .p0] }

/-- The state a step leaves. -/
def stepped (s : State) : State :=
  match step s with
  | .next t => t
  | .fault _ => s
  | .refused _ => s

/-! ### Decoding: words from the encoding strings (R93 to R98, R101) and the CMD columns of 95_test_vectors.md -/

theorem test_decode_nop : decode 0x0000000000000000 = .ok .nop := by decide
theorem test_decode_fldRd : decode 0x0000000000048301 = .ok (.fldRd .sign .le 3 4 0) := by decide
theorem test_decode_fldWr : decode 0x000000000007CB02 = .ok (.fldWr .sign .be 11 7 0) := by decide
theorem test_decode_bufRd : decode 0x0000000000010203 = .ok (.bufRd 2 1 0) := by decide
theorem test_decode_bufWr : decode 0x0000000100000104 = .ok (.bufWr 1 0 1) := by decide
theorem test_decode_bufInit : decode 0x0000000000000005 = .ok (.bufInit 0) := by decide
theorem test_decode_sigRd : decode 0x00000003000A0108 = .ok (.sigRd 1 10 3) := by decide
theorem test_decode_sigWr : decode 0x0000000300040709 = .ok (.sigWr 7 4 3) := by decide
theorem test_decode_dlenRd : decode 0x000000040000000A = .ok (.dlenRd 4) := by decide
theorem test_decode_dlenWr : decode 0x000000040000000B = .ok (.dlenWr 4) := by decide
theorem test_decode_grpCommit : decode 0x000000010000000C = .ok (.grpCommit 1) := by decide
theorem test_decode_grpFetch : decode 0x000000010000000D = .ok (.grpFetch 1) := by decide
theorem test_decode_filtEval : decode 0x0000000A00000010 = .ok (.filtEval 10) := by decide
theorem test_decode_filtReset : decode 0x0000000300000011 = .ok (.filtReset 3) := by decide
theorem test_decode_filtRdst_old : decode 0x0000000200000012 = .ok (.filtRdst .old 2) := by decide
theorem test_decode_filtRdst_cnt : decode 0x0000000300000112 = .ok (.filtRdst .cnt 3) := by decide
theorem test_decode_dmArm : decode 0x0000000300000018 = .ok (.dmArm 3) := by decide
theorem test_decode_dmDisarm : decode 0x0000000100000019 = .ok (.dmDisarm false 1) := by decide
theorem test_decode_dmDisarm_ntf : decode 0x0000000200000119 = .ok (.dmDisarm true 2) := by decide
theorem test_decode_dmClear : decode 0x000000000000001A = .ok (.dmClear 0) := by decide
theorem test_decode_dmStat : decode 0x000000030000001B = .ok (.dmStat 3) := by decide
theorem test_decode_tick : decode 0x000000010000001C = .ok (.tick 1) := by decide
theorem test_decode_nowRd : decode 0x000000010000001D = .ok (.nowRd 1) := by decide
theorem test_decode_evtPop : decode 0x000000000000001E = .ok .evtPop := by decide
/-- Section 8: an unassigned opcode is found before a reserved bit. -/
theorem test_decode_opc_first : decode 0x0001000000000007 = .error .opc := by decide
theorem test_decode_rsvd : decode 0x0000000000000803 = .error .rsvd ∧ decode 0x0000000000000212 = .error .rsvd := by decide
/-- Section 2 and 3 lines assemble to their CMD columns. -/
theorem test_encode : encode (.fldWr .zero .be 63 7 0) = 0x0000000000077F02 ∧
    encode (.sigRd 1 11 3) = 0x00000003000B0108 ∧ encode (.dmDisarm true 2) = 0x0000000200000119 := by decide
/-- The table's words reach the decoder bit for bit. -/
theorem test_table_word : decodeTableWord 64 0x0000000100000012 = some (.filtRdst .old 1) ∧
    decodeTableWord 64 0x06 = none := by decide

/-! ### Well-formedness: one ill-formed configuration or index per check (R7, R11) -/

theorem test_wf_params : Cfg.wf { cfg with ndom := 0 } = false ∧ Cfg.paramsLegal { cfg with ndom := 0 } = false := by decide
theorem test_wf_reg : Cfg.wf { cfg with pbufBytes := 23, initImg := cfg.initImg.take 23 } = false ∧
    Cfg.cwReg { cfg with pbufBytes := 23 } = false := by decide
theorem test_wf_init : Cfg.wf { cfg with initImg := [0] } = false ∧ Cfg.cwInit { cfg with initImg := [0] } = false := by decide
theorem test_wf_sigReg : Cfg.cwSigReg { cfg with sigs := [{ SigDesc.blank with reg := 4 }] } = false ∧
    Cfg.wf { cfg with sigs := [{ SigDesc.blank with reg := 4 }] } = false := by decide
/-- The BE field at pos 23 of 24 bits leaves a 4-byte region (section 2), and a 17-bit UINT of declared width 16. -/
theorem test_wf_sigScalar :
    Cfg.cwSigScalar { cfg with sigs := [{ SigDesc.blank with pos := 23, size := 24, endian := .be }] } = false ∧
    Cfg.wf { cfg with sigs := [{ SigDesc.blank with typew := 16, size := 17 }] } = false := by decide
theorem test_wf_sigArray : Cfg.wf { cfg with sigs := [{ SigDesc.blank with kind := .dynArray, len := 5 }] } = false ∧
    Cfg.cwSigArray { cfg with sigs := [{ SigDesc.blank with kind := .opaqueArray, pos := 4, len := 1 }] } = false := by decide
theorem test_wf_sigFilt : Cfg.wf { cfg with sigs := [{ SigDesc.blank with filt := some 6 }] } = false ∧
    Cfg.cwSigFilt { cfg with sigs := [{ SigDesc.blank with filt := some 9 }] } = false := by decide
theorem test_wf_sigDm : Cfg.wf { cfg with sigs := [{ SigDesc.blank with dm := some 1 }] } = false ∧
    Cfg.cwSigDm { cfg with sigs := [{ SigDesc.blank with dm := some 4 }] } = false := by decide
theorem test_wf_sigUb : Cfg.wf { cfg with sigs := [{ SigDesc.blank with pos := 8, size := 4, ub := some 9 }] } = false ∧
    Cfg.cwSigUb { cfg with sigs := [{ SigDesc.blank with ub := some 32 }] } = false := by decide
/-- A shadow that overlaps its own I-PDU bytes, and a mask of the wrong length. -/
theorem test_wf_grp : Cfg.wf { cfg with grps := [⟨2, 0, 2, some 2, none, none, []⟩] } = false ∧
    Cfg.cwGrp { cfg with grps := [⟨2, 0, 2, some 3, some [0xF0], none, []⟩] } = false := by decide
/-- Signal 0 named by two groups. -/
theorem test_wf_grpMember : Cfg.wf { cfg with grps := cfg.grps ++ [⟨2, 0, 1, none, none, none, [0]⟩] } = false ∧
    membersDisjoint (cfg.grps ++ [⟨2, 0, 1, none, none, none, [0]⟩]) = false := by decide
theorem test_wf_filt : Cfg.wf { cfg with filts := cfg.filts ++ [{ FiltCfg.blank with kind := .oneEveryN }] } = false ∧
    Cfg.cwFilt { cfg with filts := [{ FiltCfg.blank with kind := .oneEveryN }] } = false := by decide
theorem test_wf_slot : Cfg.wf { cfg with slots := cfg.slots ++ [{ dom := 2, kind := .rx, per := false, tag := 0 }] } = false ∧
    Cfg.cwSlot { cfg with slots := [{ dom := 2, kind := .rx, per := false, tag := 0 }] } = false := by decide
theorem test_wf_index : Instr.indexLegal cfg (.fldRd .zero .le 0 0 4) = false ∧
    Instr.indexLegal cfg (.fldRd .zero .le 0 0 3) = true ∧ Instr.indexLegal cfg (.tick 2) = false ∧
    Instr.indexLegal cfg .nop = true := by decide
theorem test_wf_cfgP : Config.cfgP.wf = true := by decide

/-! ### One step of each command (95_test_vectors.md, sections 1 to 7) -/

theorem test_nop : (run .nop 0 s0).port0.code = .ok ∧ (run .nop 0 s0).port0.res = 0 := by decide
/-- Section 2: `FLD_RD r0, 4, 4, LE, S` on [F0,..] and on [70,..]. -/
theorem test_fldRd_sign : (run (.fldRd .sign .le 3 4 0) 0 (s0.setByte 0 0xF0)).port0.res = 0xFFFFFFFFFFFFFFFF ∧
    (run (.fldRd .sign .le 3 4 0) 0 (s0.setByte 0 0x70)).port0.res = 7 := by decide
/-- Section 2: the 10-bit BE field at pos 3 on [0A,94,00,00], and one bit past the end of the region. -/
theorem test_fldRd_be : (run (.fldRd .zero .be 9 3 0) 0 (s0.memWrite 0 [0x0A, 0x94])).port0.res = 0x2A5 ∧
    (run (.fldRd .zero .be 16 16 0) 0 s0).port0.code = .errRange := by decide
/-- Section 2: `FLD_WR r0, 4, 4, LE, S, VAL=0x1F` on zero bytes. -/
theorem test_fldWr_le : (run (.fldWr .sign .le 3 4 0) 0x1F s0).memRead 0 4 = [0xF0, 0x00, 0x00, 0x00] ∧
    (run (.fldWr .sign .le 3 4 0) 0x1F s0).port0.res = 0xFFFFFFFFFFFFFFFF := by decide
/-- Section 2: `FLD_WR r0, 3, 10, BE, U, VAL=0x2A5`. -/
theorem test_fldWr_be : (run (.fldWr .zero .be 9 3 0) 0x2A5 s0).memRead 0 4 = [0x0A, 0x94, 0x00, 0x00] ∧
    (run (.fldWr .zero .be 9 3 0) 0x2A5 s0).port0.res = 0x2A5 := by decide
theorem test_bufRd : (run (.bufRd 2 1 0) 0 (s0.memWrite 0 [0x11, 0x22, 0x33, 0x44])).port0.res = 0x443322 ∧
    (run (.bufRd 4 0 0) 0 s0).port0.code = .errRange := by decide
theorem test_bufWr : (run (.bufWr 1 2 0) 0xAABBCCDD s0).memRead 0 4 = [0x00, 0x00, 0xDD, 0xCC] ∧
    (run (.bufWr 1 3 0) 0xFFFF s0).port0.code = .errRange := by decide
theorem test_bufInit : (run (.bufInit 2) 0 (s0.memWrite 20 [0x99, 0x88])).memRead 20 2 = [0x11, 0x22] := by decide
/-- Section 3, rows 3 and 4: a negative SINT in a BE field, with its update bit. -/
theorem test_sigWr_sint : (run (.sigWr 0 0 1) (-3) (s0.memWrite 0 [0x00, 0x34, 0x12])).memRead 0 4 = [0x01, 0x34, 0x12, 0xD0] ∧
    (run (.sigRd 0 0 1) 0 (s0.memWrite 0 [0x01, 0x34, 0x12, 0xD0])).port0.res = 0xFFFFFFFFFFFFFFFD := by decide
/-- Section 3, rows 9 and 14: a BOOL stores 1 for any nonzero value; a chunk of an array. -/
theorem test_sigWr_bool_array : (run (.sigWr 0 0 2) 5 s0).byteAt 3 = 0x04 ∧
    (run (.sigWr 7 4 3) 0x0807060504030201 s0).memRead 8 8 = [1, 2, 3, 4, 5, 6, 7, 8] := by decide
/-- R163: TIMEOUT set substitutes the init value 0x55 and sets SUB, and PBUF is not written. -/
theorem test_sigRd_sub : (run (.sigRd 0 0 5) 0 ((s0.setByte 16 0x42).setDm 0 ⟨false, true, 5⟩)).port0.res = 0x55 ∧
    (run (.sigRd 0 0 5) 0 ((s0.setByte 16 0x42).setDm 0 ⟨false, true, 5⟩)).port0.sub = true := by decide
/-- Section 3, rows 13 and 16: a chunk on a scalar, and one byte past the end of an array. -/
theorem test_sigRd_errors : (run (.sigRd 1 0 0) 0 s0).port0.code = .errType ∧
    (run (.sigRd 1 11 3) 0 s0).port0.code = .errRange := by decide
theorem test_dlenRd : (run (.dlenRd 4) 0 (s0.setDynlen 4 10)).port0.res = 10 ∧
    (run (.dlenRd 0) 0 s0).port0.code = .errType := by decide
theorem test_dlenWr : (run (.dlenWr 4) 10 s0).dynlenAt 4 = 10 ∧ (run (.dlenWr 4) 11 s0).port0.code = .errRange := by decide
/-- Section 4, first row. -/
theorem test_grpCommit : (run (.grpCommit 0) 0 (s0.memWrite 22 [0xAB, 0xCD])).memRead 20 4 = [0xA1, 0xCD, 0xAB, 0xCD] ∧
    (run (.grpCommit 0) 0 (s0.memWrite 22 [0xAB, 0xCD])).port0.res = 1 := by decide
/-- R165: a commit sets the group's update bit (bit 15 of region 2) though no byte changed. -/
theorem test_grpCommit_ub : (run (.grpCommit 2) 0 (s0.setByte 22 0x11)).memRead 20 2 = [0x11, 0xA2] ∧
    (run (.grpCommit 2) 0 (s0.setByte 22 0x11)).port0.res = 0 := by decide
theorem test_grpFetch : (run (.grpFetch 0) 0 (s0.memWrite 20 [0x88, 0x99])).memRead 22 2 = [0x88, 0x99] ∧
    (run (.grpFetch 1) 0 s0).port0.code = .errType := by decide
/-- Section 5: MIN −5 signed, on −6, −5 and the most negative value. -/
theorem test_filtEval_min : (run (.filtEval 6) (-6) s0).port0.res = 0 ∧ (run (.filtEval 6) (-5) s0).port0.res = 1 ∧
    (run (.filtEval 6) 0x8000000000000000 s0).port0.res = 0 := by decide
/-- Section 5: the counter of ONE_EVERY_N(3) and the previous value of the delta filter. -/
theorem test_filtEval_state : (run (.filtEval 3) 0 (s0.setFst 3 ⟨0, 2⟩)).fstAt 3 = ⟨0, 0⟩ ∧
    (run (.filtEval 2) 0x100 s0).fstAt 2 = ⟨0x100, 0⟩ := by decide
theorem test_filtReset : (run (.filtReset 3) 0 (s0.setFst 3 ⟨0, 1⟩)).fstAt 3 = ⟨0, 0⟩ := by decide
theorem test_filtRdst : (run (.filtRdst .old 2) 0 (s0.setFst 2 ⟨0x1FF, 0⟩)).port0.res = 0x1FF ∧
    (run (.filtRdst .cnt 3) 0 (s0.setFst 3 ⟨0, 1⟩)).port0.res = 1 := by decide
/-- Section 6, rows 34 and 33: the due tick wraps, and a timeout of 2^16 is refused. -/
theorem test_dmArm : (run (.dmArm 0) 0xFFFF (s0.setNow 0 5)).dmAt 0 = ⟨true, false, 4⟩ ∧
    (run (.dmArm 0) 0x10000 s0).port0.code = .errValue := by decide
/-- Section 6, rows 26 and 30. -/
theorem test_dmDisarm : (run (.dmDisarm true 2) 0 (s0.setDm 2 ⟨true, false, 9⟩)).evq = [⟨.txStopNotify, 2, 0x300, 0⟩] ∧
    (run (.dmDisarm false 1) 0 (s0.setDm 1 ⟨true, false, 7⟩)).evq = [] := by decide
theorem test_dmClear : (run (.dmClear 0) 0 (s0.setDm 0 ⟨false, true, 5⟩)).port0.res = 1 ∧
    (run (.dmClear 0) 0 (s0.setDm 0 ⟨false, true, 5⟩)).dmAt 0 = ⟨false, false, 5⟩ := by decide
theorem test_dmStat : (run (.dmStat 0) 0 (s0.setDm 0 ⟨false, true, 5⟩)).port0.res = 0x0000000500000002 ∧
    (run (.dmStat 3) 0 (s0.setDm 3 ⟨true, false, 2⟩)).port0.res = 0x0000000200000001 := by decide
/-- Section 6, row 9: t0 (type 1), then t1 (type 2). -/
theorem test_tick :
    (run (.tick 0) 0 (((s0.setNow 0 4).setDm 0 ⟨true, false, 5⟩).setDm 1 ⟨true, false, 5⟩)).port0.res = 0x0000000200000005 ∧
    (run (.tick 0) 0 (((s0.setNow 0 4).setDm 0 ⟨true, false, 5⟩).setDm 1 ⟨true, false, 5⟩)).evq =
      [⟨.rxTimeout, 0, 0x100, 0⟩, ⟨.txTimeout, 1, 0x200, 0⟩] := by decide
/-- The wrap-around rows: the counter wraps to 0. -/
theorem test_tick_wrap : (run (.tick 0) 0 (s0.setNow 0 0xFFFF)).nowAt 0 = 0 ∧
    (run (.tick 2) 0 s0).port0.code = .errIndex := by decide
theorem test_nowRd : (run (.nowRd 0) 0 (s0.setNow 0 5)).port0.res = 5 ∧ (run (.nowRd 1) 0 (s0.setNow 0 5)).port0.res = 0 := by
  decide
/-- Section 6, row 24: {type 1, slot 3, tag 0x400, dom 1}. -/
theorem test_evtPop : (run .evtPop 0 { s0 with evq := [⟨.rxTimeout, 3, 0x400, 1⟩] }).port0.res = 0x0001040000030003 ∧
    (run .evtPop 0 s0).port0.res = 0 := by decide

/-! ### Steps of the agents -/

/-- Section 8: `GRP_COMMIT g5` with bit 48 set ends with ERR_RSVD, STATUS 0x20. -/
theorem test_step_rsvd : (stepped (busy 0x000100050000000C 0 s0)).port0.status = 0x20 := by decide
/-- Section 8: `FLD_RD r4` ends with ERR_INDEX, STATUS 0x30. -/
theorem test_step_index : (stepped (busy 0x0000000400000001 0 s0)).port0.status = 0x30 := by decide
/-- R62, R63: EVQ_STAT and PARAM0 as a host reads them. -/
theorem test_mmio_read :
    (stepped { s0 with ovf := true, evq := [⟨.rxTimeout, 0, 0, 0⟩], sched := [.hostRead .h0 0x44 .w32] }).host0.rdata = 0x101 ∧
    (stepped { s0 with sched := [.hostRead .h1 0x48 .w32] }).host1.rdata = 0x1010 := by decide
/-- R64, R65: a write of CMD_HI submits; a second one only sets OVR. -/
theorem test_mmio_submit : (stepped { s0 with sched := [.hostWrite .h0 0x24 .w32 7] }).port1.busy = true ∧
    (stepped { busy 0 0 s0 with sched := [.hostWrite .h0 0x04 .w32 7] }).port0.status = 0x101 := by decide
/-- R341: the soft reset clears IRQ_EN though bit 0 is 1. -/
theorem test_soft_reset :
    stepped { s0 with irqEn := true, ovf := true, pbuf := [(0, 9)], sched := [.hostWrite .h0 0x40 .w32 3] } = s0 := by decide
theorem test_hard_reset : stepped { busy 0x1C 0 s0 with sched := [.hardReset] } = s0 := by decide
/-- The interface of the host: a word stored by `withFetchWord` is the command the very next step runs from reset. -/
theorem test_fetch_word : (stepped (State.reset.withFetchWord 64 0x1C)).nowAt 0 = 1 := by decide

/-! ### Witnesses: for every statement with hypotheses, a state and operands that meet all of them, at the boundaries of each clause -/

/-- A state in which every state file holds something: a running slot, a timed-out slot, a pending command, events. -/
def sBusy : State :=
  { busy 0x1C 5 s0 with
    evq := [⟨.rxTimeout, 0, 0x100, 0⟩, ⟨.txStopNotify, 2, 0x300, 0⟩]
    pbuf := [(1, 0x34), (16, 0x42)]
    dynlen := [(4, 10)]
    fst := [(2, ⟨0x1FF, 0⟩), (3, ⟨0, 2⟩)]
    dm := [(0, ⟨false, true, 5⟩), (1, ⟨true, false, 6⟩)]
    now := [(0, 5)] }

/-- The test configuration at a host address above 0. -/
def cfgHigh : Cfg := { cfg with blockBase := 0x1000 }

theorem witness_EncodeOfDecodeIsTheWord : decode 0x000000000007CB02 = .ok (.fldWr .sign .be 11 7 0) := by decide

theorem witness_IllegalWordsEndWithErrOpcOrErrRsvd :
    (busy 0x1F 0 s0).cfg.wf = true ∧ (busy 0x1F 0 s0).sched = .execute .p0 :: [] ∧
    ((busy 0x1F 0 s0).port .p0).busy = true ∧ (opcOf ((busy 0x1F 0 s0).port .p0).cmd).toNat ∉ assignedOpcodes ∧
    (opcOf ((busy 0xFF 0 s0).port .p0).cmd).toNat ∉ assignedOpcodes ∧
    opcOf ((busy 0x100 0 s0).port .p0).cmd = Instr.nop.opcode.1 ∧
    ((busy 0x100 0 s0).port .p0).cmd &&& Instr.nop.opcode.2.reservedMask ≠ 0 ∧
    opcOf ((busy 0x8000000000000001 0 s0).port .p0).cmd = (Instr.fldRd .zero .le 0 0 0).opcode.1 ∧
    ((busy 0x8000000000000001 0 s0).port .p0).cmd &&& (Instr.fldRd .zero .le 0 0 0).opcode.2.reservedMask ≠ 0 := by decide

theorem witness_ExecStepRunsTheDecodedCommand : sBusy.cfg.wf = true ∧ sBusy.sched = .execute .p0 :: [] ∧
    (sBusy.port .p0).busy = true ∧ decode (sBusy.port .p0).cmd = .ok (.tick 0) := by decide

theorem witness_ExecServesABusyPort :
    (s0.cfg.wf = true ∧ State.sched { s0 with sched := [.execute .p0] } = .execute .p0 :: [] ∧
      (s0.port .p0).busy = false ∧ (s0.port .p1).busy = false) ∧
    (State.sched { sBusy with sched := [.execute .p1] } = .execute .p1 :: [] ∧ (sBusy.port .p1).busy = false ∧
      (sBusy.port (PortId.other .p1)).busy = true ∧ decode (sBusy.port (PortId.other .p1)).cmd = .ok (.tick 0)) := by decide

theorem witness_TwoExecStepsLeaveNoPortBusy : sBusy.cfg.wf = true ∧
    State.sched { sBusy with sched := [.execute .p1, .execute .p1] } = .execute .p1 :: .execute .p1 :: [] := by decide

theorem witness_HardwareResetSetsEveryResetValue : sBusy.cfg.wf = true ∧
    State.sched { sBusy with sched := [.hardReset] } = .hardReset :: [] := by decide

theorem witness_SoftResetIsTheHardwareReset : sBusy.cfg.wf = true ∧
    State.sched { sBusy with sched := [.hostWrite .h1 0x40 .w32 3] } =
      .hostWrite .h1 (sBusy.cfg.blockBase + 0x40) .w32 3 :: [] ∧ (3 : Word32).getLsbD 1 = true := by decide

theorem witness_MmioReadReturnsTheRegister : cfgHigh.wf = true ∧
    State.sched { sBusy with cfg := cfgHigh, sched := [.hostRead .h0 0x1000 .w32] } =
      .hostRead .h0 (cfgHigh.blockBase + 0) .w32 :: [] ∧
    State.sched { sBusy with cfg := cfgHigh, sched := [.hostRead .h0 0x107C .w32] } =
      .hostRead .h0 (cfgHigh.blockBase + 0x7C) .w32 :: [] ∧
    (0x40, sBusy.ctrl) ∈ registerMap sBusy ∧ (0x7C ≤ 0x7C ∧ 0x7C % 4 = 0) ∧
    (∀ off ∈ [portOffset .p0 + 0x18, portOffset .p1 + 0x18, 0x40, 0x44], off ≤ 0x7C ∧ off % 4 = 0 ∧
      State.sched { sBusy with sched := [.hostRead .h1 off .w32] } = .hostRead .h1 (sBusy.cfg.blockBase + off) .w32 :: []) ∧
    sBusy.evq.length ≤ 16 := by decide

theorem witness_MmioReadReturnsTheRegister_reserved : ∀ x, (0x1C, x) ∉ registerMap sBusy := by simp [registerMap]

theorem witness_OtherBusAccessesHaveNoStep : cfgHigh.wf = true ∧ AccessWidth.w8 ≠ .w32 ∧ 0xFFC < cfgHigh.blockBase ∧
    cfgHigh.blockBase + 0x7C < 0x1080 ∧ (0x1002 - cfgHigh.blockBase) % 4 ≠ 0 ∧
    State.sched { s0 with cfg := cfgHigh, sched := [.hostRead .h0 0xFFC .w32] } = .hostRead .h0 0xFFC .w32 :: [] ∧
    State.sched { s0 with cfg := cfgHigh, sched := [.hostWrite .h0 0x1080 .w32 1] } = .hostWrite .h0 0x1080 .w32 1 :: [] := by
  decide

theorem witness_IdlePortWritesLatchAndSubmit : s0.cfg.wf = true ∧ (s0.port .p1).busy = false ∧
    (∀ off ∈ [0x00, 0x04, 0x08, 0x0C], State.sched { s0 with sched := [.hostWrite .h0 (0x20 + off) .w32 9] } =
      .hostWrite .h0 (s0.cfg.blockBase + portOffset .p1 + off) .w32 9 :: []) := by decide

theorem witness_BusyPortWritesOnlySetOvr : sBusy.cfg.wf = true ∧ (sBusy.port .p0).busy = true ∧
    (∀ off ∈ [0x00, 0x04, 0x08, 0x0C], State.sched { sBusy with sched := [.hostWrite .h0 off .w32 9] } =
      .hostWrite .h0 (sBusy.cfg.blockBase + portOffset .p0 + off) .w32 9 :: []) := by decide

theorem witness_ControlWritesClearAndIgnore : s0.cfg.wf = true ∧
    (∀ off ∈ [0x18, 0x38, 0x40, 0x44, 0x10, 0x34, 0x48, 0x1C, 0x7C],
      State.sched { s0 with sched := [.hostWrite .h0 off .w32 9] } = .hostWrite .h0 (s0.cfg.blockBase + off) .w32 9 :: [] ∧
      off ≤ 0x7C ∧ off % 4 = 0) ∧ 0x38 = portOffset .p1 + 0x18 ∧ 0x34 = portOffset .p1 + 0x14 := by decide

theorem witness_IssueProtocolRunsTheCommand : s0.cfg.wf = true ∧ (s0.port .p1).busy = false ∧
    State.sched { s0 with sched := issue cfg .h1 .p1 0x1C 0 } = issue s0.cfg .h1 .p1 0x1C 0 ++ [] ∧
    decode 0x1C = .ok (.tick 0) := by decide

theorem witness_IrqIsEnableAndFifoNotEmpty : s0.evq.length ≤ 16 ∧
    (List.replicate 16 (s0.eventOf .rxTimeout 0)).length ≤ 16 := by decide

theorem witness_IndexNotBelowItsCountEndsWithErrIndex : s0.cfg.wf = true ∧ Instr.indexLegal s0.cfg (.tick 2) = false ∧
    Instr.indexLegal s0.cfg (.fldRd .zero .le 0 0 4) = false ∧ Instr.indexLegal s0.cfg (.filtEval 9) = false := by decide

theorem witness_WrongKindEndsWithErrType : s0.cfg.wf = true ∧
    (∃ d, s0.cfg.sigs[(0 : Half).toNat]? = some d ∧ d.kind.isScalar = true ∧ d.kind ≠ .dynArray) ∧
    ((1 : BitVec 3) ≠ 0) ∧ ∃ g, s0.cfg.grps[(1 : Half).toNat]? = some g ∧ g.shreg = none :=
  ⟨by decide, ⟨_, rfl, by decide, by decide⟩, by decide, ⟨_, rfl, by decide⟩⟩

/-- One bit or one byte past the end of region 0 (4 bytes), of s3 (12 bytes) and of s4 (10 bytes). -/
theorem witness_OutOfRangeEndsWithErrRange : s0.cfg.wf = true ∧ s0.cfg.regions[(0 : Half).toNat]? = some ⟨0, 4⟩ ∧
    8 * (Region.mk 0 4).size < (17 : Half).toNat + (15 : BitVec 6).toNat + 1 ∧
    8 * (Region.mk 0 4).size < msbIndex (16 : Half).toNat + (16 : BitVec 6).toNat + 1 ∧
    (Region.mk 0 4).size < (3 : Half).toNat + (1 : BitVec 3).toNat + 1 ∧
    (∃ d, s0.cfg.sigs[(3 : Half).toNat]? = some d ∧ d.kind.isScalar = false ∧
      d.len < (11 : Half).toNat + (1 : BitVec 3).toNat + 1) ∧
    (∃ d, s0.cfg.sigs[(4 : Half).toNat]? = some d ∧ d.kind = .dynArray ∧ d.len < (busy 0 11 s0).operand.toNat) :=
  ⟨by decide, by decide, by decide, by decide, by decide, ⟨_, rfl, by decide, by decide⟩, ⟨_, rfl, by decide, by decide⟩⟩

theorem witness_FailingCommandChangesOnlyItsStatus : (busy 0x07 0 s0).sched = .execute .p0 :: [] ∧
    ((busy 0x07 0 s0).port .p0).busy = true ∧
    ∃ t, step (busy 0x07 0 s0) = .next t ∧ (t.port .p0).code ≠ .ok := ⟨by decide, by decide, _, rfl, by decide⟩

theorem witness_EveryCommandCompletesInOneStep : sBusy.cfg.wf = true := by decide

theorem witness_IllFormedConfigurationIsRefused : Cfg.wf (State.cfg { s0 with cfg := { cfg with ndom := 0 } }) = false := by
  decide

theorem witness_NopOnlyCompletes : sBusy.cfg.wf = true := by decide

theorem witness_NowRdReturnsTheCounter : sBusy.cfg.wf = true ∧ (1 : Half).toNat < sBusy.cfg.ndom := by decide

theorem witness_EvtPopReturnsTheOldestEvent : s0.cfg.wf = true ∧ s0.evq = [] ∧ sBusy.cfg.wf = true ∧
    sBusy.evq = ⟨.rxTimeout, 0, 0x100, 0⟩ :: [⟨.txStopNotify, 2, 0x300, 0⟩] := by decide

theorem witness_DrainReturnsEveryEventInOrder : sBusy.cfg.wf = true := by decide

/-- Region 0 has 4 bytes: the whole of it, in both byte orders, and its last bit. -/
theorem witness_FldRdReturnsTheField : sBusy.cfg.wf = true ∧ sBusy.cfg.regions[(0 : Half).toNat]? = some ⟨0, 4⟩ ∧
    (Region.mk 0 4).fits .le (0 : Half).toNat ((31 : BitVec 6).toNat + 1) = true ∧
    (Region.mk 0 4).fits .be (7 : Half).toNat ((31 : BitVec 6).toNat + 1) = true ∧
    (Region.mk 0 4).fits .le (31 : Half).toNat ((0 : BitVec 6).toNat + 1) = true := by decide

theorem witness_FldWrStoresOnlyTheField : sBusy.cfg.wf = true ∧ sBusy.cfg.regions[(1 : Half).toNat]? = some ⟨4, 16⟩ ∧
    (Region.mk 4 16).fits .le (4 : Half).toNat ((63 : BitVec 6).toNat + 1) = true ∧
    (Region.mk 4 16).fits .be (3 : Half).toNat ((63 : BitVec 6).toNat + 1) = true := by decide

theorem witness_BufRdReturnsItsBytes : sBusy.cfg.wf = true ∧ sBusy.cfg.regions[(1 : Half).toNat]? = some ⟨4, 16⟩ ∧
    (8 : Half).toNat + (7 : BitVec 3).toNat + 1 ≤ (Region.mk 4 16).size ∧
    (15 : Half).toNat + (0 : BitVec 3).toNat + 1 ≤ (Region.mk 4 16).size := by decide

theorem witness_BufWrStoresOnlyItsBytes : sBusy.cfg.wf = true ∧ sBusy.cfg.regions[(1 : Half).toNat]? = some ⟨4, 16⟩ ∧
    (8 : Half).toNat + (7 : BitVec 3).toNat + 1 ≤ (Region.mk 4 16).size := by decide

theorem witness_BufInitReloadsTheRegion : sBusy.cfg.wf = true ∧ sBusy.cfg.regions[(3 : Half).toNat]? = some ⟨22, 2⟩ := by
  decide

theorem witness_FieldRoundTrip : sBusy.cfg.wf = true ∧ sBusy.cfg.regions[(1 : Half).toNat]? = some ⟨4, 16⟩ ∧
    (Region.mk 4 16).fits .be (7 : Half).toNat ((63 : BitVec 6).toNat + 1) = true := by decide

theorem witness_SignedFieldsReadBackSignExtended : s0.cfg.wf = true ∧ s0.cfg.regions[(0 : Half).toNat]? = some ⟨0, 4⟩ ∧
    (Region.mk 0 4).fits .be (7 : Half).toNat ((11 : BitVec 6).toNat + 1) = true ∧ (11 : BitVec 6).toNat < 63 ∧
    (busy 0 (-1) s0).operand = BitVec.allOnes 64 ∧
    (busy 0 0x7FF s0).operand = BitVec.ofNat 64 (2 ^ (11 : BitVec 6).toNat - 1) := by decide

theorem witness_DisjointFieldWritesCommute : ∀ i < 4, ∀ j < 12,
    8 * (Region.mk 0 4).base + bitAddr .le 8 4 i ≠ 8 * (Region.mk 0 4).base + bitAddr .be 7 12 j := by decide

theorem witness_AlignedBigEndianFieldReversesBytes : 8 ≤ 8 ∧ 7 < 8 ∧ 0 < 1 := by decide

theorem witness_ShifterFormEqualsExtraction : 1 ≤ 64 ∧ (Region.mk 4 16).fits .le 4 64 = true ∧
    (Region.mk 4 16).fits .be 3 64 = true ∧ (Region.mk 4 16).fits .be 120 1 = true := by decide

theorem witness_SigRdScalarDecodesOrSubstitutes : sBusy.cfg.wf = true ∧
    ∃ d, sBusy.cfg.sigs[(5 : Half).toNat]? = some d ∧ d.kind.isScalar = true ∧ d.dm = some 0 ∧
      (sBusy.dmAt 0).timeout = true ∧ (s0.dmAt 0).timeout = false := ⟨by decide, _, rfl, by decide, by decide, by decide, by decide⟩

theorem witness_SigRdArrayReturnsItsChunk : sBusy.cfg.wf = true ∧
    (∃ d, sBusy.cfg.sigs[(3 : Half).toNat]? = some d ∧ d.kind.isScalar = false ∧
      (4 : Half).toNat + (7 : BitVec 3).toNat + 1 ≤ d.len) ∧
    ∃ d, sBusy.cfg.sigs[(6 : Half).toNat]? = some d ∧ d.kind.isScalar = false ∧
      (1 : Half).toNat + (0 : BitVec 3).toNat + 1 ≤ d.len ∧ sBusy.substitutes d = true :=
  ⟨by decide, ⟨_, rfl, by decide, by decide⟩, ⟨_, rfl, by decide, by decide, by decide⟩⟩

theorem witness_SigWrScalarStoresFiltersAndMarks : sBusy.cfg.wf = true ∧
    (∃ d, sBusy.cfg.sigs[(5 : Half).toNat]? = some d ∧ d.kind.isScalar = true ∧ d.filt = some 2 ∧ d.ub = some 127) ∧
    ∃ d, sBusy.cfg.sigs[(0 : Half).toNat]? = some d ∧ d.kind.isScalar = true ∧ d.filt = none ∧ d.ub = none :=
  ⟨by decide, ⟨_, rfl, by decide, by decide, by decide⟩, ⟨_, rfl, by decide, by decide, by decide⟩⟩

theorem witness_SigWrArrayStoresItsChunkAndMarks : sBusy.cfg.wf = true ∧
    ∃ d, sBusy.cfg.sigs[(6 : Half).toNat]? = some d ∧ d.kind.isScalar = false ∧ d.ub = some 127 ∧
      (1 : Half).toNat + (0 : BitVec 3).toNat + 1 ≤ d.len := ⟨by decide, _, rfl, by decide, by decide, by decide⟩

/-- A 1-bit BOOL, a 16-bit UINT with its largest field value, and a 4-bit SINT with its most negative one. -/
theorem witness_ScalarCodingFollowsItsKind :
    (∃ d, cfg.sigs[2]? = some d ∧ d.kind = .bool ∧ 1 ≤ d.size ∧ d.size ≤ 64 ∧ (1 : Word64).toNat < 2 ^ d.size) ∧
    (∃ d, cfg.sigs[0]? = some d ∧ d.kind = .uint ∧ 1 ≤ d.size ∧ d.size ≤ 64 ∧ (0xFFFF : Word64).toNat < 2 ^ d.size) ∧
    ∃ d, cfg.sigs[1]? = some d ∧ d.kind = .sint ∧ 1 ≤ d.size ∧ d.size ≤ 64 ∧ (8 : Word64).toNat < 2 ^ d.size :=
  ⟨⟨_, rfl, by decide, by decide, by decide, by decide⟩, ⟨_, rfl, by decide, by decide, by decide, by decide⟩,
    ⟨_, rfl, by decide, by decide, by decide, by decide⟩⟩

theorem witness_TypedRoundTrip : s0.cfg.wf = true ∧
    (∃ d, s0.cfg.sigs[(5 : Half).toNat]? = some d ∧ d.kind = .uint ∧ d.kind.isScalar = true ∧ d.dm = some 0 ∧
      (s0.dmAt 0).timeout = false) ∧
    (∃ d, s0.cfg.sigs[(1 : Half).toNat]? = some d ∧ d.kind = .sint ∧ d.kind.isScalar = true ∧ d.dm = none) ∧
    ∃ d, s0.cfg.sigs[(2 : Half).toNat]? = some d ∧ d.kind = .bool ∧ d.kind.isScalar = true ∧ d.dm = none :=
  ⟨by decide, ⟨_, rfl, by decide, by decide, by decide, by decide⟩, ⟨_, rfl, by decide, by decide, by decide⟩,
    ⟨_, rfl, by decide, by decide, by decide⟩⟩

theorem witness_DynamicLengthIsStoredAndReturned : (busy 0 10 s0).cfg.wf = true ∧
    ∃ d, s0.cfg.sigs[(4 : Half).toNat]? = some d ∧ d.kind = .dynArray ∧ (busy 0 10 s0).operand.toNat ≤ d.len :=
  ⟨by decide, _, rfl, by decide, by decide⟩

/-- A group with a mask and one with an update bit; the bytes the commit leaves are computed by the statement's own formula. -/
theorem witness_GrpCommitMergesUnderTheMask : sBusy.cfg.wf = true ∧
    (∃ g, sBusy.cfg.grps[(0 : Half).toNat]? = some g ∧ g.shreg = some 3 ∧ g.mask = some [0xF0, 0xFF] ∧
      20 = (sBusy.cfg.region g.pdureg).base + g.off ∧ 22 = (sBusy.cfg.region 3).base ∧
      ∃ mk np : Nat → Byte, (∀ ms, g.mask = some ms → ∀ k < g.len, ms[k]? = some (mk k)) ∧
        ∀ k < g.len, np k = (sBusy.byteAt (20 + k) &&& ~~~(mk k)) ||| (sBusy.byteAt (22 + k) &&& mk k)) ∧
    ∃ g, sBusy.cfg.grps[(2 : Half).toNat]? = some g ∧ g.shreg = some 3 ∧ g.ub = some 15 ∧ g.mask = none ∧
      20 = (sBusy.cfg.region g.pdureg).base + g.off ∧ 22 = (sBusy.cfg.region 3).base ∧
      ∃ mk np : Nat → Byte, (∀ k < g.len, mk k = 0xFF) ∧
        ∀ k < g.len, np k = (sBusy.byteAt (20 + k) &&& ~~~(mk k)) ||| (sBusy.byteAt (22 + k) &&& mk k) := by
  refine ⟨by decide, ⟨_, rfl, by decide, by decide, by decide, by decide, fun k => if k = 0 then 0xF0 else 0xFF, _, ?_,
      fun _ _ => rfl⟩, ⟨_, rfl, by decide, by decide, by decide, by decide, by decide, fun _ => 0xFF, _, fun _ _ => rfl,
      fun _ _ => rfl⟩⟩
  intro ms hm
  cases hm
  decide

theorem witness_GrpFetchCopiesIntoTheShadow : sBusy.cfg.wf = true ∧
    ∃ g, sBusy.cfg.grps[(0 : Half).toNat]? = some g ∧ g.shreg = some 3 := ⟨by decide, _, rfl, by decide⟩

theorem witness_FiltEvalStepsItsSlotOnly : sBusy.cfg.wf = true ∧ ∃ c, sBusy.cfg.filts[(8 : Half).toNat]? = some c :=
  ⟨by decide, _, rfl⟩

theorem witness_FiltResetAndReadState : sBusy.cfg.wf = true ∧ ∃ c, sBusy.cfg.filts[(3 : Half).toNat]? = some c :=
  ⟨by decide, _, rfl⟩

theorem witness_FiltersAreDeterministic :
    (∃ c, cfg.filts[2]? = some c ∧ c.kind = .maskedNewDiffersMaskedOld ∧ (0x101 : Word64) &&& c.mask ≠ 0 &&& c.mask) ∧
    (∃ c, cfg.filts[3]? = some c ∧ c.kind = .oneEveryN ∧ (2 : BitVec 32).toNat < c.n.toNat ∧
      [(0 : Word64), 7, 0].length = c.n.toNat) ∧
    sBusy.cfg.wf = true ∧ ∃ c, sBusy.cfg.filts[(3 : Half).toNat]? = some c :=
  ⟨⟨_, rfl, by decide, by decide⟩, ⟨_, rfl, by decide, by decide, by decide⟩, by decide, _, rfl⟩

theorem witness_DmArmSetsTheDueTick : (busy 0 0xFFFF s0).cfg.wf = true ∧ (∃ c, s0.cfg.slots[(3 : Half).toNat]? = some c) ∧
    1 ≤ (busy 0 1 s0).operand.toNat ∧ (busy 0 0xFFFF s0).operand.toNat < 65536 ∧ (busy 0 0 s0).operand.toNat = 0 ∧
    65536 ≤ (busy 0 0x10000 s0).operand.toNat := ⟨by decide, ⟨_, rfl⟩, by decide, by decide, by decide, by decide⟩

theorem witness_DmDisarmClearsRunAndNotifies : sBusy.cfg.wf = true ∧
    ∃ c, sBusy.cfg.slots[(1 : Half).toNat]? = some c ∧ c.kind = .tx ∧ (sBusy.dmAt 1).run = true ∧ sBusy.evq.length < 16 :=
  ⟨by decide, _, rfl, by decide, by decide, by decide⟩

theorem witness_DmClearAndDmStat : sBusy.cfg.wf = true ∧ ∃ c, sBusy.cfg.slots[(0 : Half).toNat]? = some c :=
  ⟨by decide, _, rfl⟩

/-- Slot 1 is due on the next tick of domain 0; and the same state with a full FIFO. -/
theorem witness_TickAdvancesAndExpires : sBusy.cfg.wf = true ∧ (0 : Half).toNat < sBusy.cfg.ndom ∧
    sBusy.evq.length ≤ 16 ∧ (6 : Tick) = sBusy.nowAt (0 : Half).toNat + 1 ∧ expiring sBusy 0 6 = [1] ∧
    (State.evq { sBusy with evq := List.replicate 16 (sBusy.eventOf .rxTimeout 0) }).length ≤ 16 := by decide

theorem witness_ArmedSlotTimesOutOnTickT : (busy 0 5 s0).cfg.wf = true ∧
    (∃ c, (busy 0 5 s0).cfg.slots[(0 : Half).toNat]? = some c) ∧ 1 ≤ (busy 0 5 s0).operand.toNat ∧
    (busy 0 0xFFFF s0).operand.toNat < 65536 ∧
    (tickTimes 0 1 (run (.dmArm 0) 1 s0)).map State.ovf = some false :=
  ⟨by decide, ⟨_, rfl⟩, by decide, by decide, by decide⟩

theorem witness_WatchedSignalSubstitutesFromTickT : (busy 0 5 s0).cfg.wf = true ∧
    (∃ d, s0.cfg.sigs[(5 : Half).toNat]? = some d ∧ d.kind.isScalar = true ∧ d.dm = some (0 : Half).toNat) ∧
    (∃ c, s0.cfg.slots[(0 : Half).toNat]? = some c) ∧ 1 ≤ (busy 0 5 s0).operand.toNat ∧
    (busy 0 5 s0).operand.toNat < 65536 :=
  ⟨by decide, ⟨_, rfl, by decide, by decide⟩, ⟨_, rfl⟩, by decide, by decide⟩

theorem witness_NoCommandTouchesTheOtherPortOrItsOperands : ∃ t, exec (.tick 0) sBusy = .next t := ⟨_, rfl⟩

theorem witness_OnlyTheNamedCommandsWriteEachStateFile : (∃ t, exec (.tick 0) sBusy = .next t) ∧
    ∃ t, exec (.fldRd .zero .le 7 0 0) sBusy = .next t := ⟨⟨_, rfl⟩, ⟨_, rfl⟩⟩

theorem sBusy_inv : sBusy.Inv where
  cfg_wf := by decide
  pbuf_wf := by decide
  pbuf_inside := by decide
  dynlen_wf := by decide
  dynlen_legal := by
    intro c hc
    simp only [sBusy, List.mem_singleton] at hc
    subst hc
    exact ⟨_, rfl, by decide, by decide⟩
  fst_wf := by decide
  fst_legal := by decide
  dm_wf := by decide
  dm_legal := by decide
  now_wf := by decide
  now_legal := by decide
  evq_bound := by decide
  evq_legal := by
    intro e he
    simp only [sBusy, List.mem_cons, List.not_mem_nil, or_false] at he
    rcases he with rfl | rfl
    · exact ⟨by decide, by decide, by decide, by decide⟩
    · exact ⟨by decide, by decide, by decide, by decide⟩
  port0_legal := by decide
  port1_legal := by decide

theorem witness_EveryStepKeepsTheInvariant : sBusy.Inv ∧ ∃ t, step sBusy = .next t := ⟨sBusy_inv, _, rfl⟩

theorem witness_ResetMeetsTheInvariant : cfg.wf = true ∧ Config.cfgP.wf = true := by decide

theorem witness_OnlyBadBusAccessesStopTheMachine :
    State.cfg { s0 with sched := [.hostRead .h0 2 .w32] } = cfg ∧ cfg.wf = true ∧
    step { s0 with sched := [.hostRead .h0 2 .w32] } = .fault .noBusStep := ⟨rfl, by decide, rfl⟩

end Sys2Proof.Tests
end

namespace Sys2Proof.Machine

/-! ### Refusal under an ill-formed configuration -/

/-- Every command stands behind the configuration guard (R9). -/
theorem exec_guarded (i : Instr) (s : State) : ∃ r, exec i s = s.guarded r := by
  cases i <;> exact ⟨_, rfl⟩

/-- The guard refuses whatever stands behind it under an ill-formed configuration (R9, R306). -/
theorem State.guarded_of_not_wf (s : State) (r : Result) (h : s.cfg.wf = false) :
    s.guarded r = .refused .illFormedConfig := by
  simp [State.guarded, h]

/-- Settles O22: a step and every command stand behind the configuration guard. -/
theorem illFormedConfigurationIsRefused : Obligations.IllFormedConfigurationIsRefused := by
  intro s i hw
  obtain ⟨r, hr⟩ := exec_guarded i s
  exact ⟨s.guarded_of_not_wf _ hw, hr ▸ s.guarded_of_not_wf r hw⟩

/-! ### The index check -/

/-- An index not below the length of its table ends with ERR_INDEX (R100 step 3). -/
theorem State.indexed_of_length_le {α : Type} (s : State) (l : List α) (k : Nat) (f : α → Result) (h : l.length ≤ k) :
    s.indexed l[k]? f = .next (s.raise .errIndex) := by
  rw [List.getElem?_eq_none h, State.indexed_none]

/-- A domain index not below NDOM ends with ERR_INDEX (R100 step 3). -/
theorem State.require_lt_of_le (s : State) (k n : Nat) (e : StatusCode) (r : Result) (h : n ≤ k) :
    s.require (decide (k < n)) e r = .next (s.raise e) := by
  rw [decide_eq_false (Nat.not_lt.2 h), State.require_false]

/-- The index of an illegal command is not below its count (R7). -/
theorem count_le_of_indexLegal_eq_false (c : Cfg) (i : Instr) (h : i.indexLegal c = false) :
    ∃ k n, i.index? c = some (k, n) ∧ n ≤ k.toNat := by
  unfold Instr.indexLegal at h
  split at h
  · cases h
  · next k n hk => exact ⟨k, n, hk, Nat.not_lt.1 (of_decide_eq_false h)⟩

/-- Settles O17: each command looks its index up in the table, or compares it with the count, that `Instr.index?` names, before
any other check. -/
theorem indexNotBelowItsCountEndsWithErrIndex : Obligations.IndexNotBelowItsCountEndsWithErrIndex := by
  intro s i hw hi
  have hg := fun r => s.guarded_of_wf r hw
  obtain ⟨k, n, hk, hle⟩ := count_le_of_indexLegal_eq_false s.cfg i hi
  cases i with
  | nop | evtPop => cases hk
  | tick d | nowRd d =>
    cases hk
    exact (hg _).trans (s.require_lt_of_le _ _ _ _ hle)
  | _ =>
    cases hk
    exact (hg _).trans (s.indexed_of_length_le _ _ _ hle)

/-! ### Which steps stop the machine -/

/-- Serving a port answers a next state: a word that decodes to no command ends with its error (R102), and a command with what it
ends with (R92). -/
theorem State.servePort_next (s : State) (p : PortId) (hw : s.cfg.wf = true) : ∃ t, s.servePort p = .next t := by
  unfold State.servePort
  split
  · exact ⟨_, State.guarded_of_wf _ _ hw⟩
  · next i _ =>
    rcases exec_ends { s with cur := p } i hw with ⟨e, -, h⟩ | ⟨m, dl, fs, ds, ns, q, o, v, b, h⟩
    · exact ⟨_, h⟩
    · exact ⟨_, h⟩

/-- An Exec step answers a next state, with a busy port or with none (R92). -/
theorem State.execute_next (s : State) (p : PortId) (hw : s.cfg.wf = true) : ∃ t, s.execute p = .next t := by
  unfold State.execute
  split
  · exact ⟨s, rfl⟩
  · exact State.servePort_next s _ hw

/-- A read hands a register's value to its host, or reaches no register and has no step (R61). -/
theorem State.hostRead_cases (s : State) (h : HostId) (addr : Nat) (width : AccessWidth) :
    (∃ r, s.hostRead h addr width = .next (s.setHost h { s.host h with rdata := s.readReg r })) ∨
    (s.regAt? addr width = none ∧ s.hostRead h addr width = .fault .noBusStep) := by
  unfold State.hostRead
  cases s.regAt? addr width with
  | none => exact .inr ⟨rfl, rfl⟩
  | some r => exact .inl ⟨r, rfl⟩

/-- A write acts on the register it reaches, or reaches none and has no step (R61). -/
theorem State.hostWrite_cases (s : State) (h : HostId) (addr : Nat) (width : AccessWidth) (w : Word32) :
    (∃ r, s.hostWrite h addr width w = .next (s.writeReg h r w)) ∨
    (s.regAt? addr width = none ∧ s.hostWrite h addr width w = .fault .noBusStep) := by
  unfold State.hostWrite
  cases s.regAt? addr width with
  | none => exact .inr ⟨rfl, rfl⟩
  | some r => exact .inl ⟨r, rfl⟩

/-- With no agent step to come the state stays as it is. -/
theorem step_of_sched_nil (s : State) (hw : s.cfg.wf = true) (hs : s.sched = []) : step s = .next s := by
  rw [step, State.guarded_of_wf _ _ hw, State.nextStep, hs]

/-- Settles O59: of the agent steps only the two MMIO accesses can answer anything but a next state. -/
theorem onlyBadBusAccessesStopTheMachine : Obligations.OnlyBadBusAccessesStopTheMachine := by
  intro s hw hstop
  cases hs : s.sched with
  | nil => exact absurd ⟨s, step_of_sched_nil s hw hs⟩ hstop
  | cons a rest =>
    rw [step_of_sched s a rest hw hs] at hstop ⊢
    cases a with
    | hostRead h addr width =>
      rcases State.hostRead_cases { s with sched := rest } h addr width with ⟨r, hn⟩ | ⟨hr, hf⟩
      · exact absurd ⟨_, hn⟩ hstop
      · exact ⟨hf, h, addr, width, rest, hr, .inl rfl⟩
    | hostWrite h addr width w =>
      rcases State.hostWrite_cases { s with sched := rest } h addr width w with ⟨r, hn⟩ | ⟨hr, hf⟩
      · exact absurd ⟨_, hn⟩ hstop
      · exact ⟨hf, h, addr, width, rest, hr, .inr ⟨w, rfl⟩⟩
    | execute p => exact absurd (State.execute_next { s with sched := rest } p hw) hstop
    | hardReset => exact absurd ⟨_, rfl⟩ hstop

end Sys2Proof.Machine

namespace Sys2Proof.Machine

/-! ### What the invariant says of reads -/

/-- What a table reads as is a listed entry or the reset value. -/
theorem Table.read_cases {α : Type} (dflt : Nat → α) (m : Table α) (k : Nat) :
    (k, Table.read dflt m k) ∈ m ∨ Table.read dflt m k = dflt k := by
  induction m with
  | nil => exact .inr rfl
  | cons c m ih =>
    rw [Table.read_cons]
    split
    · next h => exact .inl (by simp [← h])
    · exact ih.imp_left (List.mem_cons_of_mem c)

/-- The reset value of a filter slot is one its kind allows (R32, CW-FILT). -/
theorem initFilt_legal (c : Cfg) (hw : c.wf = true) (f : Nat) (hf : f < c.filts.length) :
    FiltState.legal (c.filt f) (initFilt c f) := by
  have hmem : c.filt f ∈ c.filts := by
    rw [Cfg.filt_of_getElem? c f _ (List.getElem?_eq_getElem hf)]
    exact List.getElem_mem hf
  exact ⟨fun _ => rfl, fun _ => rfl, fun hk => c.wf_filt hw _ hmem hk⟩

/-- A configured filter slot holds what its kind allows, listed or not (R32, R191). -/
theorem State.Inv.fstAt_legal {s : State} (hi : s.Inv) (f : Nat) (hf : f < s.cfg.filts.length) :
    FiltState.legal (s.cfg.filt f) (s.fstAt f) := by
  rcases Table.read_cases (initFilt s.cfg) s.fst f with h | h
  · exact (hi.fst_legal _ h).2
  · exact (show s.fstAt f = _ from h) ▸ initFilt_legal s.cfg hi.cfg_wf f hf

/-- An evaluation keeps what the kind of the slot allows (R191, R192). -/
theorem filterNext_legal (c : FiltCfg) (st : FiltState) (v : Word64) (h : FiltState.legal c st) :
    FiltState.legal c (filterNext c st v) := by
  obtain ⟨hold, hcnt, hlt⟩ := h
  refine ⟨fun hk => ?_, fun hk => ?_, fun hk => filterNext_cnt_lt c st v (hlt hk)⟩
  · rw [← hold hk]
    unfold filterNext
    split
    · next hd => exact absurd hd hk
    all_goals rfl
  · rw [← hcnt hk]
    unfold filterNext
    split
    · rfl
    · next hd => exact absurd hd hk
    all_goals rfl

/-- What holds of every entry and of the entry written holds of every entry after the write. -/
theorem Table.forall_mem_write {α : Type} [DecidableEq α] {P : Nat × α → Prop} (dflt : Nat → α) (m : Table α) (k : Nat)
    (v : α) (hm : ∀ c ∈ m, P c) (hv : P (k, v)) : ∀ c ∈ Table.write dflt m k v, P c := by
  intro c hc
  rcases Table.mem_write dflt m k v c hc with ⟨rfl, -⟩ | ⟨hcm, -⟩
  · exact hv
  · exact hm c hcm

/-! ### Every write that stays inside its table keeps the invariant -/

/-- A write of a byte inside PBUF (R60, R76). -/
theorem State.Inv.setByte {s : State} (hi : s.Inv) (a : Nat) (b : Byte) (ha : a < s.cfg.pbufBytes) :
    (s.setByte a b).Inv :=
  { hi with
    pbuf_wf := s.wf_setByte a b hi.pbuf_wf
    pbuf_inside := Table.forall_mem_write s.cfg.initByte s.pbuf a b hi.pbuf_inside ha }

/-- A write of a DYN signal's length up to its maximum (R31). -/
theorem State.Inv.setDynlen {s : State} (hi : s.Inv) (i : Nat) (v : Half) (d : SigDesc) (hd : s.cfg.sigs[i]? = some d)
    (hk : d.kind = .dynArray) (hv : v.toNat ≤ d.len) : (s.setDynlen i v).Inv :=
  { hi with
    dynlen_wf := Table.wf_write _ _ _ _ hi.dynlen_wf
    dynlen_legal := Table.forall_mem_write (fun _ => 0) s.dynlen i v hi.dynlen_legal ⟨d, hd, hk, hv⟩ }

/-- A write of a configured filter slot (R32, R191). -/
theorem State.Inv.setFst {s : State} (hi : s.Inv) (f : Nat) (v : FiltState) (hf : f < s.cfg.filts.length)
    (hv : FiltState.legal (s.cfg.filt f) v) : (s.setFst f v).Inv :=
  { hi with
    fst_wf := Table.wf_write _ _ _ _ hi.fst_wf
    fst_legal := Table.forall_mem_write (initFilt s.cfg) s.fst f v hi.fst_legal ⟨hf, hv⟩ }

/-- A write of a configured deadline slot (R33, R37). -/
theorem State.Inv.setDm {s : State} (hi : s.Inv) (k : Nat) (v : DmSlot) (hk : k < s.cfg.slots.length)
    (hv : ¬(v.run = true ∧ v.timeout = true)) : (s.setDm k v).Inv :=
  { hi with
    dm_wf := Table.wf_write _ _ _ _ hi.dm_wf
    dm_legal := Table.forall_mem_write (fun _ => DmSlot.idle) s.dm k v hi.dm_legal ⟨hk, hv⟩ }

/-- A write of the counter of a configured domain (R34). -/
theorem State.Inv.setNow {s : State} (hi : s.Inv) (d : Nat) (v : Tick) (hd : d < s.cfg.ndom) : (s.setNow d v).Inv :=
  { hi with
    now_wf := Table.wf_write _ _ _ _ hi.now_wf
    now_legal := Table.forall_mem_write (fun _ => 0) s.now d v hi.now_legal hd }

/-- A write of a port with a legal STATUS (R24). -/
theorem State.Inv.setPort {s : State} (hi : s.Inv) (p : PortId) (x : Port) (hx : x.legal) : (s.setPort p x).Inv := by
  cases p with
  | p0 => exact { hi with port0_legal := hx }
  | p1 => exact { hi with port1_legal := hx }

theorem State.Inv.port_legal {s : State} (hi : s.Inv) (p : PortId) : (s.port p).legal := by
  cases p with
  | p0 => exact hi.port0_legal
  | p1 => exact hi.port1_legal

/-- `complete` leaves CODE = OK, which allows either SUB (R16). -/
theorem State.Inv.complete {s : State} (hi : s.Inv) (v : Word64) (b : Bool) : (s.complete v b).Inv :=
  hi.setPort _ _ fun _ => rfl

/-- `raise` leaves SUB = 0 (R15). -/
theorem State.Inv.raise {s : State} (hi : s.Inv) (e : StatusCode) : (s.raise e).Inv := hi.setPort _ _ nofun

/-! ### Events -/

/-- The slots that push an event of the type (R222). -/
def EventType.PushedBy (t : EventType) (c : SlotCfg) : Prop :=
  match t with
  | .rxTimeout => c.kind = .rx
  | .txTimeout => c.kind = .tx ∧ c.per = true
  | .txTimeoutStop => c.kind = .tx ∧ c.per = false
  | .txStopNotify => c.kind = .tx

/-- The event of an expiry is of a type that the slot pushes (R222, R230). -/
theorem expiryType_pushedBy (c : SlotCfg) : (expiryType c).PushedBy c := by
  unfold expiryType
  split
  · next hk => exact hk
  · next hk =>
    split
    · next hp => exact ⟨hk, hp⟩
    · next hp => exact ⟨hk, Bool.eq_false_of_not_eq_true hp⟩

/-- The event that `push_event` appends for a configured slot is legal: R6 bounds slots and domains, so that SLOT and DOM hold them
(R221, R222). -/
theorem State.eventOf_legal (s : State) (hw : s.cfg.wf = true) (t : EventType) (k : Nat) (hk : k < s.cfg.slots.length)
    (ht : t.PushedBy (s.cfg.slot k)) : Event.legal s.cfg (s.eventOf t k) := by
  obtain ⟨-, -, -, hndom, -, -, -, -, hslots⟩ := s.cfg.wf_params hw
  have hmem : s.cfg.slot k ∈ s.cfg.slots := by
    rw [Cfg.slot_of_getElem? s.cfg k _ (List.getElem?_eq_getElem hk)]
    exact List.getElem_mem hk
  have hdom := s.cfg.wf_slot hw _ hmem
  have hslot : (s.eventOf t k).slot.toNat = k := Nat.mod_eq_of_lt (by omega)
  refine ⟨?_, ?_, ?_, ?_⟩
  · rwa [hslot]
  · rw [hslot]; rfl
  · rw [hslot]; exact Nat.mod_eq_of_lt (by omega)
  · rw [hslot]
    cases t <;> exact ht

/-- `push_event` for a configured slot, with a type that the slot pushes (R221, R222). -/
theorem State.Inv.pushEvent {s : State} (hi : s.Inv) (t : EventType) (k : Nat) (hk : k < s.cfg.slots.length)
    (ht : t.PushedBy (s.cfg.slot k)) : (s.pushEvent t k).Inv := by
  have hbound := s.pushEvent_bound t k hi.evq_bound
  rcases s.pushEvent_cases t k with ⟨-, he⟩ | ⟨-, he⟩ <;> rw [he] at hbound ⊢
  · refine { hi with evq_bound := hbound, evq_legal := fun e hm => ?_ }
    rcases List.mem_append.1 hm with hm | hm
    · exact hi.evq_legal e hm
    · exact List.mem_singleton.1 hm ▸ s.eventOf_legal hi.cfg_wf t k hk ht
  · exact { hi with }

/-- The expiry of a configured slot (R230). -/
theorem State.Inv.expire {s : State} (hi : s.Inv) (k : Nat) (hk : k < s.cfg.slots.length) : (s.expire k).Inv :=
  (hi.setDm k _ hk (by simp)).pushEvent _ k hk (expiryType_pushedBy _)

/-- The scan of configured slots (R231). -/
theorem State.Inv.scanSlots {s : State} (hi : s.Inv) (d n : Nat) (hn : n ≤ s.cfg.slots.length) :
    (s.scanSlots d n).1.Inv := by
  induction n with
  | zero => exact hi
  | succ n ih =>
    have ih := ih (by omega)
    simp only [State.scanSlots]
    split
    · exact ih.expire n (by rw [State.cfg_scanSlots]; omega)
    · exact ih

/-! ### Writes of several bits or bytes of PBUF -/

@[simp] theorem State.cfg_memWrite (s : State) (a : Nat) (bs : List Byte) : (s.memWrite a bs).cfg = s.cfg := by
  obtain ⟨m, h⟩ := s.memWrite_frame a bs
  rw [h]

@[simp] theorem State.cfg_insertBits (s : State) (r : Region) (e : Endian) (pos size : Nat) (f : Word64) (n : Nat) :
    (s.insertBits r e pos size f n).cfg = s.cfg := by
  obtain ⟨m, h⟩ := s.insertBits_frame r e pos size f n
  rw [h]

@[simp] theorem State.cfg_commitBytes (s : State) (g : GrpDesc) (pb sb n : Nat) :
    (s.commitBytes g pb sb n).1.cfg = s.cfg := by
  obtain ⟨m, h⟩ := s.commitBytes_frame g pb sb n
  rw [h]

@[simp] theorem State.cfg_fetchBytes (s : State) (pb sb n : Nat) : (s.fetchBytes pb sb n).cfg = s.cfg := by
  obtain ⟨m, h⟩ := s.fetchBytes_frame pb sb n
  rw [h]

@[simp] theorem State.cfg_writeScalar (s : State) (d : SigDesc) (v : Word64) : (s.writeScalar d v).cfg = s.cfg :=
  s.cfg_insertBits ..

@[simp] theorem State.cfg_writeFilter (s : State) (d : SigDesc) (v : Word64) : (s.writeFilter d v).cfg = s.cfg := by
  obtain ⟨fs, h⟩ := s.writeFilter_frame d v
  rw [h]

/-- A run of bytes inside PBUF (R14). -/
theorem State.Inv.memWrite {s : State} (hi : s.Inv) (a : Nat) (bs : List Byte)
    (ha : a + bs.length ≤ s.cfg.pbufBytes) : (s.memWrite a bs).Inv := by
  induction bs generalizing s a with
  | nil => exact hi
  | cons b bs ih =>
    rw [List.length_cons] at ha
    exact ih (hi.setByte a b (by omega)) (a + 1) (by rw [State.setByte_cfg]; omega)

/-- A bit inside a configured region lies inside PBUF (R121, CW-REG). -/
theorem regionBit_div_lt (c : Cfg) (hw : c.wf = true) (r : Region) (hr : r ∈ c.regions) (k : Nat) (hk : k < r.bits) :
    r.bit k / 8 < c.pbufBytes := by
  have hin := (c.wf_region hw r hr).2.2
  unfold Region.bits at hk
  unfold Region.bit
  omega

/-- A bit of a configured region (R14, R121). -/
theorem State.Inv.setBitAt {s : State} (hi : s.Inv) (r : Region) (hr : r ∈ s.cfg.regions) (k : Nat) (hk : k < r.bits)
    (v : Bool) : (s.setBitAt (r.bit k) v).Inv :=
  hi.setByte _ _ (regionBit_div_lt s.cfg hi.cfg_wf r hr k hk)

/-- A field that fits a configured region (R124, R127). -/
theorem State.Inv.insertBits {s : State} (hi : s.Inv) (r : Region) (hr : r ∈ s.cfg.regions) (e : Endian)
    (pos size : Nat) (f : Word64) (hfit : r.fits e pos size = true) (n : Nat) (hn : n ≤ size) :
    (s.insertBits r e pos size f n).Inv := by
  induction n with
  | zero => exact hi
  | succ n ih =>
    have hlt := bitAddr_lt_of_fits r e pos size n hn hfit
    exact (ih (by omega)).setBitAt r (by rwa [State.cfg_insertBits]) _ hlt _

theorem State.Inv.insert {s : State} (hi : s.Inv) (r : Region) (hr : r ∈ s.cfg.regions) (e : Endian) (pos size : Nat)
    (f : Word64) (hfit : r.fits e pos size = true) : (s.insert r e pos size f).Inv :=
  hi.insertBits r hr e pos size f hfit size (Nat.le_refl _)

/-- The update bit, inside its configured region (R165). -/
theorem State.Inv.setUpdateBit {s : State} (hi : s.Inv) (reg : Nat) (ub : Option Nat) (hr : reg < s.cfg.regions.length)
    (hu : ∀ u, ub = some u → u < (s.cfg.region reg).bits) : (s.setUpdateBit reg ub).Inv := by
  cases ub with
  | none => exact hi
  | some u => exact hi.setBitAt _ (s.cfg.region_mem reg hr) u (hu u rfl) true

/-- The copies of a commit, inside PBUF (R168). -/
theorem State.Inv.commitBytes {s : State} (hi : s.Inv) (g : GrpDesc) (pb sb n : Nat) (hn : pb + n ≤ s.cfg.pbufBytes) :
    (s.commitBytes g pb sb n).1.Inv := by
  induction n with
  | zero => exact hi
  | succ n ih => exact (ih (by omega)).setByte _ _ (by rw [State.cfg_commitBytes]; omega)

/-- The copies of a fetch, inside PBUF (R169). -/
theorem State.Inv.fetchBytes {s : State} (hi : s.Inv) (pb sb n : Nat) (hn : sb + n ≤ s.cfg.pbufBytes) :
    (s.fetchBytes pb sb n).Inv := by
  induction n with
  | zero => exact hi
  | succ n ih => exact (ih (by omega)).setByte _ _ (by rw [State.cfg_fetchBytes]; omega)

/-! ### Signals and filters -/

/-- The evaluation of a configured filter slot (R192). -/
theorem State.Inv.filterStep {s : State} (hi : s.Inv) (f : Nat) (v : Word64) (hf : f < s.cfg.filts.length) :
    (s.filterStep f v).Inv :=
  hi.setFst f _ hf (filterNext_legal _ _ v (hi.fstAt_legal f hf))

/-- The field of a configured scalar signal (R164). -/
theorem State.Inv.writeScalar {s : State} (hi : s.Inv) (d : SigDesc) (v : Word64) (hd : d ∈ s.cfg.sigs)
    (hk : d.kind.isScalar = true) : (s.writeScalar d v).Inv := by
  obtain ⟨-, -, hfit⟩ := s.cfg.wf_scalar hi.cfg_wf d hd hk
  exact hi.insert _ (s.cfg.region_mem _ (s.cfg.wf_sigReg hi.cfg_wf d hd)) _ _ _ _ hfit

/-- The filter of a configured signal (R164). -/
theorem State.Inv.writeFilter {s : State} (hi : s.Inv) (d : SigDesc) (v : Word64) (hd : d ∈ s.cfg.sigs) :
    (s.writeFilter d v).Inv := by
  unfold State.writeFilter
  split
  · exact hi
  · next f hf => exact hi.filterStep f v (s.cfg.wf_sigFilt hi.cfg_wf d hd f hf).1

/-- The update bit of a configured signal (R165). -/
theorem State.Inv.setSignalUpdateBit {s : State} (hi : s.Inv) (d : SigDesc) (hd : d ∈ s.cfg.sigs) :
    (s.setUpdateBit d.reg d.ub).Inv :=
  hi.setUpdateBit d.reg d.ub (s.cfg.wf_sigReg hi.cfg_wf d hd) fun u hu => (s.cfg.wf_sigUb hi.cfg_wf d hd u hu).1

/-- A chunk of a configured array signal (R162, R164). -/
theorem State.Inv.writeChunk {s : State} (hi : s.Inv) (d : SigDesc) (off : Nat) (bs : List Byte) (hd : d ∈ s.cfg.sigs)
    (hk : d.kind.isScalar = false) (hlen : off + bs.length ≤ d.len) :
    (s.memWrite (s.cfg.arrayAddr d off) bs).Inv := by
  obtain ⟨-, -, hsize, -⟩ := s.cfg.wf_array hi.cfg_wf d hd hk
  obtain ⟨-, -, hin⟩ := s.cfg.wf_region hi.cfg_wf _ (s.cfg.region_mem _ (s.cfg.wf_sigReg hi.cfg_wf d hd))
  refine hi.memWrite _ _ ?_
  unfold Cfg.arrayAddr
  omega

/-- The bytes of a configured group, and its update bit (R168). -/
theorem State.Inv.commitGroup {s : State} (hi : s.Inv) (g : GrpDesc) (hg : g ∈ s.cfg.grps) (sb : Nat) :
    ((s.commitBytes g ((s.cfg.region g.pdureg).base + g.off) sb g.len).1.setUpdateBit g.pdureg g.ub).Inv := by
  obtain ⟨hreg, hlen, -, hub, -⟩ := s.cfg.wf_grp hi.cfg_wf g hg
  obtain ⟨-, -, hin⟩ := s.cfg.wf_region hi.cfg_wf _ (s.cfg.region_mem _ hreg)
  exact (hi.commitBytes g _ sb g.len (by omega)).setUpdateBit _ _ (by rwa [State.cfg_commitBytes])
    (by rwa [State.cfg_commitBytes])

/-- The shadow of a configured group (R169). -/
theorem State.Inv.fetchGroup {s : State} (hi : s.Inv) (g : GrpDesc) (hg : g ∈ s.cfg.grps) (r : Nat)
    (hr : g.shreg = some r) (pb : Nat) : (s.fetchBytes pb (s.cfg.region r).base g.len).Inv := by
  obtain ⟨hreg, hlen, -⟩ := s.cfg.wf_shadow hi.cfg_wf g hg r hr
  obtain ⟨-, -, hin⟩ := s.cfg.wf_region hi.cfg_wf _ (s.cfg.region_mem _ hreg)
  exact hi.fetchBytes pb _ _ (by omega)

/-! ### Commands -/

/-- What a command or a step answers meets the invariant, if it answers a next state. -/
def MeetsInv (r : Result) : Prop := ∀ t, r = .next t → t.Inv

theorem State.Inv.meetsInv {s : State} (hi : s.Inv) : MeetsInv (.next s) := by
  rintro t ⟨⟩
  exact hi

theorem State.Inv.meetsInv_complete {s : State} (hi : s.Inv) (v : Word64) (b : Bool) : MeetsInv (.next (s.complete v b)) :=
  (hi.complete v b).meetsInv

theorem MeetsInv.guarded {r : Result} (h : MeetsInv r) (s : State) : MeetsInv (s.guarded r) :=
  fun t ht => h t (s.guarded_eq_next t r ht).2

/-- The index check of R100 step 3 before something that meets the invariant. -/
theorem State.Inv.meetsInv_indexed {s : State} (hi : s.Inv) {α : Type} (l : List α) (i : Nat) (k : α → Result)
    (h : ∀ x, l[i]? = some x → MeetsInv (k x)) : MeetsInv (s.guarded (s.indexed l[i]? k)) := by
  refine MeetsInv.guarded (fun t ht => ?_) s
  rcases s.indexed_eq_next t _ k ht with ⟨-, rfl⟩ | ⟨x, hx, hk⟩
  · exact hi.raise _
  · exact h x hx t hk

/-- A further check of R100 before something that meets the invariant. -/
theorem State.Inv.meetsInv_require {s : State} (hi : s.Inv) (ok : Bool) (e : StatusCode) (r : Result)
    (h : ok = true → MeetsInv r) : MeetsInv (s.require ok e r) := by
  intro t ht
  rcases s.require_eq_next t ok e r ht with ⟨-, rfl⟩ | ⟨hok, hr⟩
  · exact hi.raise e
  · exact h hok t hr

theorem lt_length_of_getElem? {α : Type} {l : List α} {i : Nat} {x : α} (h : l[i]? = some x) : i < l.length :=
  (List.getElem?_eq_some_iff.1 h).1

/-- Every command keeps the invariant (R92). -/
theorem exec_meetsInv (s : State) (i : Instr) (hi : s.Inv) : MeetsInv (exec i s) := by
  cases i with
  | nop => exact (hi.meetsInv_complete _ _).guarded s
  | fldRd x e z p r =>
    exact hi.meetsInv_indexed _ _ _ fun _ _ => hi.meetsInv_require _ _ _ fun _ => hi.meetsInv_complete _ _
  | fldWr x e z p r =>
    refine hi.meetsInv_indexed _ _ _ fun r hr => hi.meetsInv_require _ _ _ fun hfit => ?_
    exact (hi.insert r (List.mem_of_getElem? hr) _ _ _ _ hfit).meetsInv_complete _ _
  | bufRd l o r =>
    exact hi.meetsInv_indexed _ _ _ fun _ _ => hi.meetsInv_require _ _ _ fun _ => hi.meetsInv_complete _ _
  | bufWr l o r =>
    refine hi.meetsInv_indexed _ _ _ fun r hr => hi.meetsInv_require _ _ _ fun hle => ?_
    have hle := of_decide_eq_true hle
    obtain ⟨-, -, hin⟩ := s.cfg.wf_region hi.cfg_wf r (List.mem_of_getElem? hr)
    exact (hi.memWrite _ _ (by rw [length_unpackBytes]; omega)).meetsInv_complete _ _
  | bufInit r =>
    refine hi.meetsInv_indexed _ _ _ fun r hr => ?_
    obtain ⟨-, -, hin⟩ := s.cfg.wf_region hi.cfg_wf r (List.mem_of_getElem? hr)
    exact (hi.memWrite _ _ (by simpa [Cfg.initBytes] using hin)).meetsInv_complete _ _
  | sigRd l o k =>
    refine hi.meetsInv_indexed _ _ _ fun d _ => ?_
    split <;> exact hi.meetsInv_require _ _ _ fun _ => hi.meetsInv_complete _ _
  | sigWr l o k =>
    refine hi.meetsInv_indexed _ _ _ fun d hd => ?_
    have hd := List.mem_of_getElem? hd
    split
    · next hk =>
      refine hi.meetsInv_require _ _ _ fun _ => ?_
      have hws := hi.writeScalar d s.operand hd hk
      have hwf := hws.writeFilter d (decodeScalar d (encodeScalar d s.operand)) (by rwa [State.cfg_writeScalar])
      exact (hwf.setSignalUpdateBit d (by rwa [State.cfg_writeFilter, State.cfg_writeScalar])).meetsInv_complete _ _
    · next hk =>
      refine hi.meetsInv_require _ _ _ fun hle => ?_
      have hle := of_decide_eq_true hle
      have hmw := hi.writeChunk d o.toNat (unpackBytes (chunkLen l) s.operand) hd (Bool.eq_false_of_not_eq_true hk)
        (by rwa [length_unpackBytes])
      exact (hmw.setSignalUpdateBit d (by rwa [State.cfg_memWrite])).meetsInv_complete _ _
  | dlenRd k =>
    exact hi.meetsInv_indexed _ _ _ fun _ _ => hi.meetsInv_require _ _ _ fun _ => hi.meetsInv_complete _ _
  | dlenWr k =>
    refine hi.meetsInv_indexed _ _ _ fun d hd => hi.meetsInv_require _ _ _ fun hk => ?_
    refine hi.meetsInv_require _ _ _ fun hle => ?_
    have hle := of_decide_eq_true hle
    have hv : (s.operand.extractLsb' 0 16).toNat ≤ s.operand.toNat := by
      rw [BitVec.extractLsb'_toNat, Nat.shiftRight_zero]
      exact Nat.mod_le _ _
    exact (hi.setDynlen _ _ d hd (of_decide_eq_true hk) (hv.trans hle)).meetsInv_complete _ _
  | grpCommit k =>
    refine hi.meetsInv_indexed _ _ _ fun g hg => ?_
    split
    · exact (hi.raise _).meetsInv
    · exact (hi.commitGroup g (List.mem_of_getElem? hg) _).meetsInv_complete _ _
  | grpFetch k =>
    refine hi.meetsInv_indexed _ _ _ fun g hg => ?_
    split
    · exact (hi.raise _).meetsInv
    · next r hr => exact (hi.fetchGroup g (List.mem_of_getElem? hg) r hr _).meetsInv_complete _ _
  | filtEval f =>
    refine hi.meetsInv_indexed _ _ _ fun _ hf => ?_
    exact (hi.filterStep _ _ (lt_length_of_getElem? hf)).meetsInv_complete _ _
  | filtReset f =>
    refine hi.meetsInv_indexed _ _ _ fun c hf => ?_
    have hlt := lt_length_of_getElem? hf
    have hlegal := initFilt_legal s.cfg hi.cfg_wf _ hlt
    rw [initFilt, Cfg.filt_of_getElem? _ _ c hf] at hlegal
    exact (hi.setFst _ _ hlt (Cfg.filt_of_getElem? _ _ c hf ▸ hlegal)).meetsInv_complete _ _
  | filtRdst sel f => exact hi.meetsInv_indexed _ _ _ fun _ _ => hi.meetsInv_complete _ _
  | dmArm k =>
    refine hi.meetsInv_indexed _ _ _ fun c hc => hi.meetsInv_require _ _ _ fun _ => ?_
    exact (hi.setDm _ _ (lt_length_of_getElem? hc) (by simp)).meetsInv_complete _ _
  | dmDisarm n k =>
    refine hi.meetsInv_indexed _ _ _ fun c hc => ?_
    have hk := lt_length_of_getElem? hc
    have hd : (s.setDm k.toNat { s.dmAt k.toNat with run := false }).Inv := hi.setDm _ _ hk (by simp)
    refine State.Inv.meetsInv_complete ?_ _ _
    split
    · next hntf =>
      simp only [Bool.and_eq_true, decide_eq_true_eq] at hntf
      exact hd.pushEvent _ _ hk ((Cfg.slot_of_getElem? s.cfg _ c hc).symm ▸ hntf.2)
    · exact hd
  | dmClear k =>
    refine hi.meetsInv_indexed _ _ _ fun c hc => ?_
    exact (hi.setDm _ _ (lt_length_of_getElem? hc) (by simp)).meetsInv_complete _ _
  | dmStat k => exact hi.meetsInv_indexed _ _ _ fun _ _ => hi.meetsInv_complete _ _
  | tick d =>
    refine (hi.meetsInv_require _ _ _ fun hd => ?_).guarded s
    have hn := hi.setNow d.toNat (s.nowAt d.toNat + 1) (of_decide_eq_true hd)
    exact (hn.scanSlots d.toNat _ (Nat.le_refl _)).meetsInv_complete _ _
  | nowRd d => exact (hi.meetsInv_require _ _ _ fun _ => hi.meetsInv_complete _ _).guarded s
  | evtPop =>
    refine MeetsInv.guarded ?_ s
    split
    · exact hi.meetsInv_complete _ _
    · next e rest hq =>
      have hlen := hi.evq_bound
      rw [hq, List.length_cons] at hlen
      have hpop : State.Inv { s with evq := rest } :=
        { hi with
          evq_bound := Nat.le_of_succ_le hlen
          evq_legal := fun e he => hi.evq_legal e (hq ▸ List.mem_cons_of_mem _ he) }
      exact hpop.meetsInv_complete _ _

/-! ### Agents -/

/-- The reset state of a well-formed configuration (R46). -/
theorem State.inv_resetOf (c : Cfg) (hw : c.wf = true) : (State.resetOf c).Inv where
  cfg_wf := hw
  pbuf_wf := rfl
  pbuf_inside := nofun
  dynlen_wf := rfl
  dynlen_legal := nofun
  fst_wf := rfl
  fst_legal := nofun
  dm_wf := rfl
  dm_legal := nofun
  now_wf := rfl
  now_legal := nofun
  evq_bound := Nat.zero_le _
  evq_legal := nofun
  port0_legal := nofun
  port1_legal := nofun

/-- The hardware and the soft reset (R340, R341). -/
theorem State.Inv.resetBlock {s : State} (hi : s.Inv) : s.resetBlock.Inv := { State.inv_resetOf s.cfg hi.cfg_wf with }

/-- The invariant does not speak of the hosts (R29, R63). -/
theorem State.Inv.setHost {s : State} (hi : s.Inv) (h : HostId) (x : HostAgent) : (s.setHost h x).Inv := { hi with }

/-- A write to CMD or VAL, latched or ignored (R64, R65). -/
theorem State.Inv.latch {s : State} (hi : s.Inv) (p : PortId) (x : Port) (hx : x.legal) : (s.latch p x).Inv := by
  unfold State.latch
  split
  · exact hi.setPort p _ (hi.port_legal p)
  · exact hi.setPort p x hx

/-- The submit count is the host's (R29). -/
theorem State.Inv.countSubmit {s : State} (hi : s.Inv) (h : HostId) (p : PortId) : (s.countSubmit h p).Inv := by
  unfold State.countSubmit
  split
  · exact hi
  · exact hi.setHost h _

/-- A write to any register of the map (R64 to R66). -/
theorem State.Inv.writeReg {s : State} (hi : s.Inv) (h : HostId) (r : Reg) (w : Word32) : (s.writeReg h r w).Inv := by
  cases r with
  | cmdLo p | valLo p | valHi p => exact hi.latch p _ (hi.port_legal p)
  | cmdHi p => exact (hi.countSubmit h p).latch p _ (hi.port_legal p)
  | status p =>
    simp only [State.writeReg]
    split
    · exact hi.setPort p _ (hi.port_legal p)
    · exact hi
  | ctrl =>
    simp only [State.writeReg]
    split
    · exact hi.resetBlock
    · exact { hi with }
  | evqStat =>
    simp only [State.writeReg]
    split
    · exact { hi with }
    · exact hi
  | resLo p | resHi p | param0 | reserved => exact hi

/-- Exec performs the command of a port (R92, R102). -/
theorem State.Inv.meetsInv_servePort {s : State} (hi : s.Inv) (p : PortId) : MeetsInv (s.servePort p) := by
  have hcur : State.Inv { s with cur := p } := { hi with }
  unfold State.servePort
  split
  · exact (hcur.raise _).meetsInv.guarded _
  · next i _ => exact exec_meetsInv _ i hcur

/-- Every agent keeps the invariant (R20). -/
theorem State.Inv.meetsInv_agentStep {s : State} (hi : s.Inv) (a : AgentStep) : MeetsInv (s.agentStep a) := by
  cases a with
  | hostRead h addr width =>
    intro t ht
    rcases s.hostRead_cases h addr width with ⟨r, hn⟩ | ⟨-, hf⟩
    · exact (hi.setHost h _).meetsInv t (hn.symm.trans ht)
    · cases hf.symm.trans ht
  | hostWrite h addr width w =>
    intro t ht
    rcases s.hostWrite_cases h addr width w with ⟨r, hn⟩ | ⟨-, hf⟩
    · exact (hi.writeReg h r w).meetsInv t (hn.symm.trans ht)
    · cases hf.symm.trans ht
  | execute p =>
    simp only [State.agentStep, State.execute]
    split
    · exact hi.meetsInv
    · exact hi.meetsInv_servePort _
  | hardReset => exact hi.resetBlock.meetsInv

/-- Settles O57: the step is the agent step at the head of the schedule, if there is one, and every agent keeps the invariant. -/
theorem everyStepKeepsTheInvariant : Obligations.EveryStepKeepsTheInvariant := by
  intro s t hi ht
  cases hs : s.sched with
  | nil => exact hi.meetsInv t ((step_of_sched_nil s hi.cfg_wf hs).symm.trans ht)
  | cons a rest =>
    have hrest : State.Inv { s with sched := rest } := { hi with }
    exact hrest.meetsInv_agentStep a t ((step_of_sched s a rest hi.cfg_wf hs).symm.trans ht)

end Sys2Proof.Machine

namespace Sys2Proof.Machine

/-! ### What no command writes -/

/-- A command that answers a next state writes the state files, and RES and the STATUS fields other than OVR of its own port: the
record update names every field that can change (R15, R16, R20). -/
theorem exec_eq_next (s t : State) (i : Instr) (h : exec i s = .next t) :
    ∃ m dl fs ds ns q o res code sub, t = (s.withFiles m dl fs ds ns q o).setPort s.cur
      { s.port s.cur with res := res, code := code, busy := false, sub := sub } := by
  obtain ⟨r, hr⟩ := exec_guarded i s
  obtain ⟨hw, -⟩ := s.guarded_eq_next t r (hr ▸ h)
  rcases exec_ends s i hw with ⟨e, -, he⟩ | ⟨m, dl, fs, ds, ns, q, o, v, b, he⟩
  · cases h.symm.trans he
    exact ⟨s.pbuf, s.dynlen, s.fst, s.dm, s.now, s.evq, s.ovf, (s.port s.cur).res, e, false, rfl⟩
  · cases h.symm.trans he
    exact ⟨m, dl, fs, ds, ns, q, o, v, .ok, b, rfl⟩

/-- Settles O55: what a command writes lies in the state files, which hold none of these fields, or in its own port, where CMD, VAL
and OVR keep their values. -/
theorem noCommandTouchesTheOtherPortOrItsOperands : Obligations.NoCommandTouchesTheOtherPortOrItsOperands := by
  intro s t i h
  obtain ⟨m, dl, fs, ds, ns, q, o, res, code, sub, rfl⟩ := exec_eq_next s t i h
  have hother := State.port_setPort_other (s.withFiles m dl fs ds ns q o) s.cur
  refine ⟨rfl, rfl, rfl, rfl, rfl, rfl, fun p hp => hother p _ hp, ?_, ?_, ?_⟩ <;> rw [State.port_setPort_same]

/-! ### Reset -/

/-- Settles O58: CFG-P, the configuration of `State.reset`, is well-formed. -/
theorem resetMeetsTheInvariant : Obligations.ResetMeetsTheInvariant :=
  ⟨State.inv_resetOf, State.inv_resetOf Config.cfgP (by decide)⟩

end Sys2Proof.Machine

namespace Sys2Proof.Machine

/-! ### Where an MMIO access goes -/

/-- The offsets of the window with a register behind them (R62). -/
def mappedOffsets : List Nat :=
  [0x00, 0x04, 0x08, 0x0C, 0x10, 0x14, 0x18, 0x20, 0x24, 0x28, 0x2C, 0x30, 0x34, 0x38, 0x40, 0x44, 0x48]

/-- The register map of the statements lists, at each mapped offset, what the model reads there (R62, R63). -/
theorem registerMap_eq (s : State) : registerMap s = mappedOffsets.map fun off => (off, s.readReg (regOfOffset off)) := rfl

/-- Only a mapped offset has a register behind it (R62). -/
theorem mem_mappedOffsets_of_ne_reserved (off : Nat) (h : regOfOffset off ≠ .reserved) : off ∈ mappedOffsets := by
  unfold regOfOffset at h
  split at h
  case h_18 => exact absurd rfl h
  all_goals decide

/-- An entry of the register map is what the model reads at its offset. -/
theorem eq_readReg_of_mem_registerMap (s : State) (off : Nat) (x : Word32) (h : (off, x) ∈ registerMap s) :
    x = s.readReg (regOfOffset off) := by
  rw [registerMap_eq] at h
  obtain ⟨k, -, hk⟩ := List.mem_map.1 h
  cases hk
  rfl

/-- An offset outside the register map is reserved. -/
theorem regOfOffset_of_not_mem_registerMap (s : State) (off : Nat) (h : ∀ x, (off, x) ∉ registerMap s) :
    regOfOffset off = .reserved := by
  by_contra hne
  exact h _ (registerMap_eq s ▸ List.mem_map_of_mem (mem_mappedOffsets_of_ne_reserved off hne))

/-! The registers of port `p` stand at its base offset (R62). -/

theorem regOfOffset_cmdLo (p : PortId) : regOfOffset (portOffset p + 0x00) = .cmdLo p := by cases p <;> rfl
theorem regOfOffset_cmdHi (p : PortId) : regOfOffset (portOffset p + 0x04) = .cmdHi p := by cases p <;> rfl
theorem regOfOffset_valLo (p : PortId) : regOfOffset (portOffset p + 0x08) = .valLo p := by cases p <;> rfl
theorem regOfOffset_valHi (p : PortId) : regOfOffset (portOffset p + 0x0C) = .valHi p := by cases p <;> rfl
theorem regOfOffset_resLo (p : PortId) : regOfOffset (portOffset p + 0x10) = .resLo p := by cases p <;> rfl
theorem regOfOffset_resHi (p : PortId) : regOfOffset (portOffset p + 0x14) = .resHi p := by cases p <;> rfl
theorem regOfOffset_status (p : PortId) : regOfOffset (portOffset p + 0x18) = .status p := by cases p <;> rfl

/-- An access of another width, outside the window or misaligned reaches no register (R61). -/
theorem State.regAt?_eq_none (s : State) (addr : Nat) (width : AccessWidth)
    (h : width ≠ .w32 ∨ addr < s.cfg.blockBase ∨ s.cfg.blockBase + 0x7C < addr ∨ (addr - s.cfg.blockBase) % 4 ≠ 0) :
    s.regAt? addr width = none := by
  refine if_neg ?_
  rintro ⟨hwidth, hlo, hhi, halign⟩
  rcases h with h | h | h | h
  · exact h hwidth
  all_goals omega

/-- A host's read at an offset of the window hands it the register there and consumes the step (R63). -/
theorem step_of_hostRead (s : State) (h : HostId) (off : Nat) (rest : List AgentStep) (hw : s.cfg.wf = true)
    (hs : s.sched = .hostRead h (s.cfg.blockBase + off) .w32 :: rest) (hoff : off ≤ 0x7C) (halign : off % 4 = 0) :
    step s = .next
      (State.setHost { s with sched := rest } h { s.host h with rdata := s.readReg (regOfOffset off) }) := by
  have hr := State.regAt?_window { s with sched := rest } off hoff halign
  rw [step_of_sched s _ rest hw hs, State.agentStep, State.hostRead, hr]
  rfl

/-- A host's write at an offset of the window acts on the register there (R64 to R66). -/
theorem step_of_hostWrite (s : State) (h : HostId) (off : Nat) (w : Word32) (rest : List AgentStep)
    (hw : s.cfg.wf = true) (hs : s.sched = .hostWrite h (s.cfg.blockBase + off) .w32 w :: rest) (hoff : off ≤ 0x7C)
    (halign : off % 4 = 0) : step s = .next (State.writeReg { s with sched := rest } h (regOfOffset off) w) := by
  have hr := State.regAt?_window { s with sched := rest } off hoff halign
  rw [step_of_sched s _ rest hw hs, State.agentStep, State.hostWrite, hr]

/-- A host's write at an offset of a port's block acts on that port's register (R62). -/
theorem step_of_hostWrite_port (s : State) (h : HostId) (p : PortId) (off : Nat) (w : Word32) (rest : List AgentStep)
    (hw : s.cfg.wf = true) (hs : s.sched = .hostWrite h (s.cfg.blockBase + portOffset p + off) .w32 w :: rest)
    (hoff : off ≤ 0x1C) (halign : off % 4 = 0) :
    step s = .next (State.writeReg { s with sched := rest } h (regOfOffset (portOffset p + off)) w) := by
  have hp : portOffset p ≤ 0x20 ∧ portOffset p % 4 = 0 := by cases p <;> decide
  rw [Nat.add_assoc] at hs
  exact step_of_hostWrite s h _ w rest hw hs (by omega) (by omega)

/-! ### Writes to CMD and VAL -/

/-- An idle port takes the write (R64). -/
theorem State.latch_of_idle (s : State) (p : PortId) (x : Port) (h : (s.port p).busy = false) :
    s.latch p x = s.setPort p x := by
  simp [State.latch, h]

/-- A busy port ignores the write and sets OVR (R65). -/
theorem State.latch_of_busy (s : State) (p : PortId) (x : Port) (h : (s.port p).busy = true) :
    s.latch p x = s.setPort p { s.port p with ovr := true } := by
  simp [State.latch, h]

/-- A submit to an idle port counts (R29). -/
theorem State.countSubmit_of_idle (s : State) (h : HostId) (p : PortId) (hp : (s.port p).busy = false) :
    s.countSubmit h p = s.setHost h { s.host h with nextCmd := (s.host h).nextCmd + 1 } := by
  simp [State.countSubmit, hp]

/-- An ignored submit does not count (R29). -/
theorem State.countSubmit_of_busy (s : State) (h : HostId) (p : PortId) (hp : (s.port p).busy = true) :
    s.countSubmit h p = s := by
  simp [State.countSubmit, hp]

/-- A write of CMD_HI to an idle port stores it, makes the port busy and counts the submit (R29, R64). -/
theorem State.writeReg_cmdHi_of_idle (s : State) (h : HostId) (p : PortId) (w : Word32) (hp : (s.port p).busy = false) :
    s.writeReg h (.cmdHi p) w = (s.setHost h { s.host h with nextCmd := (s.host h).nextCmd + 1 }).setPort p
      { s.port p with cmd := setHiHalf (s.port p).cmd w, busy := true } := by
  rw [State.writeReg, State.countSubmit_of_idle s h p hp]
  exact State.latch_of_idle _ p _ hp

/-- A write to any half of CMD or VAL of a busy port only sets OVR (R65). -/
theorem State.writeReg_of_busy (s : State) (h : HostId) (p : PortId) (r : Reg) (w : Word32) (hp : (s.port p).busy = true)
    (hr : r = .cmdLo p ∨ r = .cmdHi p ∨ r = .valLo p ∨ r = .valHi p) :
    s.writeReg h r w = s.setPort p { s.port p with ovr := true } := by
  rcases hr with rfl | rfl | rfl | rfl
  case inr.inl => rw [State.writeReg, State.countSubmit_of_busy s h p hp, State.latch_of_busy s p _ hp]
  all_goals exact State.latch_of_busy s p _ hp

/-! ### The MMIO statements -/

/-- Settles O11: such an access reaches no register. -/
theorem otherBusAccessesHaveNoStep : Obligations.OtherBusAccessesHaveNoStep := by
  intro s h addr width w rest hw hbad hs
  have hr := State.regAt?_eq_none { s with sched := rest } addr width hbad
  rcases hs with hs | hs
  · rw [step_of_sched s _ rest hw hs, State.agentStep, State.hostRead, hr]
  · rw [step_of_sched s _ rest hw hs, State.agentStep, State.hostWrite, hr]

/-- Settles O12: an idle port latches each half, and CMD_HI submits. -/
theorem idlePortWritesLatchAndSubmit : Obligations.IdlePortWritesLatchAndSubmit := by
  intro s h p off w rest hw hs hidle
  have hstep := step_of_hostWrite_port s h p off w rest hw hs
  have hlatch := fun x => State.latch_of_idle { s with sched := rest } p x hidle
  refine ⟨?_, ?_, ?_, ?_⟩ <;> rintro rfl <;> rw [hstep (by decide) (by decide)]
  · rw [regOfOffset_cmdLo]
    exact congrArg Host.Outcome.next (hlatch _)
  · rw [regOfOffset_cmdHi]
    exact congrArg Host.Outcome.next (State.writeReg_cmdHi_of_idle { s with sched := rest } h p w hidle)
  · rw [regOfOffset_valLo]
    exact congrArg Host.Outcome.next (hlatch _)
  · rw [regOfOffset_valHi]
    exact congrArg Host.Outcome.next (hlatch _)

/-- Settles O13: each of the four offsets is a half of CMD or VAL, and a busy port ignores the write. -/
theorem busyPortWritesOnlySetOvr : Obligations.BusyPortWritesOnlySetOvr := by
  intro s h p off w rest hw hs hbusy hoff
  have hreg : regOfOffset (portOffset p + off) = .cmdLo p ∨ regOfOffset (portOffset p + off) = .cmdHi p ∨
      regOfOffset (portOffset p + off) = .valLo p ∨ regOfOffset (portOffset p + off) = .valHi p := by
    rcases hoff with rfl | rfl | rfl | rfl
    · exact .inl (regOfOffset_cmdLo p)
    · exact .inr (.inl (regOfOffset_cmdHi p))
    · exact .inr (.inr (.inl (regOfOffset_valLo p)))
    · exact .inr (.inr (.inr (regOfOffset_valHi p)))
  rw [step_of_hostWrite_port s h p off w rest hw hs (by omega) (by omega)]
  exact congrArg Host.Outcome.next (State.writeReg_of_busy { s with sched := rest } h p _ w hbusy hreg)

/-- Settles O14: the register behind each offset decides what the write does. -/
theorem controlWritesClearAndIgnore : Obligations.ControlWritesClearAndIgnore := by
  intro s h off w rest hw hs hoff halign
  rw [step_of_hostWrite s h off w rest hw hs hoff halign]
  refine ⟨?_, ?_, ?_, ?_⟩
  · rintro p rfl
    rw [regOfOffset_status]
    rfl
  · rintro rfl
    rfl
  · rintro rfl
    rfl
  · rintro (⟨p, rfl | rfl⟩ | rfl | hres)
    · rw [regOfOffset_resLo]
      rfl
    · rw [regOfOffset_resHi]
      rfl
    · rfl
    · rw [regOfOffset_of_not_mem_registerMap s off hres]
      rfl

/-- Settles O10: the value is what the model reads at the offset, which the register map names and the status-word lemmas give
bit by bit. -/
theorem mmioReadReturnsTheRegister : Obligations.MmioReadReturnsTheRegister := by
  intro s h off rest hw hs hoff halign
  refine ⟨s.readReg (regOfOffset off), step_of_hostRead s h off rest hw hs hoff halign, ?_, ?_, ?_, ?_, ?_⟩
  · exact fun x hx => (eq_readReg_of_mem_registerMap s off x hx).symm
  · intro hres
    rw [regOfOffset_of_not_mem_registerMap s off hres]
    rfl
  · rintro p rfl
    rw [regOfOffset_status, State.readReg]
    obtain ⟨hbusy, hzero, hcode, hovr, hsub, htop⟩ := (s.port p).status_fields
    refine ⟨hbusy, hzero, ?_, hovr, hsub, htop⟩
    rw [hcode]
    cases (s.port p).code <;> rfl
  · rintro rfl
    exact s.ctrl_fields
  · rintro rfl
    obtain ⟨hcount, hovf, htop⟩ := s.evqStat_fields
    exact ⟨fun hlen => (congrArg BitVec.toNat hcount).trans (s.evqCount_toNat hlen), hovf, htop⟩

/-! ### Which command writes which state file -/

/-- The state files that commands write (R30 to R35); OVF, which EVT_POP keeps, stands beside the FIFO. -/
inductive StateFile where
  | pbuf
  | dynlen
  | fst
  | dm
  | now
  | evq
  | ovf

/-- The state files a command may write (R72, R74). -/
def writtenFiles (i : Instr) : List StateFile :=
  match i with
  | .fldWr .. | .bufWr .. | .bufInit .. | .grpCommit .. | .grpFetch .. => [.pbuf]
  | .sigWr .. => [.pbuf, .fst]
  | .dlenWr .. => [.dynlen]
  | .filtEval .. | .filtReset .. => [.fst]
  | .dmArm .. | .dmClear .. => [.dm]
  | .dmDisarm .. => [.dm, .evq, .ovf]
  | .tick .. => [.dm, .now, .evq, .ovf]
  | .evtPop => [.evq]
  | .nop | .fldRd .. | .bufRd .. | .sigRd .. | .dlenRd .. | .filtRdst .. | .dmStat .. | .nowRd .. => []

/-- `t` holds every state file outside `W` as `s` does. -/
structure State.SameBut (s : State) (W : List StateFile) (t : State) : Prop where
  pbuf : .pbuf ∉ W → t.pbuf = s.pbuf
  dynlen : .dynlen ∉ W → t.dynlen = s.dynlen
  fst : .fst ∉ W → t.fst = s.fst
  dm : .dm ∉ W → t.dm = s.dm
  now : .now ∉ W → t.now = s.now
  evq : .evq ∉ W → t.evq = s.evq
  ovf : .ovf ∉ W → t.ovf = s.ovf

theorem State.sameBut_refl (s : State) (W : List StateFile) : s.SameBut W s := by
  constructor <;> exact fun _ => rfl

/-- The ports are no state file: `complete` and `raise` write nothing else (R15, R16). -/
theorem State.SameBut.setPort {s t : State} {W : List StateFile} (h : s.SameBut W t) (p : PortId) (x : Port) :
    s.SameBut W (t.setPort p x) := { h with }

/-- A further change of PBUF alone. -/
theorem State.SameBut.pbuf_changed {s t u : State} {W : List StateFile} (h : s.SameBut W t) (hW : .pbuf ∈ W)
    (hu : ∃ m, u = { t with pbuf := m }) : s.SameBut W u := by
  obtain ⟨m, rfl⟩ := hu
  exact { h with pbuf := absurd hW }

/-- What a command answers holds every state file outside `W` as `s` does, if it answers a next state. -/
def State.Keeps (s : State) (W : List StateFile) (r : Result) : Prop := ∀ t, r = .next t → s.SameBut W t

theorem State.SameBut.keeps_complete {s t : State} {W : List StateFile} (h : s.SameBut W t) (v : Word64) (b : Bool) :
    s.Keeps W (.next (t.complete v b)) := by
  rintro u ⟨⟩
  exact h.setPort _ _

theorem State.keeps_complete (s : State) (W : List StateFile) (v : Word64) (b : Bool) : s.Keeps W (.next (s.complete v b)) :=
  (s.sameBut_refl W).keeps_complete v b

theorem State.keeps_raise (s : State) (W : List StateFile) (e : StatusCode) : s.Keeps W (.next (s.raise e)) := by
  rintro u ⟨⟩
  exact (s.sameBut_refl W).setPort _ _

theorem State.Keeps.guarded {s : State} {W : List StateFile} {r : Result} (h : s.Keeps W r) : s.Keeps W (s.guarded r) :=
  fun t ht => h t (s.guarded_eq_next t r ht).2

/-- The index check of R100 step 3 keeps what is kept behind it. -/
theorem State.keeps_guarded_indexed {s : State} {W : List StateFile} {α : Type} {o : Option α} {k : α → Result}
    (h : ∀ x, s.Keeps W (k x)) : s.Keeps W (s.guarded (s.indexed o k)) := by
  refine State.Keeps.guarded fun t ht => ?_
  rcases s.indexed_eq_next t o k ht with ⟨-, rfl⟩ | ⟨x, -, hx⟩
  · exact s.keeps_raise W _ _ rfl
  · exact h x t hx

/-- A further check of R100 keeps what is kept behind it. -/
theorem State.Keeps.require {s : State} {W : List StateFile} {r : Result} (h : s.Keeps W r) (ok : Bool) (e : StatusCode) :
    s.Keeps W (s.require ok e r) := by
  intro t ht
  rcases s.require_eq_next t ok e r ht with ⟨-, rfl⟩ | ⟨-, hr⟩
  · exact s.keeps_raise W e _ rfl
  · exact h t hr

/-- Every command keeps the state files it is not named for (R72, R74). -/
theorem exec_keeps (s : State) (i : Instr) : s.Keeps (writtenFiles i) (exec i s) := by
  cases i with
  | nop => exact (s.keeps_complete _ _ _).guarded
  | fldRd | bufRd | dlenRd => exact State.keeps_guarded_indexed fun _ => (s.keeps_complete _ _ _).require _ _
  | dmStat | filtRdst => exact State.keeps_guarded_indexed fun _ => s.keeps_complete _ _ _
  | nowRd => exact ((s.keeps_complete _ _ _).require _ _).guarded
  | sigRd =>
    refine State.keeps_guarded_indexed fun d => ?_
    split <;> exact (s.keeps_complete _ _ _).require _ _
  | fldWr =>
    refine State.keeps_guarded_indexed fun r => State.Keeps.require ?_ _ _
    exact ((s.sameBut_refl _).pbuf_changed (.head _) (s.insert_frame ..)).keeps_complete _ _
  | bufWr =>
    refine State.keeps_guarded_indexed fun r => State.Keeps.require ?_ _ _
    exact ((s.sameBut_refl _).pbuf_changed (.head _) (s.memWrite_frame ..)).keeps_complete _ _
  | bufInit =>
    refine State.keeps_guarded_indexed fun r => ?_
    exact ((s.sameBut_refl _).pbuf_changed (.head _) (s.memWrite_frame ..)).keeps_complete _ _
  | sigWr =>
    refine State.keeps_guarded_indexed fun d => ?_
    split <;> refine State.Keeps.require (State.SameBut.keeps_complete ?_ _ _) _ _
    · obtain ⟨m, fs, h⟩ := s.writeScalar_frame d s.operand (decodeScalar d (encodeScalar d s.operand))
      rw [h]
      constructor <;> simp [writtenFiles]
    · exact ((s.sameBut_refl _).pbuf_changed (.head _) (s.memWrite_frame ..)).pbuf_changed (.head _)
        (State.setUpdateBit_frame ..)
  | grpCommit =>
    refine State.keeps_guarded_indexed fun g => ?_
    split
    · exact s.keeps_raise _ _
    · refine State.SameBut.keeps_complete ?_ _ _
      exact ((s.sameBut_refl _).pbuf_changed (.head _) (s.commitBytes_frame ..)).pbuf_changed (.head _)
        (State.setUpdateBit_frame ..)
  | grpFetch =>
    refine State.keeps_guarded_indexed fun g => ?_
    split
    · exact s.keeps_raise _ _
    · exact ((s.sameBut_refl _).pbuf_changed (.head _) (s.fetchBytes_frame ..)).keeps_complete _ _
  | dlenWr =>
    refine State.keeps_guarded_indexed fun d => ((State.SameBut.keeps_complete ?_ _ _).require _ _).require _ _
    constructor <;> simp [writtenFiles]
  | filtEval | filtReset =>
    refine State.keeps_guarded_indexed fun c => State.SameBut.keeps_complete ?_ _ _
    constructor <;> simp [writtenFiles, State.filterStep]
  | dmArm =>
    refine State.keeps_guarded_indexed fun c => (State.SameBut.keeps_complete ?_ _ _).require _ _
    constructor <;> simp [writtenFiles]
  | dmClear =>
    refine State.keeps_guarded_indexed fun c => State.SameBut.keeps_complete ?_ _ _
    constructor <;> simp [writtenFiles]
  | dmDisarm n k =>
    refine State.keeps_guarded_indexed fun c => State.SameBut.keeps_complete ?_ _ _
    obtain ⟨q, o, h⟩ := (s.setDm k.toNat { s.dmAt k.toNat with run := false }).pushEvent_frame .txStopNotify k.toNat
    rw [h]
    split <;> constructor <;> simp [writtenFiles]
  | tick d =>
    refine ((State.SameBut.keeps_complete ?_ _ _).require _ _).guarded
    obtain ⟨ds, q, o, h⟩ := (s.setNow d.toNat (s.nowAt d.toNat + 1)).scanSlots_frame d.toNat s.cfg.slots.length
    rw [h]
    constructor <;> simp [writtenFiles]
  | evtPop =>
    refine State.Keeps.guarded ?_
    split
    · exact s.keeps_complete _ _ _
    · refine State.SameBut.keeps_complete ?_ _ _
      constructor <;> simp [writtenFiles]

/-- A command that writes no state file changes only its port (R74). -/
theorem eq_setPort_of_sameBut_nil (s t : State) (i : Instr) (h : exec i s = .next t) (hk : s.SameBut [] t) :
    t = s.setPort s.cur (t.port s.cur) := by
  obtain ⟨m, dl, fs, ds, ns, q, o, res, code, sub, rfl⟩ := exec_eq_next s t i h
  obtain rfl : m = s.pbuf := hk.pbuf List.not_mem_nil
  obtain rfl : dl = s.dynlen := hk.dynlen List.not_mem_nil
  obtain rfl : fs = s.fst := hk.fst List.not_mem_nil
  obtain rfl : ds = s.dm := hk.dm List.not_mem_nil
  obtain rfl : ns = s.now := hk.now List.not_mem_nil
  obtain rfl : q = s.evq := hk.evq List.not_mem_nil
  obtain rfl : o = s.ovf := hk.ovf List.not_mem_nil
  rw [State.port_setPort_same]

/-- Settles O56: each clause leaves out the commands that have its state file among their written ones. -/
theorem onlyTheNamedCommandsWriteEachStateFile : Obligations.OnlyTheNamedCommandsWriteEachStateFile := by
  intro s t i h
  have hk := exec_keeps s i t h
  refine ⟨?_, ?_, ?_, ?_, ?_, ?_, ?_⟩
  · cases i with
    | fldWr | bufWr | bufInit | sigWr | grpCommit | grpFetch => trivial
    | _ => exact hk.pbuf (by simp [writtenFiles])
  · cases i with
    | dlenWr => trivial
    | _ => exact hk.dynlen (by simp [writtenFiles])
  · cases i with
    | sigWr | filtEval | filtReset => trivial
    | _ => exact hk.fst (by simp [writtenFiles])
  · cases i with
    | dmArm | dmDisarm | dmClear | tick => trivial
    | _ => exact hk.dm (by simp [writtenFiles])
  · cases i with
    | tick => trivial
    | _ => exact hk.now (by simp [writtenFiles])
  · cases i with
    | dmDisarm | tick | evtPop => trivial
    | _ => exact ⟨hk.evq (by simp [writtenFiles]), hk.ovf (by simp [writtenFiles])⟩
  · cases i with
    | nop | fldRd | bufRd | sigRd | dlenRd | filtRdst | dmStat | nowRd => exact eq_setPort_of_sameBut_nil s t _ h hk
    | _ => trivial

end Sys2Proof.Machine

namespace Sys2Proof

/-! ### The reserved bits of a format -/

/-- A word that passes the reserved-bit check decodes to the command the check was given (R100 step 2). -/
theorem checked_of_and_eq_zero (fmt : Format) (w : Word64) (i : Instr) (h : w &&& fmt.reservedMask = 0) :
    checked fmt w i = .ok i := if_pos h

/-- A 1 in a must-be-0 bit rejects the word (R100 step 2, R102). -/
theorem checked_of_and_ne_zero (fmt : Format) (w : Word64) (i : Instr) (h : w &&& fmt.reservedMask ≠ 0) :
    checked fmt w i = .error .rsvd := if_neg h

/-- Only a word without a 1 in a must-be-0 bit passes the check, and the check keeps its command. -/
theorem checked_eq_ok {fmt : Format} {w : Word64} {i j : Instr} (h : checked fmt w i = .ok j) :
    w &&& fmt.reservedMask = 0 ∧ i = j := by
  unfold checked at h
  split at h
  · next hmask => exact ⟨hmask, by injection h⟩
  · cases h

/-- A run of bits that the mask covers is 0 in a word that the mask clears. -/
theorem extractLsb'_eq_zero_of_mask {w m : Word64} (h : w &&& m = 0) (start len : Nat)
    (hm : m.extractLsb' start len = BitVec.allOnes len) : w.extractLsb' start len = 0#len := by
  have hand : (w &&& m).extractLsb' start len = 0#len := by
    rw [h]
    exact BitVec.extractLsb'_zero
  rwa [BitVec.extractLsb'_and, hm, BitVec.and_allOnes] at hand

/-- Two concatenations along the same cut have no 1 in common when their parts have none. -/
theorem append_and_append_eq_zero {v w : Nat} {a c : BitVec v} {b d : BitVec w} (hhi : a &&& c = 0#v) (hlo : b &&& d = 0#w) :
    (a ++ b) &&& (c ++ d) = 0#(v + w) := by
  rw [BitVec.and_append, hhi, hlo, BitVec.zero_append_zero]

/-! The encoding strings hold 0 in the must-be-0 bits: cut along the same fields, each mask is all ones over the zeros of its
string and 0 over its operands (R93 to R98). -/

theorem encodeF_and_reservedMask (opc : BitVec 8) (x : Ext) (e : Endian) (z : BitVec 6) (p r : Half) :
    encodeF opc x e z p r &&& Format.f.reservedMask = 0 := by
  have hmask : Format.f.reservedMask = BitVec.allOnes 16 ++ 0#16 ++ 0#16 ++ 0#1 ++ 0#1 ++ 0#6 ++ 0#8 := by decide
  rw [hmask, encodeF]
  iterate 6 refine append_and_append_eq_zero ?_ BitVec.and_zero
  exact BitVec.zero_and

theorem encodeB_and_reservedMask (opc : BitVec 8) (l : BitVec 3) (o r : Half) :
    encodeB opc l o r &&& Format.b.reservedMask = 0 := by
  have hmask : Format.b.reservedMask = BitVec.allOnes 16 ++ 0#16 ++ 0#16 ++ BitVec.allOnes 5 ++ 0#3 ++ 0#8 := by decide
  rw [hmask, encodeB]
  iterate 2 refine append_and_append_eq_zero ?_ BitVec.and_zero
  refine append_and_append_eq_zero ?_ BitVec.zero_and
  iterate 2 refine append_and_append_eq_zero ?_ BitVec.and_zero
  exact BitVec.zero_and

theorem encodeX_and_reservedMask (opc : BitVec 8) (r : Half) : encodeX opc r &&& Format.x.reservedMask = 0 := by
  have hmask : Format.x.reservedMask = BitVec.allOnes 16 ++ 0#16 ++ BitVec.allOnes 24 ++ 0#8 := by decide
  rw [hmask, encodeX]
  refine append_and_append_eq_zero ?_ BitVec.and_zero
  refine append_and_append_eq_zero ?_ BitVec.zero_and
  exact append_and_append_eq_zero BitVec.zero_and BitVec.and_zero

theorem encodeXS_and_reservedMask (opc : BitVec 8) (s : BitVec 1) (r : Half) :
    encodeXS opc s r &&& Format.xs.reservedMask = 0 := by
  have hmask : Format.xs.reservedMask = BitVec.allOnes 16 ++ 0#16 ++ BitVec.allOnes 23 ++ 0#1 ++ 0#8 := by decide
  rw [hmask, encodeXS]
  iterate 2 refine append_and_append_eq_zero ?_ BitVec.and_zero
  refine append_and_append_eq_zero ?_ BitVec.zero_and
  exact append_and_append_eq_zero BitVec.zero_and BitVec.and_zero

/-- The word of a command has no 1 in a must-be-0 bit of its format (R93 to R98). -/
theorem encode_and_reservedMask (i : Instr) : encode i &&& i.opcode.2.reservedMask = 0 := by
  cases i with
  | nop | evtPop => decide
  | fldRd | fldWr => exact encodeF_and_reservedMask ..
  | bufRd | bufWr | sigRd | sigWr => exact encodeB_and_reservedMask ..
  | filtRdst | dmDisarm => exact encodeXS_and_reservedMask ..
  | _ => exact encodeX_and_reservedMask ..

/-- The word of a command carries the command's opcode (R91, R101). -/
theorem opcOf_encode (i : Instr) : opcOf (encode i) = i.opcode.1 := by
  cases i with
  | nop | evtPop => decide
  | fldRd | fldWr => exact Laws.opcOf_encodeF ..
  | bufRd | bufWr | sigRd | sigWr => exact Laws.opcOf_encodeB ..
  | filtRdst | dmDisarm => exact Laws.opcOf_encodeXS ..
  | _ => exact Laws.opcOf_encodeX ..

/-! ### The operand fields of an encoding string -/

theorem posOf_encodeF (opc : BitVec 8) (x : Ext) (e : Endian) (z : BitVec 6) (p r : Half) :
    posOf (encodeF opc x e z p r) = p := by
  unfold posOf encodeF
  iterate 4 rw [BitVec.extractLsb'_append_eq_of_le (by omega)]
  rw [BitVec.extractLsb'_append_eq_of_add_le (by omega)]
  exact BitVec.extractLsb'_eq_self

theorem szm1Of_encodeF (opc : BitVec 8) (x : Ext) (e : Endian) (z : BitVec 6) (p r : Half) :
    szm1Of (encodeF opc x e z p r) = z := by
  unfold szm1Of encodeF
  rw [BitVec.extractLsb'_append_eq_of_le (by omega), BitVec.extractLsb'_append_eq_of_add_le (by omega)]
  exact BitVec.extractLsb'_eq_self

theorem endianOf_encodeF (opc : BitVec 8) (x : Ext) (e : Endian) (z : BitVec 6) (p r : Half) :
    endianOf (encodeF opc x e z p r) = e := by
  have hbit : (encodeF opc x e z p r).getLsbD 14 = e.toBit.getLsbD 0 := by
    unfold encodeF
    iterate 3 rw [BitVec.getLsbD_append]
    simp
  rw [endianOf, hbit]
  cases e <;> rfl

theorem extOf_encodeF (opc : BitVec 8) (x : Ext) (e : Endian) (z : BitVec 6) (p r : Half) :
    extOf (encodeF opc x e z p r) = x := by
  have hbit : (encodeF opc x e z p r).getLsbD 15 = x.toBit.getLsbD 0 := by
    unfold encodeF
    iterate 4 rw [BitVec.getLsbD_append]
    simp
  rw [extOf, hbit]
  cases x <;> rfl

theorem posOf_encodeB (opc : BitVec 8) (l : BitVec 3) (o r : Half) : posOf (encodeB opc l o r) = o := by
  unfold posOf encodeB
  iterate 3 rw [BitVec.extractLsb'_append_eq_of_le (by omega)]
  rw [BitVec.extractLsb'_append_eq_of_add_le (by omega)]
  exact BitVec.extractLsb'_eq_self

theorem lnm1Of_encodeB (opc : BitVec 8) (l : BitVec 3) (o r : Half) : lnm1Of (encodeB opc l o r) = l := by
  unfold lnm1Of encodeB
  rw [BitVec.extractLsb'_append_eq_of_le (by omega), BitVec.extractLsb'_append_eq_of_add_le (by omega)]
  exact BitVec.extractLsb'_eq_self

theorem selOf_encodeXS (opc : BitVec 8) (s : BitVec 1) (r : Half) : selOf (encodeXS opc s r) = s.getLsbD 0 := by
  unfold selOf encodeXS
  iterate 2 rw [BitVec.getLsbD_append]
  simp

theorem filtSelOf_encodeXS (opc : BitVec 8) (s : FiltSel) (r : Half) : filtSelOf (encodeXS opc s.toBit r) = s := by
  rw [filtSelOf, selOf_encodeXS]
  cases s <;> rfl

/-! ### A word is the encoding string of its own fields -/

theorem extractLsb'_one (w : Word64) (k : Nat) : w.extractLsb' k 1 = BitVec.ofBool (w.getLsbD k) := by
  apply BitVec.eq_of_getLsbD_eq
  intro i hi
  simp [show i = 0 by omega]

theorem toBit_endianOf (w : Word64) : (endianOf w).toBit = w.extractLsb' 14 1 := by
  rw [extractLsb'_one, endianOf]
  cases w.getLsbD 14 <;> rfl

theorem toBit_extOf (w : Word64) : (extOf w).toBit = w.extractLsb' 15 1 := by
  rw [extractLsb'_one, extOf]
  cases w.getLsbD 15 <;> rfl

theorem ofBool_selOf (w : Word64) : BitVec.ofBool (selOf w) = w.extractLsb' 8 1 := (extractLsb'_one w 8).symm

theorem toBit_filtSelOf (w : Word64) : (filtSelOf w).toBit = w.extractLsb' 8 1 := by
  rw [← ofBool_selOf, filtSelOf]
  cases selOf w <;> rfl

/-! A word without a 1 in the must-be-0 bits of a format is the format's string over the word's own fields: the zeros of the string
are the word's bits there too, and adjacent runs of one word join (R93 to R98). -/

theorem encodeF_fields (w : Word64) (h : w &&& Format.f.reservedMask = 0) :
    encodeF (opcOf w) (extOf w) (endianOf w) (szm1Of w) (posOf w) (idxOf w) = w := by
  rw [encodeF, toBit_extOf, toBit_endianOf, ← extractLsb'_eq_zero_of_mask h 48 16 (by decide), opcOf, szm1Of, posOf, idxOf]
  iterate 6 rw [BitVec.extractLsb'_append_extractLsb'_eq_extractLsb' (by rfl)]
  exact BitVec.extractLsb'_eq_self

theorem encodeB_fields (w : Word64) (h : w &&& Format.b.reservedMask = 0) :
    encodeB (opcOf w) (lnm1Of w) (posOf w) (idxOf w) = w := by
  rw [encodeB, ← extractLsb'_eq_zero_of_mask h 48 16 (by decide), ← extractLsb'_eq_zero_of_mask h 11 5 (by decide), opcOf,
    lnm1Of, posOf, idxOf]
  iterate 5 rw [BitVec.extractLsb'_append_extractLsb'_eq_extractLsb' (by rfl)]
  exact BitVec.extractLsb'_eq_self

theorem encodeX_fields (w : Word64) (h : w &&& Format.x.reservedMask = 0) : encodeX (opcOf w) (idxOf w) = w := by
  rw [encodeX, ← extractLsb'_eq_zero_of_mask h 48 16 (by decide), ← extractLsb'_eq_zero_of_mask h 8 24 (by decide), opcOf,
    idxOf]
  iterate 3 rw [BitVec.extractLsb'_append_extractLsb'_eq_extractLsb' (by rfl)]
  exact BitVec.extractLsb'_eq_self

theorem encodeXS_fields (w : Word64) (h : w &&& Format.xs.reservedMask = 0) :
    encodeXS (opcOf w) (BitVec.ofBool (selOf w)) (idxOf w) = w := by
  rw [encodeXS, ofBool_selOf, ← extractLsb'_eq_zero_of_mask h 48 16 (by decide),
    ← extractLsb'_eq_zero_of_mask h 9 23 (by decide), opcOf, idxOf]
  iterate 4 rw [BitVec.extractLsb'_append_extractLsb'_eq_extractLsb' (by rfl)]
  exact BitVec.extractLsb'_eq_self

theorem encodeN_fields (w : Word64) (h : w &&& Format.n.reservedMask = 0) : encodeN (opcOf w) = w := by
  rw [encodeN, ← extractLsb'_eq_zero_of_mask h 32 32 (by decide), ← extractLsb'_eq_zero_of_mask h 8 24 (by decide), opcOf]
  iterate 2 rw [BitVec.extractLsb'_append_extractLsb'_eq_extractLsb' (by rfl)]
  exact BitVec.extractLsb'_eq_self

/-! ### The decoder, said once -/

/-- The command of the same row of the opcode table as `i`, with every operand field read from the word `w` (R91, R93 to R98). -/
def Instr.withFieldsOf (i : Instr) (w : Word64) : Instr :=
  match i with
  | .nop => .nop
  | .fldRd .. => .fldRd (extOf w) (endianOf w) (szm1Of w) (posOf w) (idxOf w)
  | .fldWr .. => .fldWr (extOf w) (endianOf w) (szm1Of w) (posOf w) (idxOf w)
  | .bufRd .. => .bufRd (lnm1Of w) (posOf w) (idxOf w)
  | .bufWr .. => .bufWr (lnm1Of w) (posOf w) (idxOf w)
  | .bufInit .. => .bufInit (idxOf w)
  | .sigRd .. => .sigRd (lnm1Of w) (posOf w) (idxOf w)
  | .sigWr .. => .sigWr (lnm1Of w) (posOf w) (idxOf w)
  | .dlenRd .. => .dlenRd (idxOf w)
  | .dlenWr .. => .dlenWr (idxOf w)
  | .grpCommit .. => .grpCommit (idxOf w)
  | .grpFetch .. => .grpFetch (idxOf w)
  | .filtEval .. => .filtEval (idxOf w)
  | .filtReset .. => .filtReset (idxOf w)
  | .filtRdst .. => .filtRdst (filtSelOf w) (idxOf w)
  | .dmArm .. => .dmArm (idxOf w)
  | .dmDisarm .. => .dmDisarm (selOf w) (idxOf w)
  | .dmClear .. => .dmClear (idxOf w)
  | .dmStat .. => .dmStat (idxOf w)
  | .tick .. => .tick (idxOf w)
  | .nowRd .. => .nowRd (idxOf w)
  | .evtPop => .evtPop

/-- A word with the opcode of `i` decodes to that command with the word's own fields, if the must-be-0 bits allow it (R100 steps
1 and 2). -/
theorem decode_of_opcOf (w : Word64) (i : Instr) (h : opcOf w = i.opcode.1) :
    decode w = checked i.opcode.2 w (i.withFieldsOf w) := by
  cases i <;> rw [decode, h] <;> rfl

/-- A word that decodes carries the opcode and the fields of its command, and no 1 in a must-be-0 bit. -/
theorem decode_eq_ok {w : Word64} {i : Instr} (h : decode w = .ok i) :
    opcOf w = i.opcode.1 ∧ w &&& i.opcode.2.reservedMask = 0 ∧ i.withFieldsOf w = i := by
  unfold decode at h
  split at h
  case h_23 => cases h
  all_goals
    next hopc =>
      obtain ⟨hmask, rfl⟩ := checked_eq_ok h
      exact ⟨BitVec.eq_of_toNat_eq hopc, hmask, rfl⟩

/-- A word with an unassigned opcode decodes to no command (R100 step 1, R102). -/
theorem decode_of_not_mem_assignedOpcodes (w : Word64) (h : (opcOf w).toNat ∉ Machine.assignedOpcodes) :
    decode w = .error .opc := by
  unfold decode
  split
  case h_23 => rfl
  all_goals
    next hopc => exact absurd (by rw [hopc]; decide) h

/-- The word of a command carries the command's own operand fields. -/
theorem withFieldsOf_encode (i : Instr) : i.withFieldsOf (encode i) = i := by
  cases i with
  | nop | evtPop => rfl
  | fldRd | fldWr =>
    simp only [Instr.withFieldsOf, encode, extOf_encodeF, endianOf_encodeF, szm1Of_encodeF, posOf_encodeF, Laws.idxOf_encodeF]
  | bufRd | bufWr | sigRd | sigWr =>
    simp only [Instr.withFieldsOf, encode, lnm1Of_encodeB, posOf_encodeB, Laws.idxOf_encodeB]
  | filtRdst => simp only [Instr.withFieldsOf, encode, filtSelOf_encodeXS, Laws.idxOf_encodeXS]
  | dmDisarm n k =>
    simp only [Instr.withFieldsOf, encode, selOf_encodeXS, Laws.idxOf_encodeXS]
    cases n <;> rfl
  | _ => simp only [Instr.withFieldsOf, encode, Laws.idxOf_encodeX]

/-- A word with the opcode of `i` and no 1 in a must-be-0 bit is the word of that command with the word's own fields. -/
theorem encode_withFieldsOf (w : Word64) (i : Instr) (hopc : opcOf w = i.opcode.1)
    (hmask : w &&& i.opcode.2.reservedMask = 0) : encode (i.withFieldsOf w) = w := by
  cases i with
  | nop | evtPop => exact (congrArg encodeN hopc.symm).trans (encodeN_fields w hmask)
  | fldRd | fldWr => exact (congrArg (encodeF · _ _ _ _ _) hopc.symm).trans (encodeF_fields w hmask)
  | bufRd | bufWr | sigRd | sigWr => exact (congrArg (encodeB · _ _ _) hopc.symm).trans (encodeB_fields w hmask)
  | filtRdst =>
    have hsel : (filtSelOf w).toBit = BitVec.ofBool (selOf w) := (toBit_filtSelOf w).trans (ofBool_selOf w).symm
    exact (congrArg₂ (encodeXS · · _) hopc.symm hsel).trans (encodeXS_fields w hmask)
  | dmDisarm => exact (congrArg (encodeXS · _ _) hopc.symm).trans (encodeXS_fields w hmask)
  | _ => exact (congrArg (encodeX · _) hopc.symm).trans (encodeX_fields w hmask)

/-! ### The encoding statements -/

/-- Settles O2: the word of a command carries its opcode and its fields and no 1 in a must-be-0 bit, which is all that the decoder
looks at. -/
theorem decodeOfEncodeIsTheCommand : Obligations.DecodeOfEncodeIsTheCommand := by
  intro i
  rw [decode_of_opcOf (encode i) i (opcOf_encode i), withFieldsOf_encode]
  exact checked_of_and_eq_zero _ _ _ (encode_and_reservedMask i)

/-- Settles O3: what the decoder read from the word is the opcode, the fields and the zeros, which make up the whole word. -/
theorem encodeOfDecodeIsTheWord : Obligations.EncodeOfDecodeIsTheWord := by
  intro w i h
  obtain ⟨hopc, hmask, hfields⟩ := decode_eq_ok h
  exact hfields ▸ encode_withFieldsOf w i hopc hmask

/-- The word that a command's encoding string gives decodes to the command. -/
theorem decode_of_encode_eq {w : Word64} {i : Instr} (h : encode i = w) : decode w = .ok i :=
  h ▸ decodeOfEncodeIsTheCommand i

/-- Settles O1: each word is what the encoding string of its command comes to. -/
theorem specWordsDecodeToTheirCommands : Obligations.SpecWordsDecodeToTheirCommands := by
  refine ⟨?_, ?_, ?_, ?_, ?_, ?_, ?_, ?_, ?_, ?_⟩ <;> exact decode_of_encode_eq (by decide)

end Sys2Proof

namespace Sys2Proof.Machine

/-! ### Which port an Exec step serves -/

/-- The two ports are all there are. -/
theorem PortId.eq_or_eq_other (p q : PortId) : q = p ∨ q = p.other := by
  cases p <;> cases q
  · exact .inl rfl
  · exact .inr rfl
  · exact .inr rfl
  · exact .inl rfl

theorem PortId.eq_of_ne_of_ne {p q r : PortId} (hp : p ≠ r) (hq : q ≠ r) : p = q :=
  ((PortId.eq_or_eq_other r p).resolve_left hp).trans ((PortId.eq_or_eq_other r q).resolve_left hq).symm

/-- All an Exec step can find: no busy port, or a busy port that it serves (R92, R325). -/
theorem State.execute_cases (s : State) (prefer : PortId) :
    ((∀ p, (s.port p).busy = false) ∧ s.execute prefer = .next s) ∨
    (∃ p, (s.port p).busy = true ∧ s.execute prefer = s.servePort p) := by
  unfold State.execute State.servedPort
  by_cases hp : (s.port prefer).busy = true
  · exact .inr ⟨prefer, hp, by rw [if_pos hp]⟩
  · rw [if_neg hp]
    by_cases ho : (s.port prefer.other).busy = true
    · exact .inr ⟨prefer.other, ho, by rw [if_pos ho]⟩
    · refine .inl ⟨fun q => ?_, by rw [if_neg ho]⟩
      rcases PortId.eq_or_eq_other prefer q with rfl | rfl
      · exact Bool.eq_false_iff.2 hp
      · exact Bool.eq_false_iff.2 ho

/-- Exec takes the port it prefers if that is busy (R92). -/
theorem State.execute_of_busy (s : State) (p : PortId) (h : (s.port p).busy = true) : s.execute p = s.servePort p := by
  rw [State.execute, State.servedPort, if_pos h]

/-- Exec takes the other port if the one it prefers is idle (R92, R77). -/
theorem State.execute_of_other_busy (s : State) (p : PortId) (h : (s.port p).busy = false)
    (ho : (s.port p.other).busy = true) : s.execute p = s.servePort p.other := by
  rw [State.execute, State.servedPort, if_neg (by simp [h]), if_pos ho]

/-- With no busy port Exec is idle (R325). -/
theorem State.execute_of_idle (s : State) (p : PortId) (h : (s.port p).busy = false)
    (ho : (s.port p.other).busy = false) : s.execute p = .next s := by
  rw [State.execute, State.servedPort, if_neg (by simp [h]), if_neg (by simp [ho])]

/-- A port whose word decodes is served by the meaning of its command (R92). -/
theorem State.servePort_of_ok (s : State) (p : PortId) (i : Instr) (h : decode (s.port p).cmd = .ok i) :
    s.servePort p = exec i { s with cur := p } := by
  rw [State.servePort, h]

/-- A port whose word decodes to no command is served by the error (R100 steps 1 and 2, R102). -/
theorem State.servePort_of_error (s : State) (p : PortId) (e : DecodeError) (hw : s.cfg.wf = true)
    (h : decode (s.port p).cmd = .error e) : s.servePort p = .next (State.raise { s with cur := p } (codeOf e)) := by
  rw [State.servePort, h]
  exact State.guarded_of_wf _ _ hw

/-- An Exec step that prefers a busy port serves it (R92). -/
theorem step_of_execute_busy (s : State) (p : PortId) (rest : List AgentStep) (hw : s.cfg.wf = true)
    (hs : s.sched = .execute p :: rest) (hp : (s.port p).busy = true) :
    step s = State.servePort { s with sched := rest } p :=
  (step_of_sched s _ rest hw hs).trans (State.execute_of_busy { s with sched := rest } p hp)

/-- Settles O4: the decoder answers with the error's name, and serving the port raises its code. -/
theorem illegalWordsEndWithErrOpcOrErrRsvd : Obligations.IllegalWordsEndWithErrOpcOrErrRsvd := by
  refine ⟨fun s p rest hw hs hp => ?_, decodeOfEncodeIsTheCommand .nop⟩
  rw [step_of_execute_busy s p rest hw hs hp]
  refine ⟨fun hopc => ?_, fun i hopc hmask => ?_⟩
  · exact State.servePort_of_error { s with sched := rest } p .opc hw (decode_of_not_mem_assignedOpcodes _ hopc)
  · refine State.servePort_of_error { s with sched := rest } p .rsvd hw ?_
    exact (decode_of_opcOf _ i hopc).trans (checked_of_and_ne_zero _ _ _ hmask)

/-- Settles O5: Exec serves the busy port it prefers. -/
theorem execStepRunsTheDecodedCommand : Obligations.ExecStepRunsTheDecodedCommand := by
  intro s p rest i hw hs hp hi
  rw [step_of_execute_busy s p rest hw hs hp]
  exact State.servePort_of_ok { s with sched := rest } p i hi

/-- Settles O6: with the preferred port idle, the other port decides. -/
theorem execServesABusyPort : Obligations.ExecServesABusyPort := by
  intro s p rest i hw hs hp
  rw [step_of_sched s _ rest hw hs, State.agentStep]
  refine ⟨fun ho hi => ?_, fun ho => State.execute_of_idle { s with sched := rest } p hp ho⟩
  rw [State.execute_of_other_busy { s with sched := rest } p hp ho]
  exact State.servePort_of_ok { s with sched := rest } p.other i hi

/-! ### What serving a port leaves -/

/-- Serving a port makes it idle and leaves the other port, the configuration and the schedule alone (R20, R92). -/
theorem State.servePort_leaves_idle (s : State) (p : PortId) (hw : s.cfg.wf = true) :
    ∃ t, s.servePort p = .next t ∧ t.cfg = s.cfg ∧ t.sched = s.sched ∧ (t.port p).busy = false ∧
      ∀ q, q ≠ p → t.port q = s.port q := by
  obtain ⟨t, ht⟩ := s.servePort_next p hw
  cases hd : decode (s.port p).cmd with
  | error e =>
    cases ht.symm.trans (s.servePort_of_error p e hw hd)
    refine ⟨_, ht, rfl, rfl, ?_, State.port_raise_other { s with cur := p } (codeOf e)⟩
    exact congrArg Port.busy (State.port_raise { s with cur := p } (codeOf e))
  | ok i =>
    have hexec := (s.servePort_of_ok p i hd).symm.trans ht
    obtain ⟨m, dl, fs, ds, ns, q, o, res, code, sub, rfl⟩ := exec_eq_next _ _ _ hexec
    refine ⟨_, ht, rfl, rfl, ?_, fun r => State.port_setPort_other (State.withFiles { s with cur := p } m dl fs ds ns q o) p r _⟩
    exact congrArg Port.busy (State.port_setPort_same _ p _)

/-- An Exec step answers a next state with the configuration and the schedule kept; it makes no port busy and leaves a port
idle (R92). -/
theorem State.execute_leaves_idle (s : State) (prefer : PortId) (hw : s.cfg.wf = true) :
    ∃ t, s.execute prefer = .next t ∧ t.cfg = s.cfg ∧ t.sched = s.sched ∧
      (∃ p, (t.port p).busy = false) ∧
      (∀ p, (s.port p).busy = false → ∀ q, (t.port q).busy = false) := by
  rcases s.execute_cases prefer with ⟨hidle, he⟩ | ⟨r, hr, he⟩
  · exact ⟨s, he, rfl, rfl, ⟨prefer, hidle prefer⟩, fun _ _ => hidle⟩
  · obtain ⟨t, ht, hcfg, hsched, hdone, hother⟩ := s.servePort_leaves_idle r hw
    refine ⟨t, he.trans ht, hcfg, hsched, ⟨r, hdone⟩, fun p hp q => ?_⟩
    by_cases hq : q = r
    · rw [hq, hdone]
    · have hp' : p ≠ r := by
        rintro rfl
        exact Bool.false_ne_true (hp.symm.trans hr)
      rw [hother q hq, PortId.eq_of_ne_of_ne hq hp', hp]

/-! ### Runs of several steps -/

/-- A run whose first step answers a next state goes on from there. -/
theorem runSteps_succ_of_step {s t : State} (n : Nat) (h : step s = .next t) : runSteps (n + 1) s = runSteps n t := by
  rw [runSteps, h]

/-- A run of one step is the step. -/
theorem runSteps_one (s : State) : runSteps 1 s = step s := by
  rw [runSteps]
  cases step s <;> rfl

/-- Settles O7: the first Exec step leaves a port idle, and an Exec step from a state with an idle port leaves both idle. -/
theorem twoExecStepsLeaveNoPortBusy : Obligations.TwoExecStepsLeaveNoPortBusy := by
  intro s p q rest hw hs
  obtain ⟨t, ht, htcfg, htsched, ⟨r, hr⟩, -⟩ := State.execute_leaves_idle { s with sched := .execute q :: rest } p hw
  have htw : t.cfg.wf = true := htcfg ▸ hw
  obtain ⟨u, hu, -, husched, -, hidle⟩ := State.execute_leaves_idle { t with sched := rest } q htw
  have hidle := hidle r hr
  refine ⟨u, ?_, hidle .p0, hidle .p1, husched⟩
  rw [runSteps_succ_of_step 1 ((step_of_sched s _ _ hw hs).trans ht), runSteps_one]
  exact (step_of_sched t _ _ htw htsched).trans hu

/-! ### The issue protocol -/

/-- The halves written low first and high second make up the whole register (R68). -/
theorem setHiHalf_setLoHalf (w v : Word64) : setHiHalf (setLoHalf w (loHalf v)) (hiHalf v) = v := by
  unfold setHiHalf setLoHalf loHalf hiHalf
  rw [BitVec.extractLsb'_append_eq_right, BitVec.extractLsb'_append_extractLsb'_eq_extractLsb' (by rfl)]
  exact BitVec.extractLsb'_eq_self

/-- Port `p` holding the registers `x`, with the agent steps `l` to come: the states between the writes of the issue protocol. -/
def State.staged (s : State) (p : PortId) (x : Port) (l : List AgentStep) : State := { s.setPort p x with sched := l }

theorem State.staged_self (s : State) (p : PortId) : s.staged p (s.port p) s.sched = s := by cases p <;> rfl

@[simp] theorem State.port_staged (s : State) (p : PortId) (x : Port) (l : List AgentStep) : (s.staged p x l).port p = x :=
  s.port_setPort_same p x

@[simp] theorem State.host_staged (s : State) (p : PortId) (x : Port) (l : List AgentStep) (h : HostId) :
    (s.staged p x l).host h = s.host h := by cases h <;> rfl

theorem State.setPort_staged (s : State) (p : PortId) (x y : Port) (l : List AgentStep) :
    (s.staged p x l).setPort p y = s.staged p y l := by cases p <;> rfl

/-- A write to the port's block that only stores in the idle port stages the new registers (R64). -/
theorem step_staged_of_latch (s : State) (h : HostId) (p : PortId) (x y : Port) (off : Nat) (w : Word32)
    (rest : List AgentStep) (hw : s.cfg.wf = true) (hx : x.busy = false) (hoff : off ≤ 0x1C) (halign : off % 4 = 0)
    (hreg : (s.staged p x rest).writeReg h (regOfOffset (portOffset p + off)) w = (s.staged p x rest).latch p y) :
    step (s.staged p x (.hostWrite h (s.cfg.blockBase + portOffset p + off) .w32 w :: rest)) = .next (s.staged p y rest) := by
  have hstep := step_of_hostWrite_port (s.staged p x (.hostWrite h (s.cfg.blockBase + portOffset p + off) .w32 w :: rest))
    h p off w rest hw rfl hoff halign
  refine hstep.trans (congrArg Host.Outcome.next ?_)
  refine hreg.trans ((State.latch_of_idle _ p y ?_).trans (s.setPort_staged p x y rest))
  rw [State.port_staged, hx]

/-- A write of CMD_HI to the idle port submits and counts (R29, R64). -/
theorem step_staged_cmdHi (s : State) (h : HostId) (p : PortId) (x : Port) (w : Word32) (rest : List AgentStep)
    (hw : s.cfg.wf = true) (hx : x.busy = false) :
    step (s.staged p x (.hostWrite h (s.cfg.blockBase + portOffset p + 0x04) .w32 w :: rest)) =
      .next ((s.setHost h { s.host h with nextCmd := (s.host h).nextCmd + 1 }).staged p
        { x with cmd := setHiHalf x.cmd w, busy := true } rest) := by
  have hstep := step_of_hostWrite_port (s.staged p x (.hostWrite h (s.cfg.blockBase + portOffset p + 0x04) .w32 w :: rest))
    h p 0x04 w rest hw rfl (by decide) (by decide)
  have hidle : ((s.staged p x rest).port p).busy = false := by rw [State.port_staged, hx]
  have hwrite := State.writeReg_cmdHi_of_idle (s.staged p x rest) h p w hidle
  rw [State.port_staged, State.host_staged] at hwrite
  rw [regOfOffset_cmdHi] at hstep
  refine hstep.trans (congrArg Host.Outcome.next (hwrite.trans ?_))
  cases p <;> rfl

/-- The writes of the issue protocol to an idle port leave the command and its operand in the port, which is busy then, and count
the submit (R105). -/
theorem runSteps_issueWrites (s : State) (h : HostId) (p : PortId) (x : Port) (cmd val : Word64) (rest : List AgentStep)
    (n : Nat) (hw : s.cfg.wf = true) (hx : x.busy = false) :
    runSteps (n + 4) (s.staged p x (issueWrites s.cfg h p cmd val ++ rest)) =
      runSteps n ((s.setHost h { s.host h with nextCmd := (s.host h).nextCmd + 1 }).staged p
        { x with cmd := cmd, val := val, busy := true } rest) := by
  have hstore := fun x y off w rest => step_staged_of_latch s h p x y off w rest hw
  have hcmdLo := fun x w rest hx => hstore x { x with cmd := setLoHalf x.cmd w } 0x00 w rest hx (by decide) (by decide)
    (by rw [regOfOffset_cmdLo, State.writeReg, State.port_staged])
  have hvalLo := fun x w rest hx => hstore x { x with val := setLoHalf x.val w } 0x08 w rest hx (by decide) (by decide)
    (by rw [regOfOffset_valLo, State.writeReg, State.port_staged])
  have hvalHi := fun x w rest hx => hstore x { x with val := setHiHalf x.val w } 0x0C w rest hx (by decide) (by decide)
    (by rw [regOfOffset_valHi, State.writeReg, State.port_staged])
  calc runSteps (n + 4) (s.staged p x (issueWrites s.cfg h p cmd val ++ rest))
      = runSteps (n + 3) _ := runSteps_succ_of_step _ (hcmdLo x _ _ hx)
    _ = runSteps (n + 2) _ := runSteps_succ_of_step _ (hvalLo _ _ _ hx)
    _ = runSteps (n + 1) _ := runSteps_succ_of_step _ (hvalHi _ _ _ hx)
    _ = runSteps n _ := runSteps_succ_of_step _ (step_staged_cmdHi s h p _ _ _ hw hx)
    _ = _ := by simp only [setHiHalf_setLoHalf, List.append_eq, List.nil_append]

/-- Settles O15: the writes leave the command in the port, and the Exec step serves it. -/
theorem issueProtocolRunsTheCommand : Obligations.IssueProtocolRunsTheCommand := by
  intro s h p cmd val i rest hw hidle hs hi
  have hself := s.staged_self p
  rw [hs, issue, List.append_assoc] at hself
  have hwrites := runSteps_issueWrites s h p (s.port p) cmd val (.execute p :: rest) 1 hw hidle
  have hexec := execStepRunsTheDecodedCommand
    ((s.setHost h { s.host h with nextCmd := (s.host h).nextCmd + 1 }).staged p
      { s.port p with cmd := cmd, val := val, busy := true } (.execute p :: rest)) p rest i hw rfl
    (by rw [State.port_staged]) (by rw [State.port_staged, hi])
  calc runSteps 5 s
      = runSteps 5 (s.staged p (s.port p) (issueWrites s.cfg h p cmd val ++ .execute p :: rest)) :=
        congrArg (runSteps 5) hself.symm
    _ = _ := hwrites.trans ((runSteps_one _).trans hexec)

end Sys2Proof.Machine

namespace Sys2Proof.Machine

/-! ### SUB -/

/-- What a command answers has SUB = 0 on its executing port, if it answers a next state. -/
def ClearsSub (r : Result) : Prop := ∀ t, r = .next t → (t.port t.cur).sub = false

/-- A completion that does not set SUB clears it, whatever was written before (R16). -/
theorem clearsSub_complete (s : State) (v : Word64) : ClearsSub (.next (s.complete v)) := by
  rintro u ⟨⟩
  exact congrArg Port.sub (s.port_complete v false)

/-- An error clears SUB (R15). -/
theorem clearsSub_raise (s : State) (e : StatusCode) : ClearsSub (.next (s.raise e)) := by
  rintro u ⟨⟩
  exact congrArg Port.sub (s.port_raise e)

theorem ClearsSub.guarded {r : Result} (h : ClearsSub r) (s : State) : ClearsSub (s.guarded r) :=
  fun t ht => h t (s.guarded_eq_next t r ht).2

theorem ClearsSub.require {r : Result} (h : ClearsSub r) (s : State) (ok : Bool) (e : StatusCode) :
    ClearsSub (s.require ok e r) := by
  cases ok with
  | false => exact clearsSub_raise s e
  | true => exact h

theorem clearsSub_guarded_indexed {α : Type} {s : State} {o : Option α} {k : α → Result} (h : ∀ x, ClearsSub (k x)) :
    ClearsSub (s.guarded (s.indexed o k)) := by
  cases o with
  | none => exact (clearsSub_raise s _).guarded s
  | some x => exact (h x).guarded s

/-- Every command but SIG_RD completes without SUB, or ends with an error (R15, R16). -/
theorem exec_clearsSub (s : State) (i : Instr) (hi : ∀ lnm1 off idx, i ≠ .sigRd lnm1 off idx) : ClearsSub (exec i s) := by
  cases i with
  | sigRd l o k => exact absurd rfl (hi l o k)
  | nop => exact (clearsSub_complete _ _).guarded s
  | fldRd | fldWr | bufRd | bufWr | dlenRd | dmArm =>
    exact clearsSub_guarded_indexed fun _ => (clearsSub_complete _ _).require s _ _
  | dlenWr => exact clearsSub_guarded_indexed fun _ => ((clearsSub_complete _ _).require s _ _).require s _ _
  | bufInit | filtEval | filtReset | filtRdst | dmDisarm | dmClear | dmStat =>
    exact clearsSub_guarded_indexed fun _ => clearsSub_complete _ _
  | sigWr =>
    refine clearsSub_guarded_indexed fun d => ?_
    split <;> exact (clearsSub_complete _ _).require s _ _
  | grpCommit | grpFetch =>
    refine clearsSub_guarded_indexed fun g => ?_
    split
    · exact clearsSub_raise s _
    · exact clearsSub_complete _ _
  | tick | nowRd => exact ((clearsSub_complete _ _).require s _ _).guarded s
  | evtPop =>
    refine ClearsSub.guarded ?_ s
    split <;> exact clearsSub_complete _ _

/-- Settles O21: a command ends with an error, which clears SUB, or with a completion, which sets it in SIG_RD only. -/
theorem everyCommandCompletesInOneStep : Obligations.EveryCommandCompletesInOneStep := by
  intro s i hw
  rcases exec_ends s i hw with ⟨e, -, he⟩ | ⟨m, dl, fs, ds, ns, q, o, v, b, he⟩
  · refine ⟨_, he, congrArg Port.busy (s.port_raise e), fun hsub => ?_⟩
    rw [State.port_raise] at hsub
    cases hsub
  · have hport := (s.withFiles m dl fs ds ns q o).port_complete v b
    refine ⟨_, he, congrArg Port.busy hport, fun hsub => ⟨congrArg Port.code hport, ?_⟩⟩
    by_contra hi
    have hclear := exec_clearsSub s i (fun l o k h => hi ⟨l, o, k, h⟩) _ he
    exact Bool.false_ne_true (hclear.symm.trans hsub)

/-! ### The DRAIN loop -/

/-- EVT_POP of an empty FIFO returns 0 (R263). -/
theorem execEvtPop_of_nil (s : State) (hw : s.cfg.wf = true) (h : s.evq = []) : execEvtPop s = .next (s.complete 0) := by
  rw [execEvtPop, State.guarded_of_wf _ _ hw, h]

/-- EVT_POP takes the oldest event and returns its word (R263). -/
theorem execEvtPop_of_cons (s : State) (e : Event) (rest : List Event) (hw : s.cfg.wf = true) (h : s.evq = e :: rest) :
    execEvtPop s = .next (State.complete { s with evq := rest } e.word) := by
  rw [execEvtPop, State.guarded_of_wf _ _ hw, h]

/-- The result of a completed command stands in RES of the executing port (R16). -/
theorem State.res_complete (s : State) (v : Word64) (b : Bool) : ((s.complete v b).port (s.complete v b).cur).res = v :=
  congrArg Port.res (s.port_complete v b)

/-- DRAIN stops at an empty FIFO (R104). -/
theorem drain_of_nil (n : Nat) (s : State) (hw : s.cfg.wf = true) (h : s.evq = []) :
    drain (n + 1) s = (s.complete 0, []) := by
  rw [drain, execEvtPop_of_nil s hw h]
  simp only [State.res_complete]
  exact if_neg (by decide)

/-- DRAIN pops the oldest event and goes on (R104). -/
theorem drain_of_cons (n : Nat) (s : State) (e : Event) (rest : List Event) (hw : s.cfg.wf = true)
    (h : s.evq = e :: rest) : drain (n + 1) s =
      ((drain n (State.complete { s with evq := rest } e.word)).1,
        e.word :: (drain n (State.complete { s with evq := rest } e.word)).2) := by
  rw [drain, execEvtPop_of_cons s e rest hw h]
  simp only [State.res_complete]
  exact if_pos e.word_fields.1

/-- An empty FIFO keeps IRQ low (R310). -/
theorem State.irq_of_nil (s : State) (h : s.evq = []) : s.irq = false := by simp [State.irq, h]

/-- The DRAIN loop with one turn more than there are events (R104). -/
theorem drain_of_evq (q : List Event) (s : State) (hw : s.cfg.wf = true) (hq : s.evq = q) :
    ∃ t, drain (q.length + 1) s = (t, q.map Event.word) ∧ t.evq = [] := by
  induction q generalizing s with
  | nil => exact ⟨s.complete 0, drain_of_nil 0 s hw hq, hq⟩
  | cons e rest ih =>
    obtain ⟨t, ht, hempty⟩ := ih (State.complete { s with evq := rest } e.word) hw rfl
    exact ⟨t, by rw [List.length_cons, drain_of_cons _ s e rest hw hq, ht, List.map_cons], hempty⟩

/-- Settles O25: by induction on the FIFO. -/
theorem drainReturnsEveryEventInOrder : Obligations.DrainReturnsEveryEventInOrder := by
  intro s hw
  obtain ⟨t, ht, hempty⟩ := drain_of_evq s.evq s hw rfl
  exact ⟨t, ht, hempty, t.irq_of_nil hempty⟩

/-! ### The type and range checks -/

/-- A command whose index names an entry goes on with it (R100 step 3). -/
theorem State.guarded_indexed_of_some {α : Type} (s : State) {o : Option α} {x : α} (k : α → Result)
    (hw : s.cfg.wf = true) (ho : o = some x) : s.guarded (s.indexed o k) = k x := by
  rw [State.guarded_of_wf _ _ hw, ho, State.indexed_some]

/-- A check that does not hold ends the command with its code (R100). -/
theorem State.require_of_eq_false (s : State) {ok : Bool} (e : StatusCode) (r : Result) (h : ok = false) :
    s.require ok e r = .next (s.raise e) := by
  rw [h, State.require_false]

/-- A check that holds lets the command go on (R100). -/
theorem State.require_of_eq_true (s : State) {ok : Bool} (e : StatusCode) (r : Result) (h : ok = true) :
    s.require ok e r = r := by
  rw [h, State.require_true]

/-- Settles O18: the type check is the first one after the index, and each of the three kinds of entry fails it. -/
theorem wrongKindEndsWithErrType : Obligations.WrongKindEndsWithErrType := by
  intro s idx off lnm1 hw
  refine ⟨fun d hd hscalar hchunk => ?_, fun d hd hkind => ?_, fun g hg hshadow => ?_⟩
  · have hcheck : (decide (lnm1 = 0) && decide (off = 0)) = false := by
      rw [← Bool.decide_and]
      exact decide_eq_false (not_and_or.2 hchunk)
    constructor <;> refine (s.guarded_indexed_of_some _ hw hd).trans ((if_pos hscalar).trans ?_)
    · exact s.require_of_eq_false _ _ hcheck
    · exact s.require_of_eq_false _ _ hcheck
  · have hcheck := decide_eq_false hkind
    constructor <;> refine (s.guarded_indexed_of_some _ hw hd).trans ?_
    · exact s.require_of_eq_false _ _ hcheck
    · exact s.require_of_eq_false _ _ hcheck
  · constructor <;> refine (s.guarded_indexed_of_some _ hw hg).trans ?_ <;> rw [hshadow]

/-- A field that ends past its region does not fit: the end of a little-endian field counts from its position, that of a big-endian
field from its MSB-first index (R124). -/
theorem fits_eq_false_of_lt (r : Region) (e : Endian) (pos size : Nat)
    (h : (e = .le ∧ 8 * r.size < pos + size) ∨ (e = .be ∧ 8 * r.size < msbIndex pos + size)) :
    r.fits e pos size = false := by
  rcases h with ⟨rfl, h⟩ | ⟨rfl, h⟩
  · exact decide_eq_false (Nat.not_le.2 h)
  · exact decide_eq_false (Nat.not_le.2 h)

/-- Settles O19: the range check fails on each access past the end, after the checks of the index and the type. -/
theorem outOfRangeEndsWithErrRange : Obligations.OutOfRangeEndsWithErrRange := by
  intro s x e szm1 lnm1 off idx hw
  refine ⟨fun r hr hout => ?_, fun r hr hout => ?_, fun d hd hscalar hout => ?_, fun d hd hkind hout => ?_⟩
  · have hcheck := fits_eq_false_of_lt r e off.toNat (fieldSize szm1) hout
    constructor <;> refine (s.guarded_indexed_of_some _ hw hr).trans ?_
    · exact s.require_of_eq_false _ _ hcheck
    · exact s.require_of_eq_false _ _ hcheck
  · have hcheck := decide_eq_false (Nat.not_le.2 hout)
    constructor <;> refine (s.guarded_indexed_of_some _ hw hr).trans ?_
    · exact s.require_of_eq_false _ _ hcheck
    · exact s.require_of_eq_false _ _ hcheck
  · have harray : ¬ d.kind.isScalar = true := Bool.eq_false_iff.1 hscalar
    have hcheck := decide_eq_false (Nat.not_le.2 hout)
    constructor <;> refine (s.guarded_indexed_of_some _ hw hd).trans ((if_neg harray).trans ?_)
    · exact s.require_of_eq_false _ _ hcheck
    · exact s.require_of_eq_false _ _ hcheck
  · refine (s.guarded_indexed_of_some _ hw hd).trans ?_
    refine (s.require_of_eq_true _ _ (decide_eq_true hkind)).trans ?_
    exact s.require_of_eq_false _ _ (decide_eq_false (Nat.not_le.2 hout))

end Sys2Proof.Machine

namespace Sys2Proof.Machine

/-! ### The extension multiplexer, bit by bit -/

/-- The constant that `sext_64` adds is ones from bit `size` on (R13). -/
theorem getLsbD_signMask (size i : Nat) (hs : size ≤ 64) (hi : i < 64) :
    (BitVec.ofNat 64 (2 ^ 64 - 2 ^ size)).getLsbD i = decide (size ≤ i) := by
  have hle : 2 ^ size ≤ 2 ^ 64 := Nat.pow_le_pow_right (by decide) hs
  have hpos : 0 < 2 ^ size := Nat.two_pow_pos size
  have hmask : BitVec.ofNat 64 (2 ^ 64 - 2 ^ size) = ~~~BitVec.ofNat 64 (2 ^ size - 1) := by
    apply BitVec.eq_of_toNat_eq
    simp only [BitVec.toNat_not, BitVec.toNat_ofNat]
    omega
  rw [hmask, BitVec.getLsbD_not, BitVec.getLsbD_ofNat, Nat.testBit_two_pow_sub_one]
  simp only [hi, decide_true, Bool.true_and, ← decide_not, Nat.not_lt]

/-- `sext_64` keeps the bits of the field and repeats its top bit above (R13): the sum has no carry. -/
theorem getLsbD_signExtend (size i : Nat) (f : Word64) (hs : size ≤ 64) (hf : ∀ j, size ≤ j → f.getLsbD j = false)
    (hi : i < 64) :
    (signExtend size f).getLsbD i = if i < size then f.getLsbD i else f.getLsbD (size - 1) := by
  unfold signExtend
  cases htop : f.getLsbD (size - 1) with
  | false =>
    by_cases h : i < size
    · simp [h]
    · simp [h, hf i (Nat.not_lt.1 h)]
  | true =>
    have hdisjoint : f &&& BitVec.ofNat 64 (2 ^ 64 - 2 ^ size) = 0#64 := by
      apply BitVec.eq_of_getLsbD_eq
      intro j hj
      rw [BitVec.getLsbD_and, getLsbD_signMask size j hs hj]
      by_cases h : size ≤ j
      · simp [hf j h]
      · simp [h]
    rw [if_pos rfl, BitVec.add_eq_or_of_and_eq_zero _ _ hdisjoint, BitVec.getLsbD_or, getLsbD_signMask size i hs hi]
    by_cases h : i < size
    · simp [h]
    · simp [h, Nat.not_lt.1 h]

theorem fieldSize_le (szm1 : BitVec 6) : fieldSize szm1 ≤ 64 := szm1.isLt

theorem lt_fieldSize_iff (szm1 : BitVec 6) (i : Nat) : i < fieldSize szm1 ↔ i ≤ szm1.toNat := Nat.lt_succ_iff

theorem chunkLen_le (lnm1 : BitVec 3) : chunkLen lnm1 ≤ 8 := lnm1.isLt

/-- The 64 bits of a decoded field whose bits are `bit` (R128): the field, and above it copies of its top bit under S = 1 and zeros
under S = 0. -/
theorem getLsbD_extend (x : Ext) (szm1 : BitVec 6) (f : Word64) (bit : Nat → Bool)
    (hf : ∀ i, f.getLsbD i = (decide (i < fieldSize szm1) && bit i)) :
    (∀ i ≤ szm1.toNat, (extend x (fieldSize szm1) f).getLsbD i = bit i) ∧
    (∀ i, szm1.toNat < i → i < 64 → (extend x (fieldSize szm1) f).getLsbD i = (decide (x = .sign) && bit szm1.toNat)) := by
  have hsize := fieldSize_le szm1
  have hin : ∀ i ≤ szm1.toNat, f.getLsbD i = bit i := fun i hi => by
    rw [hf, decide_eq_true ((lt_fieldSize_iff szm1 i).2 hi), Bool.true_and]
  have hout : ∀ i, fieldSize szm1 ≤ i → f.getLsbD i = false := fun i hi => by
    rw [hf, decide_eq_false (Nat.not_lt.2 hi), Bool.false_and]
  cases x with
  | zero => exact ⟨hin, fun i hi _ => hout i hi⟩
  | sign =>
    refine ⟨fun i hi => ?_, fun i hi h64 => ?_⟩
    · have hlt : i < fieldSize szm1 := (lt_fieldSize_iff szm1 i).2 hi
      rw [extend, getLsbD_signExtend _ _ _ hsize hout (Nat.lt_of_lt_of_le hlt hsize), if_pos hlt, hin i hi]
    · have hge : ¬ i < fieldSize szm1 := Nat.not_lt.2 hi
      rw [extend, getLsbD_signExtend _ _ _ hsize hout h64, if_neg hge]
      exact hin _ (Nat.le_refl _)

/-! ### The raw commands past their checks -/

/-- FLD_RD of a field that fits (R130). -/
theorem execFldRd_of_fits (s : State) (x : Ext) (e : Endian) (szm1 : BitVec 6) (pos idx : Half) (r : Region)
    (hw : s.cfg.wf = true) (hr : s.cfg.regions[idx.toNat]? = some r) (hfit : r.fits e pos.toNat (fieldSize szm1) = true) :
    execFldRd x e szm1 pos idx s =
      .next (s.complete (extend x (fieldSize szm1) (s.extract r e pos.toNat (fieldSize szm1)))) :=
  (s.guarded_indexed_of_some _ hw hr).trans (s.require_of_eq_true _ _ hfit)

/-- FLD_WR of a field that fits (R131). -/
theorem execFldWr_of_fits (s : State) (x : Ext) (e : Endian) (szm1 : BitVec 6) (pos idx : Half) (r : Region)
    (hw : s.cfg.wf = true) (hr : s.cfg.regions[idx.toNat]? = some r) (hfit : r.fits e pos.toNat (fieldSize szm1) = true) :
    execFldWr x e szm1 pos idx s =
      .next ((s.insert r e pos.toNat (fieldSize szm1) (trunc (fieldSize szm1) s.operand)).complete
        (extend x (fieldSize szm1) (trunc (fieldSize szm1) s.operand))) :=
  (s.guarded_indexed_of_some _ hw hr).trans (s.require_of_eq_true _ _ hfit)

/-- BUF_RD of bytes inside the region (R132). -/
theorem execBufRd_of_le (s : State) (lnm1 : BitVec 3) (off idx : Half) (r : Region) (hw : s.cfg.wf = true)
    (hr : s.cfg.regions[idx.toNat]? = some r) (hin : off.toNat + chunkLen lnm1 ≤ r.size) :
    execBufRd lnm1 off idx s = .next (s.complete (packBytes (s.memRead (r.base + off.toNat) (chunkLen lnm1)))) :=
  (s.guarded_indexed_of_some _ hw hr).trans (s.require_of_eq_true _ _ (decide_eq_true hin))

/-- BUF_WR of bytes inside the region (R133). -/
theorem execBufWr_of_le (s : State) (lnm1 : BitVec 3) (off idx : Half) (r : Region) (hw : s.cfg.wf = true)
    (hr : s.cfg.regions[idx.toNat]? = some r) (hin : off.toNat + chunkLen lnm1 ≤ r.size) :
    execBufWr lnm1 off idx s =
      .next ((s.memWrite (r.base + off.toNat) (unpackBytes (chunkLen lnm1) s.operand)).complete 0) :=
  (s.guarded_indexed_of_some _ hw hr).trans (s.require_of_eq_true _ _ (decide_eq_true hin))

/-- BUF_INIT of a region that exists (R134). -/
theorem execBufInit_of_region (s : State) (idx : Half) (r : Region) (hw : s.cfg.wf = true)
    (hr : s.cfg.regions[idx.toNat]? = some r) :
    execBufInit idx s = .next ((s.memWrite r.base (s.cfg.initBytes r.base r.size)).complete 0) :=
  s.guarded_indexed_of_some _ hw hr

/-! ### Field commands -/

/-- Settles O26: the bits of the extraction, extended. -/
theorem fldRdReturnsTheField : Obligations.FldRdReturnsTheField := by
  intro s x e szm1 pos idx r hw hr hfit
  exact ⟨_, execFldRd_of_fits s x e szm1 pos idx r hw hr hfit,
    getLsbD_extend x szm1 _ _ fun i => s.getLsbD_extract r e pos.toNat (fieldSize szm1) i (fieldSize_le szm1)⟩

/-- Settles O27: the bits an insertion leaves, and the bits of the truncated operand, extended. -/
theorem fldWrStoresOnlyTheField : Obligations.FldWrStoresOnlyTheField := by
  intro s x e szm1 pos idx r hw hr hfit
  have hbits := fun i => getLsbD_trunc (fieldSize szm1) i s.operand (fieldSize_le szm1)
  have hexec := execFldWr_of_fits s x e szm1 pos idx r hw hr hfit
  have hfield := s.bitAt_insert_field r e pos.toNat (fieldSize szm1) (trunc (fieldSize szm1) s.operand)
  have hother := s.bitAt_insert_other r e pos.toNat (fieldSize szm1) (trunc (fieldSize szm1) s.operand)
  obtain ⟨m, hm⟩ := s.insert_frame r e pos.toNat (fieldSize szm1) (trunc (fieldSize szm1) s.operand)
  rw [hm] at hexec hfield hother
  refine ⟨m, _, hexec, fun i hi => ?_, fun k hk => ?_, getLsbD_extend x szm1 _ _ hbits⟩
  · have hlt : i < fieldSize szm1 := Nat.lt_succ_of_le hi
    have hbit := hfield i hlt
    rwa [hbits, decide_eq_true hlt, Bool.true_and] at hbit
  · exact hother k fun i hi => hk i (Nat.le_of_lt_succ hi)

/-- A field just inserted is extracted truncated to its size, whatever PBUF held (R135). -/
theorem State.extract_insert (s : State) (r : Region) (e : Endian) (pos size : Nat) (f : Word64) (hs : size ≤ 64) :
    (s.insert r e pos size f).extract r e pos size = trunc size f := by
  apply BitVec.eq_of_getLsbD_eq
  intro i _
  rw [State.getLsbD_extract _ _ _ _ _ _ hs, getLsbD_trunc _ _ _ hs]
  by_cases h : i < size
  · rw [State.bitAt_insert_field _ _ _ _ _ _ _ h]
  · simp [h]

/-- A completion leaves every field of PBUF alone (R16). -/
theorem State.extract_complete (s : State) (v : Word64) (b : Bool) (r : Region) (e : Endian) (pos size : Nat) :
    (s.complete v b).extract r e pos size = s.extract r e pos size := rfl

theorem trunc_trunc (size : Nat) (v : Word64) : trunc size (trunc size v) = trunc size v := by
  rw [trunc, trunc, BitVec.and_assoc, BitVec.and_self]

/-- FLD_RD after FLD_WR of the same field completes with what FLD_WR completed with (R135). -/
theorem execFldRd_after_execFldWr (s : State) (x : Ext) (e : Endian) (szm1 : BitVec 6) (pos idx : Half) (r : Region)
    (hw : s.cfg.wf = true) (hr : s.cfg.regions[idx.toNat]? = some r) (hfit : r.fits e pos.toNat (fieldSize szm1) = true) :
    ∃ t u, execFldWr x e szm1 pos idx s = .next t ∧ execFldRd x e szm1 pos idx t = .next u ∧
      (u.port s.cur).code = .ok ∧
      (u.port s.cur).res = extend x (fieldSize szm1) (trunc (fieldSize szm1) s.operand) := by
  have hwrite := execFldWr_of_fits s x e szm1 pos idx r hw hr hfit
  have hback := s.extract_insert r e pos.toNat (fieldSize szm1) (trunc (fieldSize szm1) s.operand) (fieldSize_le szm1)
  obtain ⟨m, hm⟩ := s.insert_frame r e pos.toNat (fieldSize szm1) (trunc (fieldSize szm1) s.operand)
  rw [hm] at hwrite hback
  have hread := execFldRd_of_fits
    (State.complete { s with pbuf := m } (extend x (fieldSize szm1) (trunc (fieldSize szm1) s.operand)))
    x e szm1 pos idx r hw hr hfit
  rw [State.extract_complete, hback, trunc_trunc] at hread
  exact ⟨_, _, hwrite, hread, congrArg Port.code (State.port_complete _ _ _), congrArg Port.res (State.port_complete _ _ _)⟩

/-- Settles O31: the read-back of an insertion is the truncated operand. -/
theorem fieldRoundTrip : Obligations.FieldRoundTrip := execFldRd_after_execFldWr

/-- Sign extension gives a word back that repeats bit `szm1` above it (R136). -/
theorem extend_trunc_of_signed (szm1 : BitVec 6) (v : Word64)
    (hv : ∀ i, szm1.toNat < i → i < 64 → v.getLsbD i = v.getLsbD szm1.toNat) :
    extend .sign (fieldSize szm1) (trunc (fieldSize szm1) v) = v := by
  obtain ⟨hfield, habove⟩ := getLsbD_extend .sign szm1 _ _ fun i => getLsbD_trunc (fieldSize szm1) i v (fieldSize_le szm1)
  apply BitVec.eq_of_getLsbD_eq
  intro i hi
  rcases Nat.lt_or_ge szm1.toNat i with h | h
  · rw [habove i h hi, hv i h hi, decide_eq_true rfl, Bool.true_and]
  · exact hfield i h

/-- Settles O32: the bits of -1 from bit N-1 on are all 1, those of `2^(N-1) - 1` are all 0. -/
theorem signedFieldsReadBackSignExtended : Obligations.SignedFieldsReadBackSignExtended := by
  intro s e szm1 pos idx r hw hr hfit hsize hv
  obtain ⟨t, u, hwrite, hread, -, hres⟩ := execFldRd_after_execFldWr s .sign e szm1 pos idx r hw hr hfit
  refine ⟨t, u, hwrite, hread, hres.trans (extend_trunc_of_signed szm1 _ fun i hi h64 => ?_)⟩
  rcases hv with hv | hv
  · rw [hv, BitVec.getLsbD_allOnes, BitVec.getLsbD_allOnes, decide_eq_true h64, decide_eq_true (Nat.lt_trans hi h64)]
  · simp [hv, BitVec.getLsbD_ofNat, Nat.testBit_two_pow_sub_one, Nat.not_lt.2 (Nat.le_of_lt hi)]

/-! ### Byte commands -/

/-- Byte k of a memory read of n bytes, and 0 past its end (R14, R70). -/
theorem State.getD_memRead (s : State) (a n k : Nat) : (s.memRead a n).getD k 0 = if k < n then s.byteAt (a + k) else 0 := by
  by_cases h : k < n
  · simp [State.memRead, h]
  · simp [State.memRead, h]

/-- Settles O28: the packed bytes of the memory read. -/
theorem bufRdReturnsItsBytes : Obligations.BufRdReturnsItsBytes := by
  intro s lnm1 off idx r hw hr hin
  refine ⟨_, execBufRd_of_le s lnm1 off idx r hw hr hin, fun k _ => ?_⟩
  have hlen : (s.memRead (r.base + off.toNat) (chunkLen lnm1)).length ≤ 8 := by
    rw [State.length_memRead]
    exact chunkLen_le lnm1
  rw [extractLsb'_packBytes _ k hlen, State.getD_memRead]
  exact if_congr Nat.lt_succ_iff rfl rfl

/-- A write of `n` bytes `g 0`, ..., `g (n-1)` changes PBUF only: byte k at its k-th address, every other byte as it was (R14). -/
theorem State.memWrite_map_range (s : State) (a n : Nat) (g : Nat → Byte) :
    ∃ m, s.memWrite a ((List.range n).map g) = { s with pbuf := m } ∧
      (∀ k < n, State.byteAt { s with pbuf := m } (a + k) = g k) ∧
      (∀ b, b < a ∨ a + n ≤ b → State.byteAt { s with pbuf := m } b = s.byteAt b) := by
  have hlen : ((List.range n).map g).length = n := by simp
  obtain ⟨m, hm⟩ := s.memWrite_frame a ((List.range n).map g)
  refine ⟨m, hm, fun k hk => ?_, fun b hb => ?_⟩
  · rw [← hm, State.byteAt_memWrite, dif_pos (by omega)]
    simp
  · rw [← hm, State.byteAt_memWrite, dif_neg (by omega)]

/-- Settles O29: the unpacked bytes of the operand stand at their addresses. -/
theorem bufWrStoresOnlyItsBytes : Obligations.BufWrStoresOnlyItsBytes := by
  intro s lnm1 off idx r hw hr hin
  have hexec := execBufWr_of_le s lnm1 off idx r hw hr hin
  obtain ⟨m, hm, hbytes, hother⟩ :=
    s.memWrite_map_range (r.base + off.toNat) (chunkLen lnm1) fun k => s.operand.extractLsb' (8 * k) 8
  rw [unpackBytes, hm] at hexec
  exact ⟨m, hexec, fun k hk => hbytes k (Nat.lt_succ_of_le hk), hother⟩

/-- Settles O30: the bytes of INITIMG stand at the region's addresses. -/
theorem bufInitReloadsTheRegion : Obligations.BufInitReloadsTheRegion := by
  intro s idx r hw hr
  have hexec := execBufInit_of_region s idx r hw hr
  obtain ⟨m, hm, hbytes, hother⟩ := s.memWrite_map_range r.base r.size fun k => s.cfg.initByte (r.base + k)
  rw [Cfg.initBytes, hm] at hexec
  refine ⟨m, hexec, fun a hlo hhi => ?_, hother⟩
  obtain ⟨k, rfl⟩ := Nat.exists_eq_add_of_le hlo
  exact hbytes k (Nat.add_lt_add_iff_left.1 hhi)

/-! ### Laws of insertion -/

/-- Settles O33: each bit of PBUF is in one of the two fields or in neither, and the insertion of the other field keeps it. -/
theorem disjointFieldWritesCommute : Obligations.DisjointFieldWritesCommute := by
  intro s r q e g pos size pos' size' f h hdisjoint a
  have hd : ∀ i < size, ∀ j < size', r.bit (bitAddr e pos size i) ≠ q.bit (bitAddr g pos' size' j) := hdisjoint
  refine State.byteAt_eq_of_bitAt _ _ a a fun j _ => ?_
  generalize 8 * a + j = k
  by_cases hf : ∃ i < size, k = r.bit (bitAddr e pos size i)
  · obtain ⟨i, hi, rfl⟩ := hf
    rw [State.bitAt_insert_other _ _ _ _ _ _ _ (hd i hi), State.bitAt_insert_field _ _ _ _ _ _ _ hi,
      State.bitAt_insert_field _ _ _ _ _ _ _ hi]
  · have hf : ∀ i < size, k ≠ r.bit (bitAddr e pos size i) := fun i hi hk => hf ⟨i, hi, hk⟩
    rw [State.bitAt_insert_other _ r _ _ _ _ _ hf]
    by_cases hh : ∃ i < size', k = q.bit (bitAddr g pos' size' i)
    · obtain ⟨i, hi, rfl⟩ := hh
      rw [State.bitAt_insert_field _ _ _ _ _ _ _ hi, State.bitAt_insert_field _ _ _ _ _ _ _ hi]
    · have hh : ∀ i < size', k ≠ q.bit (bitAddr g pos' size' i) := fun i hi hk => hh ⟨i, hi, hk⟩
      rw [State.bitAt_insert_other _ _ _ _ _ _ _ hh, State.bitAt_insert_other _ _ _ _ _ _ _ hh,
        State.bitAt_insert_other _ _ _ _ _ _ _ hf]

/-- The bit addresses of byte `a` are `8a`, ..., `8a + 7` (R14). -/
theorem State.bitAt_mul_add (s : State) (a m : Nat) (hm : m < 8) : s.bitAt (8 * a + m) = (s.byteAt a).getLsbD m := by
  rw [State.bitAt, show (8 * a + m) / 8 = a by omega, show (8 * a + m) % 8 = m by omega]

/-- A byte of PBUF whose bits are the field bits from `lo` on, in order, holds those bits of the value after an insertion (R127). -/
theorem State.byteAt_insert (s : State) (r : Region) (e : Endian) (pos size a lo : Nat) (f : Word64) (hlo : lo + 8 ≤ size)
    (haddr : ∀ m < 8, 8 * a + m = r.bit (bitAddr e pos size (lo + m))) :
    (s.insert r e pos size f).byteAt a = f.extractLsb' lo 8 := by
  apply BitVec.eq_of_getLsbD_eq
  intro m hm
  have hbit := s.bitAt_insert_field r e pos size f (lo + m) (by omega)
  rw [← haddr m hm, State.bitAt_mul_add _ _ _ hm] at hbit
  rw [hbit, BitVec.getLsbD_extractLsb', decide_eq_true hm, Bool.true_and]

/-- Settles O34: bit m of region byte b+j is value bit `8(k-1-j) + m` of the big-endian field and `8j + m` of the little-endian
one. -/
theorem alignedBigEndianFieldReversesBytes : Obligations.AlignedBigEndianFieldReversesBytes := by
  intro s r b k j f _ hj
  constructor
  · refine s.byteAt_insert r .be _ _ _ _ f (by omega) fun m hm => ?_
    simp only [Region.bit, bitAddr, msbIndex]
    omega
  · refine s.byteAt_insert r .le _ _ _ _ f (by omega) fun m hm => ?_
    simp only [Region.bit, bitAddr]
    omega

/-! ### The shifter form -/

/-- The MSB-first index of a bit stays in the bit's byte (R123). -/
theorem msbIndex_div_eight (k : Nat) : msbIndex k / 8 = k / 8 := by
  simp only [msbIndex]
  omega

/-- The MSB-first index counts within a byte, so whole bytes before a bit pass through it (R123). -/
theorem msbIndex_mul_add (b k : Nat) : msbIndex (8 * b + k) = 8 * b + msbIndex k := by
  simp only [msbIndex]
  omega

theorem bytesLe_lt (s : State) (r : Region) (b0 n : Nat) : bytesLe s r b0 n < 2 ^ (8 * n) := by
  induction n with
  | zero => exact Nat.one_pos
  | succ n ih =>
    have hbyte := (s.byteAt (r.base + b0 + n)).isLt
    calc bytesLe s r b0 n + (s.byteAt (r.base + b0 + n)).toNat * 2 ^ (8 * n)
        < (1 + (s.byteAt (r.base + b0 + n)).toNat) * 2 ^ (8 * n) := by rw [Nat.add_mul]; omega
      _ ≤ 2 ^ 8 * 2 ^ (8 * n) := Nat.mul_le_mul_right _ (by omega)
      _ = 2 ^ (8 * (n + 1)) := by rw [← Nat.pow_add]; congr 1; omega

/-- Bit i of the little-endian bytes is bit `i % 8` of byte `i / 8` (R129). -/
theorem testBit_bytesLe (s : State) (r : Region) (b0 n i : Nat) (hi : i < 8 * n) :
    (bytesLe s r b0 n).testBit i = s.bitAt (8 * (r.base + b0) + i) := by
  induction n with
  | zero => omega
  | succ n ih =>
    rw [bytesLe, Nat.add_comm, Nat.mul_comm, Nat.testBit_two_pow_mul_add _ (bytesLe_lt s r b0 n)]
    by_cases h : i < 8 * n
    · rw [if_pos h, ih h]
    · rw [if_neg h, BitVec.testBit_toNat, ← State.bitAt_mul_add _ _ _ (by omega)]
      congr 1
      omega

/-- Bit `8n-1-i` of the big-endian bytes stands at the MSB-first index `i` (R123, R129). -/
theorem testBit_bytesBe (s : State) (r : Region) (b0 n i : Nat) (hi : i < 8 * n) :
    (bytesBe s r b0 n).testBit (8 * n - 1 - i) = s.bitAt (8 * (r.base + b0) + msbIndex i) := by
  induction n with
  | zero => omega
  | succ n ih =>
    rw [bytesBe, Nat.mul_comm, Nat.testBit_two_pow_mul_add (i := 8) _ (s.byteAt _).isLt]
    by_cases h : i < 8 * n
    · rw [if_neg (by omega), show 8 * (n + 1) - 1 - i - 8 = 8 * n - 1 - i by omega, ih h]
    · rw [if_pos (by omega), BitVec.testBit_toNat, ← State.bitAt_mul_add _ _ _ (by omega)]
      congr 1
      simp only [msbIndex]
      omega

/-- An extraction is the shifted and masked value `B` when bit `sh + i` of `B` is field bit i (R129). -/
theorem State.extract_toNat_of_testBit (s : State) (r : Region) (e : Endian) (pos size B sh : Nat) (hs : size ≤ 64)
    (hB : ∀ i < size, B.testBit (sh + i) = s.bitAt (r.bit (bitAddr e pos size i))) :
    (s.extract r e pos size).toNat = B / 2 ^ sh % 2 ^ size := by
  apply Nat.eq_of_testBit_eq
  intro i
  rw [BitVec.testBit_toNat, State.getLsbD_extract _ _ _ _ _ _ hs, Nat.testBit_mod_two_pow, Nat.testBit_div_two_pow]
  by_cases h : i < size
  · rw [Nat.add_comm i sh, hB i h]
  · simp [h]

/-- Settles O35: the bytes touched hold every field bit, at the shift that R129 gives. -/
theorem shifterFormEqualsExtraction : Obligations.ShifterFormEqualsExtraction := by
  intro s r pos size h1 hs
  refine ⟨fun _ => s.extract_toNat_of_testBit r .le pos size _ _ hs fun i hi => ?_,
    fun _ => s.extract_toNat_of_testBit r .be pos size _ _ hs fun i hi => ?_⟩
  · rw [testBit_bytesLe s r _ _ _ (by omega)]
    simp only [Region.bit, bitAddr]
    congr 1
    omega
  · have hdiv := msbIndex_div_eight pos
    have hsplit : msbIndex pos + size - 1 - i = 8 * (pos / 8) + (msbIndex pos + size - 1 - i - 8 * (pos / 8)) := by omega
    rw [Region.bit, bitAddr, hsplit, msbIndex_mul_add, ← Nat.add_assoc, ← Nat.mul_add,
      ← testBit_bytesBe s r (pos / 8) ((msbIndex pos + size - 1) / 8 - pos / 8 + 1) _ (by omega)]
    congr 1
    omega

end Sys2Proof.Machine

namespace Sys2Proof

/-! ### What a well-formed configuration says of a signal -/

/-- The update bit of a scalar is none of its field bits (CW-SIG-UB). -/
theorem Cfg.wf_scalar_bit_ne_ub (c : Cfg) (hw : c.wf = true) (d : SigDesc) (hd : d ∈ c.sigs) (hk : d.kind.isScalar = true)
    (i : Nat) (hi : i < d.size) (u : Nat) (hu : d.ub = some u) :
    (c.region d.reg).bit (bitAddr d.endian d.pos d.size i) ≠ (c.region d.reg).bit u := by
  obtain ⟨-, hout⟩ := c.wf_sigUb hw d hd u hu
  have hmem : bitAddr d.endian d.pos d.size i ∈ d.bitAddrs := by
    rw [SigDesc.bitAddrs, if_pos hk]
    exact List.mem_map_of_mem (List.mem_range.2 hi)
  intro h
  exact hout (Nat.add_left_cancel h ▸ hmem)

/-- The update bit of an array is in none of its bytes (CW-SIG-UB, notes/assumptions/10.md). -/
theorem Cfg.wf_array_byte_ne_ub (c : Cfg) (hw : c.wf = true) (d : SigDesc) (hd : d ∈ c.sigs) (hk : d.kind.isScalar = false)
    (off : Nat) (hoff : off < d.len) (u : Nat) (hu : d.ub = some u) :
    c.arrayAddr d off ≠ (c.region d.reg).bit u / 8 := by
  obtain ⟨-, hout⟩ := c.wf_sigUb hw d hd u hu
  obtain ⟨halign, -⟩ := c.wf_array hw d hd hk
  have hin : ∀ k < 8 * d.len, d.pos + k ≠ u := by
    intro k hlt he
    apply hout
    rw [SigDesc.bitAddrs, hk, if_neg Bool.false_ne_true, ← he]
    exact List.mem_map_of_mem (List.mem_range.2 hlt)
  have hrel := hin (u - d.pos)
  unfold Cfg.arrayAddr Region.bit
  omega

/-- An array is no longer than its region, so a legal length fits DYNLEN's 16 bits (R31, CW-SIG-ARRAY, CW-REG). -/
theorem Cfg.wf_array_len_lt (c : Cfg) (hw : c.wf = true) (d : SigDesc) (hd : d ∈ c.sigs) (hk : d.kind.isScalar = false) :
    d.len < 2 ^ 16 := by
  obtain ⟨-, -, hlen, -⟩ := c.wf_array hw d hd hk
  obtain ⟨-, hsize, -⟩ := c.wf_region hw _ (c.region_mem d.reg (c.wf_sigReg hw d hd))
  omega

end Sys2Proof

namespace Sys2Proof.Machine

/-! ### Substitution -/

/-- A read is substituted exactly while the slot that watches the signal is timed out (R163). -/
theorem State.substitutes_eq_true_iff (s : State) (d : SigDesc) :
    s.substitutes d = true ↔ ∃ k, d.dm = some k ∧ (s.dmAt k).timeout = true := by
  unfold State.substitutes
  cases d.dm with
  | none => simp
  | some k => simp

theorem State.substitutes_eq_false (s : State) (d : SigDesc) (h : ∀ k, d.dm = some k → (s.dmAt k).timeout = false) :
    s.substitutes d = false := by
  rw [Bool.eq_false_iff, ne_eq, State.substitutes_eq_true_iff]
  rintro ⟨k, hk, ht⟩
  exact Bool.false_ne_true ((h k hk).symm.trans ht)

@[simp] theorem State.length_readChunk (s : State) (d : SigDesc) (off n : Nat) : (s.readChunk d off n).length = n := by
  rw [State.readChunk]
  split
  · simp [Cfg.initBytes]
  · exact State.length_memRead _ _ _

/-- Byte k of n bytes of INITIMG, and 0 past their end (R45, R70). -/
theorem getD_initBytes (c : Cfg) (a n k : Nat) : (c.initBytes a n).getD k 0 = if k < n then c.initByte (a + k) else 0 := by
  by_cases h : k < n
  · simp [Cfg.initBytes, h]
  · simp [Cfg.initBytes, h]

/-- Byte k of the chunk an array read takes, and 0 past its end (R162, R163). -/
theorem State.getD_readChunk (s : State) (d : SigDesc) (off n k : Nat) :
    (s.readChunk d off n).getD k 0 =
      if k < n then
        (if s.substitutes d then s.cfg.initByte (s.cfg.arrayAddr d off + k) else s.byteAt (s.cfg.arrayAddr d off + k))
      else 0 := by
  rw [State.readChunk]
  split
  · exact getD_initBytes _ _ _ _
  · exact State.getD_memRead _ _ _ _

/-! ### What a scalar encodes to and decodes from -/

/-- A scalar other than a BOOL is stored truncated (R161). -/
theorem encodeScalar_of_ne_bool (d : SigDesc) (v : Word64) (h : d.kind ≠ .bool) : encodeScalar d v = trunc d.size v := by
  unfold encodeScalar
  cases hk : d.kind with
  | bool => exact absurd hk h
  | uint | sint | opaqueArray | dynArray => rfl

theorem encodeScalar_of_bool (d : SigDesc) (v : Word64) (h : d.kind = .bool) :
    encodeScalar d v = if v = 0 then 0 else 1 := by
  rw [encodeScalar, h]

theorem decodeScalar_of_bool (d : SigDesc) (f : Word64) (h : d.kind = .bool) :
    decodeScalar d f = if f = 0 then 0 else 1 := by
  rw [decodeScalar, h]

theorem decodeScalar_of_uint (d : SigDesc) (f : Word64) (h : d.kind = .uint) : decodeScalar d f = f := by
  rw [decodeScalar, h]

theorem decodeScalar_of_sint (d : SigDesc) (f : Word64) (h : d.kind = .sint) : decodeScalar d f = signExtend d.size f := by
  rw [decodeScalar, h]

theorem encodeScalar_toNat_of_ne_bool (d : SigDesc) (v : Word64) (h : d.kind ≠ .bool) (hs : d.size ≤ 64) :
    (encodeScalar d v).toNat = v.toNat % 2 ^ d.size := by
  rw [encodeScalar_of_ne_bool d v h, trunc_toNat _ _ hs]

/-- What is stored fits the field (R161). -/
theorem encodeScalar_lt (d : SigDesc) (v : Word64) (h1 : 1 ≤ d.size) (hs : d.size ≤ 64) :
    (encodeScalar d v).toNat < 2 ^ d.size := by
  by_cases h : d.kind = .bool
  · have h2 : 2 ^ 1 ≤ 2 ^ d.size := Nat.pow_le_pow_right (by decide) h1
    rw [encodeScalar_of_bool d v h]
    split
    · exact Nat.two_pow_pos _
    · exact Nat.lt_of_lt_of_le (by decide) h2
  · rw [encodeScalar_toNat_of_ne_bool d v h hs]
    exact Nat.mod_lt _ (Nat.two_pow_pos _)

theorem trunc_encodeScalar (d : SigDesc) (v : Word64) (h1 : 1 ≤ d.size) (hs : d.size ≤ 64) :
    trunc d.size (encodeScalar d v) = encodeScalar d v := by
  apply BitVec.eq_of_toNat_eq
  rw [trunc_toNat _ _ hs, Nat.mod_eq_of_lt (encodeScalar_lt d v h1 hs)]

/-- Settles O60: truncation and sign extension as numbers. -/
theorem scalarCodingFollowsItsKind : Obligations.ScalarCodingFollowsItsKind := by
  intro d v f h1 hs hf
  refine ⟨fun h => ⟨encodeScalar_of_bool d v h, decodeScalar_of_bool d f h⟩, fun h => ⟨?_, decodeScalar_of_uint d f h⟩,
    fun h => ⟨?_, ?_⟩⟩
  · exact encodeScalar_toNat_of_ne_bool d v (by simp [h]) hs
  · exact encodeScalar_toNat_of_ne_bool d v (by simp [h]) hs
  · rw [decodeScalar_of_sint d f h]
    exact signExtend_toInt d.size f h1 hs hf

/-! ### The update bit -/

theorem State.bitAt_setUpdateBit_same (s : State) (reg u : Nat) (ub : Option Nat) (h : ub = some u) :
    (s.setUpdateBit reg ub).bitAt ((s.cfg.region reg).bit u) = true := by
  simp [State.bitAt_setUpdateBit, h]

theorem State.bitAt_setUpdateBit_other (s : State) (reg : Nat) (ub : Option Nat) (j : Nat)
    (h : ∀ u, ub = some u → j ≠ (s.cfg.region reg).bit u) : (s.setUpdateBit reg ub).bitAt j = s.bitAt j := by
  have hno : ¬ ∃ u, ub = some u ∧ j = (s.cfg.region reg).bit u := fun ⟨u, hu, hj⟩ => h u hu hj
  rw [State.bitAt_setUpdateBit, decide_eq_false hno, Bool.false_or]

/-- A byte that does not hold the update bit is as it was (R165). -/
theorem State.byteAt_setUpdateBit_other (s : State) (reg : Nat) (ub : Option Nat) (a : Nat)
    (h : ∀ u, ub = some u → a ≠ (s.cfg.region reg).bit u / 8) : (s.setUpdateBit reg ub).byteAt a = s.byteAt a :=
  State.byteAt_eq_of_bitAt _ _ a a fun j hj =>
    s.bitAt_setUpdateBit_other reg ub _ fun u hu he => h u hu (by omega)

/-! ### The signal and length commands past their checks -/

/-- A scalar SIG_RD (R163). -/
theorem execSigRd_of_scalar (s : State) (idx : Half) (d : SigDesc) (hw : s.cfg.wf = true)
    (hd : s.cfg.sigs[idx.toNat]? = some d) (hk : d.kind.isScalar = true) :
    execSigRd 0 0 idx s = .next (s.complete (decodeScalar d (s.readScalar d)) (s.substitutes d)) :=
  (s.guarded_indexed_of_some _ hw hd).trans ((if_pos hk).trans (s.require_of_eq_true _ _ rfl))

/-- A scalar SIG_RD under substitution (R163). -/
theorem execSigRd_of_substitutes (s : State) (idx : Half) (d : SigDesc) (hw : s.cfg.wf = true)
    (hd : s.cfg.sigs[idx.toNat]? = some d) (hk : d.kind.isScalar = true) (hsub : s.substitutes d = true) :
    execSigRd 0 0 idx s =
      .next (s.complete (decodeScalar d (s.extractInit (s.cfg.region d.reg) d.endian d.pos d.size)) true) := by
  rw [execSigRd_of_scalar s idx d hw hd hk, State.readScalar, hsub, if_pos rfl]

/-- A scalar SIG_RD without substitution (R163). -/
theorem execSigRd_of_not_substitutes (s : State) (idx : Half) (d : SigDesc) (hw : s.cfg.wf = true)
    (hd : s.cfg.sigs[idx.toNat]? = some d) (hk : d.kind.isScalar = true) (hsub : s.substitutes d = false) :
    execSigRd 0 0 idx s =
      .next (s.complete (decodeScalar d (s.extract (s.cfg.region d.reg) d.endian d.pos d.size)) false) := by
  rw [execSigRd_of_scalar s idx d hw hd hk, State.readScalar, hsub, if_neg Bool.false_ne_true]

/-- An array SIG_RD of a chunk inside the array (R163). -/
theorem execSigRd_of_array (s : State) (lnm1 : BitVec 3) (off idx : Half) (d : SigDesc) (hw : s.cfg.wf = true)
    (hd : s.cfg.sigs[idx.toNat]? = some d) (hk : d.kind.isScalar = false) (hin : off.toNat + chunkLen lnm1 ≤ d.len) :
    execSigRd lnm1 off idx s =
      .next (s.complete (packBytes (s.readChunk d off.toNat (chunkLen lnm1))) (s.substitutes d)) :=
  (s.guarded_indexed_of_some _ hw hd).trans
    ((if_neg (Bool.eq_false_iff.1 hk)).trans (s.require_of_eq_true _ _ (decide_eq_true hin)))

/-- The state files after a scalar SIG_WR of `v`: the field, the filter on the value decoded from it, the update bit (R164). -/
def State.storeScalar (s : State) (d : SigDesc) (v : Word64) : State :=
  ((s.writeScalar d v).writeFilter d (decodeScalar d (encodeScalar d v))).setUpdateBit d.reg d.ub

/-- A scalar SIG_WR (R164). Its filter reads FST, which the store into PBUF leaves alone. -/
theorem execSigWr_of_scalar (s : State) (idx : Half) (d : SigDesc) (hw : s.cfg.wf = true)
    (hd : s.cfg.sigs[idx.toNat]? = some d) (hk : d.kind.isScalar = true) :
    execSigWr 0 0 idx s = .next ((s.storeScalar d s.operand).complete
      (s.writeResult d (decodeScalar d (encodeScalar d s.operand)))) :=
  (s.guarded_indexed_of_some _ hw hd).trans ((if_pos hk).trans (s.require_of_eq_true _ _ rfl))

/-- An array SIG_WR of a chunk inside the array (R164). -/
theorem execSigWr_of_array (s : State) (lnm1 : BitVec 3) (off idx : Half) (d : SigDesc) (hw : s.cfg.wf = true)
    (hd : s.cfg.sigs[idx.toNat]? = some d) (hk : d.kind.isScalar = false) (hin : off.toNat + chunkLen lnm1 ≤ d.len) :
    execSigWr lnm1 off idx s =
      .next (((s.memWrite (s.cfg.arrayAddr d off.toNat) (unpackBytes (chunkLen lnm1) s.operand)).setUpdateBit
        d.reg d.ub).complete 0) :=
  (s.guarded_indexed_of_some _ hw hd).trans
    ((if_neg (Bool.eq_false_iff.1 hk)).trans (s.require_of_eq_true _ _ (decide_eq_true hin)))

/-- DLEN_RD of a DYN signal (R166). -/
theorem execDlenRd_of_dyn (s : State) (idx : Half) (d : SigDesc) (hw : s.cfg.wf = true)
    (hd : s.cfg.sigs[idx.toNat]? = some d) (hk : d.kind = .dynArray) :
    execDlenRd idx s = .next (s.complete ((s.dynlenAt idx.toNat).setWidth 64)) :=
  (s.guarded_indexed_of_some _ hw hd).trans (s.require_of_eq_true _ _ (decide_eq_true hk))

/-- DLEN_WR of a DYN signal with a length up to its maximum (R167). -/
theorem execDlenWr_of_le (s : State) (idx : Half) (d : SigDesc) (hw : s.cfg.wf = true)
    (hd : s.cfg.sigs[idx.toNat]? = some d) (hk : d.kind = .dynArray) (hv : s.operand.toNat ≤ d.len) :
    execDlenWr idx s = .next ((s.setDynlen idx.toNat (s.operand.extractLsb' 0 16)).complete 0) :=
  (s.guarded_indexed_of_some _ hw hd).trans
    ((s.require_of_eq_true _ _ (decide_eq_true hk)).trans (s.require_of_eq_true _ _ (decide_eq_true hv)))

/-! ### Signal reads -/

/-- Settles O36: the two outcomes of the substitution test. -/
theorem sigRdScalarDecodesOrSubstitutes : Obligations.SigRdScalarDecodesOrSubstitutes := by
  intro s idx d hw hd hk
  exact ⟨fun k hdm ht => execSigRd_of_substitutes s idx d hw hd hk ((s.substitutes_eq_true_iff d).2 ⟨k, hdm, ht⟩),
    fun hrun => execSigRd_of_not_substitutes s idx d hw hd hk (s.substitutes_eq_false d hrun)⟩

/-- Settles O37: the packed bytes of the chunk. -/
theorem sigRdArrayReturnsItsChunk : Obligations.SigRdArrayReturnsItsChunk := by
  intro s lnm1 off idx d hw hd hk hin
  refine ⟨_, execSigRd_of_array s lnm1 off idx d hw hd hk hin, fun k _ => ?_⟩
  have hlen : (s.readChunk d off.toNat (chunkLen lnm1)).length ≤ 8 := by
    rw [State.length_readChunk]
    exact chunkLen_le lnm1
  rw [extractLsb'_packBytes _ k hlen, State.getD_readChunk]
  exact if_congr Nat.lt_succ_iff rfl rfl

/-! ### Signal writes -/

theorem State.bitAt_writeFilter (s : State) (d : SigDesc) (dv : Word64) (k : Nat) :
    (s.writeFilter d dv).bitAt k = s.bitAt k := by
  obtain ⟨fs, h⟩ := s.writeFilter_frame d dv
  rw [h]
  rfl

/-- A scalar SIG_WR changes PBUF, and FST as its filter step alone would (R164, R202). -/
theorem State.storeScalar_frame (s : State) (d : SigDesc) (v : Word64) :
    ∃ m, s.storeScalar d v =
      { s with pbuf := m, fst := (s.writeFilter d (decodeScalar d (encodeScalar d v))).fst } := by
  obtain ⟨m, hstore⟩ := s.insert_frame (s.cfg.region d.reg) d.endian d.pos d.size (encodeScalar d v)
  obtain ⟨m', hmark⟩ := State.setUpdateBit_frame
    ((s.writeScalar d v).writeFilter d (decodeScalar d (encodeScalar d v))) d.reg d.ub
  refine ⟨m', ?_⟩
  rw [State.storeScalar, hmark, State.writeScalar, hstore, State.writeFilter, State.writeFilter]
  cases d.filt with
  | none => rfl
  | some f => rfl

theorem State.bitAt_storeScalar_ub (s : State) (d : SigDesc) (v : Word64) (u : Nat) (hu : d.ub = some u) :
    (s.storeScalar d v).bitAt ((s.cfg.region d.reg).bit u) = true := by
  have h := State.bitAt_setUpdateBit_same
    ((s.writeScalar d v).writeFilter d (decodeScalar d (encodeScalar d v))) d.reg u d.ub hu
  rwa [State.cfg_writeFilter, State.cfg_writeScalar] at h

/-- But for the update bit, PBUF after a scalar SIG_WR is what the insertion left (R164, R165). -/
theorem State.bitAt_storeScalar_of_ne_ub (s : State) (d : SigDesc) (v : Word64) (k : Nat)
    (h : ∀ u, d.ub = some u → k ≠ (s.cfg.region d.reg).bit u) :
    (s.storeScalar d v).bitAt k = (s.writeScalar d v).bitAt k := by
  rw [State.storeScalar, State.bitAt_setUpdateBit_other, State.bitAt_writeFilter]
  rwa [State.cfg_writeFilter, State.cfg_writeScalar]

/-- The field after a scalar SIG_WR holds the encoded value: the update bit lies outside it (R164, CW-SIG-UB). -/
theorem State.bitAt_storeScalar_field (s : State) (d : SigDesc) (v : Word64) (hw : s.cfg.wf = true) (hd : d ∈ s.cfg.sigs)
    (hk : d.kind.isScalar = true) (i : Nat) (hi : i < d.size) :
    (s.storeScalar d v).bitAt ((s.cfg.region d.reg).bit (bitAddr d.endian d.pos d.size i)) =
      (encodeScalar d v).getLsbD i :=
  (s.bitAt_storeScalar_of_ne_ub d v _ (s.cfg.wf_scalar_bit_ne_ub hw d hd hk i hi)).trans
    (s.bitAt_insert_field _ _ _ _ _ i hi)

/-- Settles O38: the bits of the insertion beside the update bit, and the filter step. -/
theorem sigWrScalarStoresFiltersAndMarks : Obligations.SigWrScalarStoresFiltersAndMarks := by
  intro s idx d hw hd hk
  have hmem : d ∈ s.cfg.sigs := List.mem_of_getElem? hd
  have hexec := execSigWr_of_scalar s idx d hw hd hk
  obtain ⟨m, hm⟩ := s.storeScalar_frame d s.operand
  have hbit : ∀ k, State.bitAt { s with pbuf := m } k = (s.storeScalar d s.operand).bitAt k := fun k => by rw [hm]; rfl
  rw [hm] at hexec
  refine ⟨m, _, _, hexec, fun i hi => ?_, fun u hu => ?_, fun k hfield hub => ?_, fun hf => ?_, fun f hf => ⟨fun g => ?_, ?_⟩⟩
  · exact (hbit _).trans (s.bitAt_storeScalar_field d s.operand hw hmem hk i hi)
  · exact (hbit _).trans (s.bitAt_storeScalar_ub d s.operand u hu)
  · calc State.bitAt { s with pbuf := m } k
        = (s.storeScalar d s.operand).bitAt k := hbit k
      _ = (s.writeScalar d s.operand).bitAt k := s.bitAt_storeScalar_of_ne_ub d s.operand k hub
      _ = s.bitAt k := s.bitAt_insert_other _ _ _ _ _ k hfield
  · simp [State.writeFilter, State.writeResult, hf]
  · rw [State.writeFilter, hf]
    exact s.fstAt_filterStep f g _
  · rw [State.writeResult, hf]
    rfl

/-- Settles O39: the bytes of the memory write beside the update bit. -/
theorem sigWrArrayStoresItsChunkAndMarks : Obligations.SigWrArrayStoresItsChunkAndMarks := by
  intro s lnm1 off idx d hw hd hk hin
  have hmem : d ∈ s.cfg.sigs := List.mem_of_getElem? hd
  have hexec := execSigWr_of_array s lnm1 off idx d hw hd hk hin
  obtain ⟨m₀, hm₀, hbytes, hother⟩ :=
    s.memWrite_map_range (s.cfg.arrayAddr d off.toNat) (chunkLen lnm1) fun k => s.operand.extractLsb' (8 * k) 8
  obtain ⟨m, hm⟩ := State.setUpdateBit_frame { s with pbuf := m₀ } d.reg d.ub
  rw [unpackBytes, hm₀, hm] at hexec
  refine ⟨m, hexec, fun k hle => ?_, fun u hu => ?_, fun k hout hub => ?_⟩
  · have hkeep := State.byteAt_setUpdateBit_other { s with pbuf := m₀ } d.reg d.ub (s.cfg.arrayAddr d (off.toNat + k))
      (s.cfg.wf_array_byte_ne_ub hw d hmem hk (off.toNat + k) (by omega))
    rw [hm, Cfg.arrayAddr, ← Nat.add_assoc] at hkeep
    exact hkeep.trans (hbytes k (Nat.lt_succ_of_le hle))
  · have hmark := State.bitAt_setUpdateBit_same { s with pbuf := m₀ } d.reg u d.ub hu
    rwa [hm] at hmark
  · have hkeep := State.bitAt_setUpdateBit_other { s with pbuf := m₀ } d.reg d.ub k hub
    rw [hm] at hkeep
    exact hkeep.trans (congrArg (BitVec.getLsbD · (k % 8)) (hother (k / 8) hout))

/-! ### The typed round trip -/

/-- An extraction depends on the bits of its field only (R126). -/
theorem State.extract_congr (s t : State) (r : Region) (e : Endian) (pos size : Nat) (hs : size ≤ 64)
    (h : ∀ i < size, s.bitAt (r.bit (bitAddr e pos size i)) = t.bitAt (r.bit (bitAddr e pos size i))) :
    s.extract r e pos size = t.extract r e pos size := by
  apply BitVec.eq_of_getLsbD_eq
  intro i _
  rw [State.getLsbD_extract _ _ _ _ _ _ hs, State.getLsbD_extract _ _ _ _ _ _ hs]
  by_cases hi : i < size
  · rw [h i hi]
  · simp [hi]

/-- The field extracted after a scalar SIG_WR is the encoded value (R164, R170). -/
theorem State.extract_storeScalar (s : State) (d : SigDesc) (v : Word64) (hw : s.cfg.wf = true) (hd : d ∈ s.cfg.sigs)
    (hk : d.kind.isScalar = true) :
    (s.storeScalar d v).extract (s.cfg.region d.reg) d.endian d.pos d.size = encodeScalar d v := by
  obtain ⟨h1, hs, -⟩ := s.cfg.wf_scalar hw d hd hk
  calc (s.storeScalar d v).extract (s.cfg.region d.reg) d.endian d.pos d.size
      = (s.writeScalar d v).extract (s.cfg.region d.reg) d.endian d.pos d.size :=
        State.extract_congr _ _ _ _ _ _ hs fun i hi =>
          s.bitAt_storeScalar_of_ne_ub d v _ (s.cfg.wf_scalar_bit_ne_ub hw d hd hk i hi)
    _ = trunc d.size (encodeScalar d v) := s.extract_insert _ _ _ _ _ hs
    _ = encodeScalar d v := trunc_encodeScalar d v h1 hs

@[simp] theorem State.cfg_storeScalar (s : State) (d : SigDesc) (v : Word64) : (s.storeScalar d v).cfg = s.cfg := by
  obtain ⟨m, h⟩ := s.storeScalar_frame d v
  rw [h]

@[simp] theorem State.cur_storeScalar (s : State) (d : SigDesc) (v : Word64) : (s.storeScalar d v).cur = s.cur := by
  obtain ⟨m, h⟩ := s.storeScalar_frame d v
  rw [h]

@[simp] theorem State.substitutes_storeScalar (s : State) (d e : SigDesc) (v : Word64) :
    (s.storeScalar d v).substitutes e = s.substitutes e := by
  obtain ⟨m, h⟩ := s.storeScalar_frame d v
  rw [h]
  rfl

/-- SIG_RD after a scalar SIG_WR of `v` whose slot is not timed out (R170). -/
theorem execSigRd_after_storeScalar (s : State) (idx : Half) (d : SigDesc) (v r : Word64) (hw : s.cfg.wf = true)
    (hd : s.cfg.sigs[idx.toNat]? = some d) (hk : d.kind.isScalar = true) (hsub : s.substitutes d = false) :
    execSigRd 0 0 idx ((s.storeScalar d v).complete r) =
      .next (((s.storeScalar d v).complete r).complete (decodeScalar d (encodeScalar d v)) false) := by
  have hcfg : ((s.storeScalar d v).complete r).cfg = s.cfg := s.cfg_storeScalar d v
  have hrun : ((s.storeScalar d v).complete r).substitutes d = false := (s.substitutes_storeScalar d d v).trans hsub
  rw [execSigRd_of_not_substitutes _ idx d (hcfg ▸ hw) (hcfg ▸ hd) hk hrun, hcfg, State.extract_complete,
    s.extract_storeScalar d v hw (List.mem_of_getElem? hd) hk]

/-- The number that the encoded value of a SINT decodes to (R170). -/
theorem decodeScalar_encodeScalar_toInt_of_sint (d : SigDesc) (v : Word64) (h : d.kind = .sint) (h1 : 1 ≤ d.size)
    (hs : d.size ≤ 64) :
    (decodeScalar d (encodeScalar d v)).toInt =
      if v.getLsbD (d.size - 1) then ((v.toNat % 2 ^ d.size : Nat) : Int) - (2 ^ d.size : Nat)
      else ((v.toNat % 2 ^ d.size : Nat) : Int) := by
  have hne : d.kind ≠ .bool := by simp [h]
  have htop : (encodeScalar d v).getLsbD (d.size - 1) = v.getLsbD (d.size - 1) := by
    rw [encodeScalar_of_ne_bool d v hne, getLsbD_trunc _ _ _ hs, decide_eq_true (by omega), Bool.true_and]
  rw [decodeScalar_of_sint _ _ h, signExtend_toInt _ _ h1 hs (encodeScalar_lt d v h1 hs), htop,
    encodeScalar_toNat_of_ne_bool d v hne hs]

theorem decodeScalar_encodeScalar_of_bool (d : SigDesc) (v : Word64) (h : d.kind = .bool) :
    decodeScalar d (encodeScalar d v) = if v = 0 then 0 else 1 := by
  rw [encodeScalar_of_bool d v h, decodeScalar_of_bool _ _ h]
  by_cases hv : v = 0 <;> simp [hv]

/-- Settles O40: the read extracts what the write encoded, and each kind decodes it as O60 says. -/
theorem typedRoundTrip : Obligations.TypedRoundTrip := by
  intro s idx d hw hd hk hrun
  obtain ⟨h1, hs, -⟩ := s.cfg.wf_scalar hw d (List.mem_of_getElem? hd) hk
  have hread := fun r => execSigRd_after_storeScalar s idx d s.operand r hw hd hk (s.substitutes_eq_false d hrun)
  have hport := fun r => State.port_complete ((s.storeScalar d s.operand).complete r)
    (decodeScalar d (encodeScalar d s.operand)) false
  simp only [State.complete_cur, State.cur_storeScalar] at hport
  refine ⟨_, _, execSigWr_of_scalar s idx d hw hd hk, hread _, ?_⟩
  simp only [hport, true_and]
  refine ⟨fun h => ?_, fun h => ?_, fun h => ?_⟩
  · rw [decodeScalar_of_uint _ _ h, encodeScalar_toNat_of_ne_bool d _ (by simp [h]) hs]
  · exact decodeScalar_encodeScalar_toInt_of_sint d _ h h1 hs
  · exact decodeScalar_encodeScalar_of_bool d _ h

/-! ### Dynamic lengths -/

/-- Settles O41: a write to one entry of DYNLEN, whose 16 bits hold every legal length. -/
theorem dynamicLengthIsStoredAndReturned : Obligations.DynamicLengthIsStoredAndReturned := by
  intro s idx d hw hd hk
  have hlen := s.cfg.wf_array_len_lt hw d (List.mem_of_getElem? hd) (by simp [hk, SigKind.isScalar])
  have hset := s.dynlenAt_setDynlen idx.toNat
  refine ⟨execDlenRd_of_dyn s idx d hw hd hk, fun hv => ⟨_, execDlenWr_of_le s idx d hw hd hk hv, ?_, fun j hj => ?_⟩⟩
  · refine (congrArg BitVec.toNat ((hset _ _).trans (if_pos rfl))).trans ?_
    rw [BitVec.extractLsb'_toNat, Nat.shiftRight_zero, Nat.mod_eq_of_lt (by omega)]
  · exact (hset _ _).trans (if_neg hj)

/-! ### Groups -/

/-- GRP_COMMIT of a group with a shadow (R168). -/
theorem execGrpCommit_of_shadow (s : State) (idx : Half) (g : GrpDesc) (r : Nat) (hw : s.cfg.wf = true)
    (hg : s.cfg.grps[idx.toNat]? = some g) (hr : g.shreg = some r) :
    execGrpCommit idx s =
      .next (((s.commitBytes g ((s.cfg.region g.pdureg).base + g.off) (s.cfg.region r).base g.len).1.setUpdateBit
        g.pdureg g.ub).complete
          (bitWord (s.commitBytes g ((s.cfg.region g.pdureg).base + g.off) (s.cfg.region r).base g.len).2)) := by
  refine (s.guarded_indexed_of_some _ hw hg).trans ?_
  simp only [hr]

/-- GRP_FETCH of a group with a shadow (R169). -/
theorem execGrpFetch_of_shadow (s : State) (idx : Half) (g : GrpDesc) (r : Nat) (hw : s.cfg.wf = true)
    (hg : s.cfg.grps[idx.toNat]? = some g) (hr : g.shreg = some r) :
    execGrpFetch idx s =
      .next ((s.fetchBytes ((s.cfg.region g.pdureg).base + g.off) (s.cfg.region r).base g.len).complete 0) := by
  refine (s.guarded_indexed_of_some _ hw hg).trans ?_
  simp only [hr]

/-- A byte is the mask byte when it is 0xFF without a mask and the mask's own byte with one (R168). -/
theorem maskByte_eq (g : GrpDesc) (k : Nat) (b : Byte) (hnone : g.mask = none → b = 0xFF)
    (hsome : ∀ ms, g.mask = some ms → ms[k]? = some b) : maskByte g k = b := by
  unfold maskByte
  cases hm : g.mask with
  | none => exact (hnone hm).symm
  | some ms => simp [List.getD_eq_getElem?_getD, hsome ms hm]

/-- Settles O42: the merged bytes beside the update bit, and the changed flag. -/
theorem grpCommitMergesUnderTheMask : Obligations.GrpCommitMergesUnderTheMask := by
  intro s idx g r pb sb mk np hw hg hr hpb hsb hnone hsome hnp
  have hexec := execGrpCommit_of_shadow s idx g r hw hg hr
  obtain ⟨-, -, hdisjoint⟩ := s.cfg.wf_shadow hw g (List.mem_of_getElem? hg) r hr
  rw [← hpb, ← hsb] at hexec hdisjoint
  have hbyte := fun a => s.byteAt_commitBytes g pb sb g.len a hdisjoint
  have hchanged := s.commitBytes_changed g pb sb g.len hdisjoint
  have hmerge : ∀ k < g.len, mergeByte (s.byteAt (pb + k)) (s.byteAt (sb + k)) (maskByte g k) = np k := fun k hk => by
    rw [maskByte_eq g k (mk k) (fun h => hnone h k hk) (fun ms h => hsome ms h k hk), hnp k hk, mergeByte]
  obtain ⟨m₀, hm₀⟩ := s.commitBytes_frame g pb sb g.len
  obtain ⟨m, hm⟩ := State.setUpdateBit_frame { s with pbuf := m₀ } g.pdureg g.ub
  rw [hm₀] at hexec hbyte
  rw [hm] at hexec
  refine ⟨m, _, hexec, fun u hu => ?_, fun j hub => ?_, ?_⟩
  · have hmark := State.bitAt_setUpdateBit_same { s with pbuf := m₀ } g.pdureg u g.ub hu
    rwa [hm] at hmark
  · have hkeep := State.bitAt_setUpdateBit_other { s with pbuf := m₀ } g.pdureg g.ub j hub
    rw [hm] at hkeep
    rw [hkeep, State.bitAt, hbyte]
    by_cases hj : pb ≤ j / 8 ∧ j / 8 < pb + g.len
    · have hmj := hmerge (j / 8 - pb) (by omega)
      rw [Nat.add_sub_cancel' hj.1] at hmj
      rw [if_pos hj, if_pos hj, hmj]
    · rw [if_neg hj, if_neg hj, State.bitAt]
  · by_cases hc : (s.commitBytes g pb sb g.len).2 = true
    · obtain ⟨k, hk, hne⟩ := hchanged.1 hc
      rw [hmerge k hk] at hne
      exact .inl ⟨by rw [hc, bitWord, if_pos rfl], k, hk, hne⟩
    · refine .inr ⟨by rw [bitWord, if_neg hc], fun k hk => ?_⟩
      by_contra hne
      rw [← hmerge k hk] at hne
      exact hc (hchanged.2 ⟨k, hk, hne⟩)

/-- Settles O43: the bytes of the copy. -/
theorem grpFetchCopiesIntoTheShadow : Obligations.GrpFetchCopiesIntoTheShadow := by
  intro s idx g r hw hg hr
  have hexec := execGrpFetch_of_shadow s idx g r hw hg hr
  obtain ⟨-, -, hdisjoint⟩ := s.cfg.wf_shadow hw g (List.mem_of_getElem? hg) r hr
  have hbyte := fun a => s.byteAt_fetchBytes _ _ g.len a hdisjoint
  obtain ⟨m, hm⟩ := s.fetchBytes_frame ((s.cfg.region g.pdureg).base + g.off) (s.cfg.region r).base g.len
  rw [hm] at hexec hbyte
  refine ⟨m, hexec, fun k hk => ?_, fun a ha => ?_⟩
  · rw [hbyte, if_pos (by omega), Nat.add_sub_cancel_left]
  · rw [hbyte, if_neg (by omega)]

end Sys2Proof.Machine

namespace Sys2Proof.Machine

/-! ### What an evaluation of each filter kind does -/

/-- `ge(a, b, sgn)` compares the numbers that the words hold (R197). -/
theorem filtGe_iff (sgn : Bool) (a b : Word64) :
    filtGe sgn a b = true ↔ if sgn then b.toInt ≤ a.toInt else b.toNat ≤ a.toNat := by
  cases sgn with
  | false => exact BitVec.ule_iff_toNat_le
  | true => exact BitVec.sle_iff_toInt_le

/-- `le(a, b, sgn)` is `ge` with the operands exchanged (R197). -/
theorem filtLe_eq_filtGe (sgn : Bool) (a b : Word64) : filtLe sgn a b = filtGe sgn b a := rfl

/-- A kind other than delta and divide-by-N uses neither OLD nor CNT (R191). -/
theorem filterNext_of_stateless (c : FiltCfg) (st : FiltState) (v : Word64)
    (hdelta : c.kind ≠ .maskedNewDiffersMaskedOld) (hdiv : c.kind ≠ .oneEveryN) : filterNext c st v = st := by
  unfold filterNext
  split
  · next h => exact absurd h hdelta
  · next h => exact absurd h hdiv
  all_goals rfl

section
variable {c : FiltCfg} (st : FiltState) (v : Word64)

theorem filterPass_of_delta (h : c.kind = .maskedNewDiffersMaskedOld) :
    filterPass c st v = true ↔ v &&& c.mask ≠ st.old &&& c.mask := by
  rw [filterPass, h]
  exact decide_eq_true_iff

theorem filterNext_of_delta (h : c.kind = .maskedNewDiffersMaskedOld) : filterNext c st v = { st with old := v } := by
  rw [filterNext, h]

theorem filterPass_of_oneEveryN (h : c.kind = .oneEveryN) : filterPass c st v = true ↔ st.cnt = 0 := by
  rw [filterPass, h]
  exact decide_eq_true_iff

theorem filterNext_of_oneEveryN (h : c.kind = .oneEveryN) :
    filterNext c st v = { st with cnt := BitVec.ofNat 32 ((st.cnt.toNat + 1) % c.n.toNat) } := by
  rw [filterNext, h]

/-- The counter of a divide-by-N slot counts modulo N: `CNT + 1` stays below `2^32` (R32, R192). -/
theorem filterNext_cnt_toNat_of_oneEveryN (h : c.kind = .oneEveryN) (hlt : st.cnt.toNat < c.n.toNat) :
    (filterNext c st v).cnt.toNat = (st.cnt.toNat + 1) % c.n.toNat := by
  have hmod : (st.cnt.toNat + 1) % c.n.toNat < c.n.toNat := Nat.mod_lt _ (Nat.zero_lt_of_lt hlt)
  rw [filterNext_of_oneEveryN st v h, BitVec.toNat_ofNat, Nat.mod_eq_of_lt (hmod.trans c.n.isLt)]

end

/-- Settles O44, by the kind of the filter: a window is both comparisons at once. -/
theorem filterStepFollowsItsKind : Obligations.FilterStepFollowsItsKind := by
  intro c st v
  have hkeep := filterNext_of_stateless c st v
  cases hk : c.kind with
  | always | never => exact ⟨by rw [filterPass, hk], hkeep (by simp [hk]) (by simp [hk])⟩
  | maskedNewDiffersMaskedOld =>
    refine ⟨filterPass_of_delta st v hk, ?_⟩
    rw [filterNext_of_delta st v hk]
    exact ⟨rfl, rfl⟩
  | oneEveryN =>
    refine ⟨filterPass_of_oneEveryN st v hk, ?_, filterNext_cnt_toNat_of_oneEveryN st v hk⟩
    rw [filterNext_of_oneEveryN st v hk]
  | equal | notEqual => exact ⟨by rw [filterPass, hk]; exact decide_eq_true_iff, hkeep (by simp [hk]) (by simp [hk])⟩
  | min | max => exact ⟨by rw [filterPass, hk]; exact filtGe_iff .., hkeep (by simp [hk]) (by simp [hk])⟩
  | window =>
    refine ⟨?_, hkeep (by simp [hk]) (by simp [hk])⟩
    simp only [filterPass, hk, Bool.and_eq_true, filtLe_eq_filtGe, filtGe_iff]
    cases c.sgn <;> exact Iff.rfl

/-! ### The filter commands on a configured slot -/

/-- FILT_EVAL of a configured slot (R198). -/
theorem execFiltEval_of_slot (s : State) (idx : Half) (c : FiltCfg) (hw : s.cfg.wf = true)
    (hc : s.cfg.filts[idx.toNat]? = some c) :
    execFiltEval idx s = .next ((s.setFst idx.toNat (filterNext c (s.fstAt idx.toNat) s.operand)).complete
      (bitWord (filterPass c (s.fstAt idx.toNat) s.operand))) := by
  refine (s.guarded_indexed_of_some _ hw hc).trans ?_
  rw [State.filterStep, State.filterPassAt, s.cfg.filt_of_getElem? _ c hc]

/-- FILT_RESET of a configured slot (R199). -/
theorem execFiltReset_of_slot (s : State) (idx : Half) (c : FiltCfg) (hw : s.cfg.wf = true)
    (hc : s.cfg.filts[idx.toNat]? = some c) :
    execFiltReset idx s = .next ((s.setFst idx.toNat { old := c.initOld, cnt := 0 }).complete 0) :=
  s.guarded_indexed_of_some _ hw hc

/-- Settles O45: the completion of a write to one entry of FST. -/
theorem filtEvalStepsItsSlotOnly : Obligations.FiltEvalStepsItsSlotOnly := by
  intro s idx c hw hc
  exact ⟨_, execFiltEval_of_slot s idx c hw hc, fun g => s.fstAt_setFst idx.toNat g _⟩

/-- Settles O46: FILT_RESET writes one entry of FST and FILT_RDST none. -/
theorem filtResetAndReadState : Obligations.FiltResetAndReadState := by
  intro s idx c hw hc
  exact ⟨⟨_, execFiltReset_of_slot s idx c hw hc, fun g => s.fstAt_setFst idx.toNat g _⟩,
    s.guarded_indexed_of_some _ hw hc, s.guarded_indexed_of_some _ hw hc⟩

/-! ### Consecutive evaluations -/

/-- At most N consecutive evaluations of a divide-by-N slot pass once if they reach an evaluation with CNT = 0, which is the
first one or the one after the counter wraps at N, and else never (R192, R201). -/
theorem count_filterRun_of_oneEveryN (c : FiltCfg) (st : FiltState) (vs : List Word64) (hk : c.kind = .oneEveryN)
    (hlt : st.cnt.toNat < c.n.toNat) (hlen : vs.length ≤ c.n.toNat) :
    (filterRun c st vs).count true =
      if st.cnt.toNat = 0 ∧ 0 < vs.length ∨ c.n.toNat < st.cnt.toNat + vs.length then 1 else 0 := by
  induction vs generalizing st with
  | nil => simp [filterRun]; omega
  | cons v vs ih =>
    rw [List.length_cons] at hlen ⊢
    have hpass : filterPass c st v = true ↔ st.cnt.toNat = 0 :=
      (filterPass_of_oneEveryN st v hk).trans BitVec.toNat_inj.symm
    have hnext := filterNext_cnt_toNat_of_oneEveryN st v hk hlt
    rw [filterRun, List.count_cons, ih _ (filterNext_cnt_lt c st v hlt) (by omega), hnext]
    simp only [beq_true, hpass]
    by_cases hwrap : st.cnt.toNat + 1 = c.n.toNat
    · rw [hwrap, Nat.mod_self]
      split <;> split <;> split <;> omega
    · rw [Nat.mod_eq_of_lt (by omega)]
      split <;> split <;> split <;> omega

/-- Settles O47: a delta slot keeps the value it compared, and N evaluations reach CNT = 0 once from any counter below N. -/
theorem filtersAreDeterministic : Obligations.FiltersAreDeterministic := by
  refine ⟨fun c st v hk => ⟨?_, (filterPass_of_delta st v hk).2⟩, fun c st vs hk hlt hlen => ?_, fun s idx c hw hc => ?_⟩
  · rw [Bool.eq_false_iff, ne_eq, filterPass_of_delta _ v hk, filterNext_of_delta st v hk]
    exact not_not_intro rfl
  · rw [count_filterRun_of_oneEveryN c st vs hk hlt hlen.le]
    exact if_pos (by omega)
  · obtain ⟨⟨fs, hexec, hfst⟩, -⟩ := filtResetAndReadState s idx c hw hc
    exact ⟨_, hexec, congrArg FiltState.cnt ((hfst idx.toNat).trans (if_pos rfl))⟩

end Sys2Proof.Machine

namespace Sys2Proof.Machine

/-! ### The FIFO after several pushes -/

/-- The FIFO `q` after the events `es` are pushed in order: those past the capacity are dropped (R221). -/
def pushAll (q es : List Event) : List Event := q ++ es.take (Config.evqDepth - q.length)

/-- Pushing the events `es` into the FIFO `q` drops at least one of them, which sets OVF (R221). -/
def dropsAny (q es : List Event) : Bool := decide (Config.evqDepth - q.length < es.length)

@[simp] theorem pushAll_nil (q : List Event) : pushAll q [] = q := by simp [pushAll]

@[simp] theorem dropsAny_nil (q : List Event) : dropsAny q [] = false := by simp [dropsAny]

theorem free_pushAll (q es : List Event) :
    Config.evqDepth - (pushAll q es).length = Config.evqDepth - q.length - es.length := by
  simp only [pushAll, List.length_append, List.length_take]
  omega

theorem pushAll_append (q xs ys : List Event) : pushAll q (xs ++ ys) = pushAll (pushAll q xs) ys := by
  rw [pushAll, List.take_append, ← free_pushAll, ← List.append_assoc]
  rfl

theorem dropsAny_append (q xs ys : List Event) :
    dropsAny q (xs ++ ys) = (dropsAny q xs || dropsAny (pushAll q xs) ys) := by
  simp only [dropsAny, free_pushAll, List.length_append, ← Bool.decide_or]
  exact decide_eq_decide.2 (by omega)

theorem pushAll_of_not_dropsAny (q es : List Event) (h : dropsAny q es = false) : pushAll q es = q ++ es := by
  rw [pushAll, List.take_of_length_le (Nat.not_lt.1 (of_decide_eq_false h))]

/-- Within the capacity, the FIFO holds the first EVQ_DEPTH of the events old and new (R221). -/
theorem pushAll_eq_take (q es : List Event) (h : q.length ≤ Config.evqDepth) :
    pushAll q es = (q ++ es).take Config.evqDepth := by
  rw [pushAll, List.take_append, List.take_of_length_le h]

theorem dropsAny_eq (q es : List Event) (h : q.length ≤ Config.evqDepth) :
    dropsAny q es = decide (Config.evqDepth < q.length + es.length) :=
  decide_eq_decide.2 (by omega)

/-- `push_event` as a push of one event (R221). -/
theorem State.pushEvent_eq (s : State) (t : EventType) (k : Nat) :
    s.pushEvent t k =
      { s with evq := pushAll s.evq [s.eventOf t k], ovf := s.ovf || dropsAny s.evq [s.eventOf t k] } := by
  rcases s.pushEvent_cases t k with ⟨hlt, he⟩ | ⟨hle, he⟩
  · have hroom : dropsAny s.evq [s.eventOf t k] = false :=
      decide_eq_false (by rw [List.length_singleton]; omega)
    rw [he, pushAll_of_not_dropsAny _ _ hroom, hroom, Bool.or_false]
  · have hfull : Config.evqDepth - s.evq.length = 0 := Nat.sub_eq_zero_of_le hle
    rw [he, pushAll, dropsAny, hfull]
    simp

/-! ### What a TICK does -/

/-- The event of an expiry is the one the vocabulary of the statements names (R222, R230). -/
theorem State.eventOf_expiryType (s : State) (k : Nat) :
    s.eventOf (expiryType (s.cfg.slot k)) k = expiryEvent s.cfg k := by
  unfold State.eventOf expiryEvent expiryType
  cases (s.cfg.slot k).kind <;> rfl

/-- The FIFO after an expiry (R230). -/
theorem State.evq_expire (s : State) (k : Nat) :
    (s.expire k).evq = pushAll s.evq [expiryEvent s.cfg k] ∧
    (s.expire k).ovf = (s.ovf || dropsAny s.evq [expiryEvent s.cfg k]) := by
  rw [← State.eventOf_expiryType, State.expire, State.pushEvent_eq]
  exact ⟨rfl, rfl⟩

/-- The scan looks at each slot before it has changed it (R228). -/
theorem State.expires_scanSlots (s : State) (d n : Nat) : (s.scanSlots d n).1.expires d n = s.expires d n := by
  unfold State.expires
  rw [State.cfg_scanSlots, State.nowAt_scanSlots, State.dmAt_scanSlots, if_neg (by omega)]

/-- The FIFO after the scan of slots 0..n-1: the events of the expiring slots are pushed in ascending order (R229, R231). -/
theorem State.evq_scanSlots (s : State) (d n : Nat) :
    (s.scanSlots d n).1.evq = pushAll s.evq (((List.range n).filter (s.expires d)).map (expiryEvent s.cfg)) ∧
    (s.scanSlots d n).1.ovf =
      (s.ovf || dropsAny s.evq (((List.range n).filter (s.expires d)).map (expiryEvent s.cfg))) := by
  induction n with
  | zero => simp [State.scanSlots]
  | succ n ih =>
    obtain ⟨hevq, hovf⟩ := ih
    simp only [State.scanSlots, State.expires_scanSlots, List.range_succ, List.filter_append, List.filter_singleton]
    cases s.expires d n with
    | false => simp [hevq, hovf]
    | true =>
      obtain ⟨hevq', hovf'⟩ := (s.scanSlots d n).1.evq_expire n
      rw [State.cfg_scanSlots, hevq] at hevq' hovf'
      rw [hovf, Bool.or_assoc] at hovf'
      rw [cond_true, List.map_append, pushAll_append, dropsAny_append]
      exact ⟨hevq', hovf'⟩

/-- The slots a TICK expires are the running slots of the domain that are due (R228). -/
theorem mem_expiring (s : State) (d : Nat) (n : Tick) (k : Nat) : k ∈ expiring s d n ↔
    k < s.cfg.slots.length ∧ (s.cfg.slot k).dom = d ∧ (s.dmAt k).run = true ∧ (s.dmAt k).due = n := by
  simp [expiring, and_assoc]

/-- The state files after a TICK of domain `d` (R231). -/
def State.afterTick (s : State) (d : Nat) : State :=
  ((s.setNow d (s.nowAt d + 1)).scanSlots d s.cfg.slots.length).1

/-- The expiry condition after the increment, read off the state before it (R228). -/
theorem State.expires_setNow (s : State) (d : Nat) (n : Tick) :
    (List.range s.cfg.slots.length).filter ((s.setNow d n).expires d) = expiring s d n := by
  have hnow : (s.setNow d n).nowAt d = n := (s.nowAt_setNow d d n).trans (if_pos rfl)
  refine List.filter_congr fun k _ => ?_
  rw [State.expires, State.setNow_cfg, State.dmAt_setNow, hnow]

/-- The events of a TICK (R229, R231). -/
theorem State.evq_afterTick (s : State) (d : Nat) :
    (s.afterTick d).evq = pushAll s.evq ((expiring s d (s.nowAt d + 1)).map (expiryEvent s.cfg)) ∧
    (s.afterTick d).ovf =
      (s.ovf || dropsAny s.evq ((expiring s d (s.nowAt d + 1)).map (expiryEvent s.cfg))) := by
  rw [← State.expires_setNow]
  exact State.evq_scanSlots ..

/-- A TICK writes NOW, the slots and the FIFO (R231, R234). -/
theorem State.afterTick_frame (s : State) (d : Nat) : ∃ ds q o,
    s.afterTick d = { s.setNow d (s.nowAt d + 1) with dm := ds, evq := q, ovf := o } :=
  State.scanSlots_frame ..

/-- The counters after a TICK (R231). -/
theorem State.nowAt_afterTick (s : State) (d e : Nat) :
    (s.afterTick d).nowAt e = if e = d then s.nowAt d + 1 else s.nowAt e := by
  rw [State.afterTick, State.nowAt_scanSlots, State.nowAt_setNow]

/-- The slots after a TICK: the expiring ones are stopped and timed out (R228, R230). -/
theorem State.dmAt_afterTick (s : State) (d k : Nat) : (s.afterTick d).dmAt k =
    if k ∈ expiring s d (s.nowAt d + 1) then { s.dmAt k with run := false, timeout := true } else s.dmAt k := by
  rw [State.afterTick, State.dmAt_scanSlots, State.dmAt_setNow, ← State.expires_setNow]
  simp only [List.mem_filter, List.mem_range]

/-! ### The deadline commands past their checks -/

/-- DM_ARM of a configured slot with a legal timeout (R224). -/
theorem execDmArm_of_legal (s : State) (idx : Half) (c : SlotCfg) (hw : s.cfg.wf = true)
    (hc : s.cfg.slots[idx.toNat]? = some c) (h1 : 1 ≤ s.operand.toNat) (hlt : s.operand.toNat < 65536) :
    execDmArm idx s = .next ((s.setDm idx.toNat
      { run := true, timeout := false, due := s.nowAt c.dom + s.operand.setWidth Config.tickW }).complete
      ((s.nowAt c.dom + s.operand.setWidth Config.tickW).setWidth 64)) := by
  refine (s.guarded_indexed_of_some _ hw hc).trans (s.require_of_eq_true _ _ ?_)
  rw [← Bool.decide_and]
  exact decide_eq_true ⟨by omega, hlt⟩

/-- DM_ARM of a configured slot with an illegal timeout (R224). -/
theorem execDmArm_of_illegal (s : State) (idx : Half) (c : SlotCfg) (hw : s.cfg.wf = true)
    (hc : s.cfg.slots[idx.toNat]? = some c) (h : s.operand.toNat = 0 ∨ 65536 ≤ s.operand.toNat) :
    execDmArm idx s = .next (s.raise .errValue) := by
  refine (s.guarded_indexed_of_some _ hw hc).trans (s.require_of_eq_false _ _ ?_)
  rw [← Bool.decide_and]
  exact decide_eq_false fun ⟨h0, hlt⟩ => h.elim h0 (Nat.not_le.2 hlt)

/-- The slots after one of them is modified from its own contents. -/
theorem State.dmAt_setDm_modify (s : State) (k j : Nat) (f : DmSlot → DmSlot) :
    (s.setDm k (f (s.dmAt k))).dmAt j = if j = k then f (s.dmAt j) else s.dmAt j := by
  rw [State.dmAt_setDm]
  split
  · next hj => rw [hj]
  · rfl

/-- `DM[k].RUN <- 0` (R225). -/
def State.stopSlot (s : State) (k : Nat) : State := s.setDm k { s.dmAt k with run := false }

theorem State.dmAt_stopSlot (s : State) (k j : Nat) :
    (s.stopSlot k).dmAt j = if j = k then { s.dmAt j with run := false } else s.dmAt j :=
  s.dmAt_setDm_modify k j fun d => { d with run := false }

/-- DM_DISARM of a configured slot (R225). -/
theorem execDmDisarm_of_slot (s : State) (ntf : Bool) (idx : Half) (c : SlotCfg) (hw : s.cfg.wf = true)
    (hc : s.cfg.slots[idx.toNat]? = some c) :
    execDmDisarm ntf idx s = .next (State.complete
      (if ntf = true ∧ (s.dmAt idx.toNat).run = true ∧ c.kind = .tx then
        (s.stopSlot idx.toNat).pushEvent .txStopNotify idx.toNat
      else s.stopSlot idx.toNat)
      (bitWord (s.dmAt idx.toNat).run)) := by
  refine (s.guarded_indexed_of_some _ hw hc).trans ?_
  simp only [Bool.and_eq_true, decide_eq_true_eq, and_assoc, State.stopSlot]

/-- TICK of a configured domain (R231). -/
theorem execTick_of_lt (s : State) (idx : Half) (hw : s.cfg.wf = true) (hd : idx.toNat < s.cfg.ndom) :
    execTick idx s = .next ((s.afterTick idx.toNat).complete
      (BitVec.ofNat 32 (expiring s idx.toNat (s.nowAt idx.toNat + 1)).length ++
        (s.nowAt idx.toNat + 1).setWidth 32)) := by
  have hnow : (s.afterTick idx.toNat).nowAt idx.toNat = s.nowAt idx.toNat + 1 :=
    (s.nowAt_afterTick _ _).trans (if_pos rfl)
  refine (State.guarded_of_wf _ _ hw).trans ((s.require_of_eq_true _ _ (decide_eq_true hd)).trans ?_)
  show Host.Outcome.next ((s.afterTick idx.toNat).complete
    (BitVec.ofNat 32 ((s.setNow idx.toNat (s.nowAt idx.toNat + 1)).scanSlots idx.toNat s.cfg.slots.length).2 ++
      ((s.afterTick idx.toNat).nowAt idx.toNat).setWidth 32)) = _
  rw [hnow, State.scanSlots_count, State.expires_setNow]

/-! ### The deadline commands -/

/-- Settles O48: the two outcomes of the value check, and a write to one slot. -/
theorem dmArmSetsTheDueTick : Obligations.DmArmSetsTheDueTick := by
  intro s idx c hw hc
  refine ⟨fun h1 hlt => ⟨_, _, execDmArm_of_legal s idx c hw hc h1 hlt, ?_, fun k => s.dmAt_setDm idx.toNat k _⟩,
    execDmArm_of_illegal s idx c hw hc⟩
  rw [BitVec.toNat_add, BitVec.toNat_setWidth]
  exact Nat.add_mod_mod ..

/-- Settles O49: the slot is stopped, and then the event is not asked for, appended, or dropped. -/
theorem dmDisarmClearsRunAndNotifies : Obligations.DmDisarmClearsRunAndNotifies := by
  intro s ntf idx c hw hc
  have hexec := execDmDisarm_of_slot s ntf idx c hw hc
  have hslot := s.dmAt_stopSlot idx.toNat
  by_cases hpush : ntf = true ∧ (s.dmAt idx.toNat).run = true ∧ c.kind = .tx
  · rw [if_pos hpush] at hexec
    simp only [if_pos hpush]
    have hevent : (s.stopSlot idx.toNat).eventOf .txStopNotify idx.toNat =
        ⟨.txStopNotify, idx, c.tag, BitVec.ofNat 16 c.dom⟩ := by
      rw [State.eventOf, State.stopSlot, State.setDm_cfg, s.cfg.slot_of_getElem? _ c hc, BitVec.ofNat_toNat,
        BitVec.setWidth_eq]
    rcases (s.stopSlot idx.toNat).pushEvent_cases .txStopNotify idx.toNat with ⟨hlt, he⟩ | ⟨hle, he⟩
    · rw [he, hevent] at hexec
      exact ⟨_, _, _, hexec, hslot, by rw [if_pos (show s.evq.length < 16 from hlt)]; exact ⟨rfl, rfl⟩⟩
    · rw [he] at hexec
      exact ⟨_, _, _, hexec, hslot, by rw [if_neg (show ¬ s.evq.length < 16 from Nat.not_lt.2 hle)]; exact ⟨rfl, rfl⟩⟩
  · rw [if_neg hpush] at hexec
    exact ⟨_, _, _, hexec, hslot, by rw [if_neg hpush]; exact ⟨rfl, rfl⟩⟩

/-- Concatenation as a number. -/
theorem toNat_append_eq_add {v w : Nat} (x : BitVec v) (y : BitVec w) : (x ++ y).toNat = x.toNat * 2 ^ w + y.toNat := by
  rw [BitVec.toNat_append, ← Nat.shiftLeft_add_eq_or_of_lt y.isLt, Nat.shiftLeft_eq]

/-- The word of a slot as a number (R227). -/
theorem DmSlot.word_toNat (d : DmSlot) : d.word.toNat = d.due.toNat * 2 ^ 32 + d.timeout.toNat * 2 + d.run.toNat := by
  have hlow : (0#30 ++ BitVec.ofBool d.timeout ++ BitVec.ofBool d.run).toNat = d.timeout.toNat * 2 + d.run.toNat := by
    cases d.timeout <;> cases d.run <;> decide
  rw [DmSlot.word, toNat_append_eq_add, hlow, BitVec.toNat_setWidth_of_le (by decide)]
  exact (Nat.add_assoc ..).symm

/-- Settles O50: DM_CLEAR writes one slot and DM_STAT none. -/
theorem dmClearAndDmStat : Obligations.DmClearAndDmStat := by
  intro s idx c hw hc
  exact ⟨⟨_, s.guarded_indexed_of_some _ hw hc,
      fun k => s.dmAt_setDm_modify idx.toNat k fun d => { d with timeout := false }⟩,
    _, s.guarded_indexed_of_some _ hw hc, DmSlot.word_toNat _⟩

/-- Settles O51: the increment of one counter, the scan of the slots, and the pushes into a FIFO within its capacity. -/
theorem tickAdvancesAndExpires : Obligations.TickAdvancesAndExpires := by
  rintro s idx n hw hd hlen rfl
  obtain ⟨ds, q, o, hframe⟩ := s.afterTick_frame idx.toNat
  obtain ⟨hevq, hovf⟩ := s.evq_afterTick idx.toNat
  refine ⟨_, ds, q, o, (execTick_of_lt s idx hw hd).trans (by rw [hframe]; rfl), fun d => ?_, fun k => ?_, ?_, ?_⟩
  · exact s.nowAt_setNow idx.toNat d _
  · rw [← s.dmAt_afterTick, hframe]; rfl
  · rw [← pushAll_eq_take _ _ hlen, ← hevq, hframe]
  · rw [dropsAny_eq _ _ hlen, List.length_map, hframe] at hovf
    exact hovf

/-- Settles O52: the completion with the counter. -/
theorem nowRdReturnsTheCounter : Obligations.NowRdReturnsTheCounter := by
  intro s idx hw hd
  exact (State.guarded_of_wf _ _ hw).trans (s.require_of_eq_true _ _ (decide_eq_true hd))

/-! ### Ticks after an arming -/

/-- The number of events of slot `idx` in a FIFO. -/
def eventsOf (idx : Half) (q : List Event) : Nat := (q.filter fun e => decide (e.slot = idx)).length

theorem eventsOf_append (idx : Half) (p q : List Event) : eventsOf idx (p ++ q) = eventsOf idx p + eventsOf idx q := by
  rw [eventsOf, List.filter_append, List.length_append]
  rfl

/-- A TICK has one event for each slot it expires: R6 bounds the slots, so that SLOT tells them apart (R221, R230). -/
theorem eventsOf_expiring (s : State) (hw : s.cfg.wf = true) (idx : Half) (d : Nat) (n : Tick) :
    eventsOf idx ((expiring s d n).map (expiryEvent s.cfg)) = if idx.toNat ∈ expiring s d n then 1 else 0 := by
  obtain ⟨-, -, -, -, -, -, -, -, hslots⟩ := s.cfg.wf_params hw
  have hnodup : (expiring s d n).Nodup := List.nodup_range.filter _
  rw [← hnodup.count, eventsOf, ← List.countP_eq_length_filter, List.countP_map]
  refine List.countP_congr fun k hk => ?_
  have hlt : k < 2 ^ 16 := ((mem_expiring s d n k).1 hk).1.trans_le hslots
  simp only [Function.comp, expiryEvent, decide_eq_true_eq, beq_iff_eq, ← BitVec.toNat_inj, BitVec.toNat_ofNat,
    Nat.mod_eq_of_lt hlt]

/-- The events of a slot after a TICK that drops none (R221, R231). -/
theorem eventsOf_afterTick (s : State) (hw : s.cfg.wf = true) (idx : Half) (d : Nat)
    (hovf : (s.afterTick d).ovf = false) : s.ovf = false ∧ eventsOf idx (s.afterTick d).evq =
      eventsOf idx s.evq + if idx.toNat ∈ expiring s d (s.nowAt d + 1) then 1 else 0 := by
  obtain ⟨hevq', hovf'⟩ := s.evq_afterTick d
  obtain ⟨hold, hroom⟩ := Bool.or_eq_false_iff.1 (hovf'.symm.trans hovf)
  refine ⟨hold, ?_⟩
  rw [hevq', pushAll_of_not_dropsAny _ _ hroom, eventsOf_append, eventsOf_expiring s hw]

/-- One more TICK that answers a next state. -/
theorem tickTimes_succ {d : Half} {n : Nat} {s t u : State} (ht : tickTimes d n s = some t)
    (hu : exec (.tick d) t = .next u) : tickTimes d (n + 1) s = some u := by
  simp only [tickTimes, ht, hu]

/-- What holds before the first TICK of a domain, and is carried by every TICK to the next number of ticks, holds after any number
of them (R231). -/
theorem tickTimes_induct {d : Half} {s : State} (P : Nat → State → Prop) (zero : P 0 s) (hw : s.cfg.wf = true)
    (hd : d.toNat < s.cfg.ndom) (hcfg : ∀ n u, P n u → u.cfg = s.cfg)
    (succ : ∀ n u v, P n u → P (n + 1) ((u.afterTick d.toNat).complete v)) (n : Nat) :
    ∃ u, tickTimes d n s = some u ∧ P n u := by
  induction n with
  | zero => exact ⟨s, rfl, zero⟩
  | succ n ih =>
    obtain ⟨u, hu, hP⟩ := ih
    have htick := execTick_of_lt u d (hcfg n u hP ▸ hw) (hcfg n u hP ▸ hd)
    exact ⟨_, tickTimes_succ hu htick, succ n u _ hP⟩

/-- What holds in `u`, `n` ticks of domain `d` after DM_ARM of slot `idx` in `s` (R233): the timeout T is the operand. -/
structure State.ArmedFor (s : State) (idx : Half) (d n : Nat) (u : State) : Prop where
  cfg : u.cfg = s.cfg
  cur : u.cur = s.cur
  pbuf : u.pbuf = s.pbuf
  now : u.nowAt d = s.nowAt d + BitVec.ofNat 16 n
  slot : u.dmAt idx.toNat = { run := decide (n < s.operand.toNat), timeout := decide (s.operand.toNat ≤ n)
                              due := s.nowAt d + s.operand.setWidth 16 }
  events : u.ovf = false → eventsOf idx u.evq = eventsOf idx s.evq + if s.operand.toNat ≤ n then 1 else 0

/-- No tick after the arming (R224). -/
theorem State.armedFor_zero (s : State) (idx : Half) (d : Nat) (h1 : 1 ≤ s.operand.toNat) (v : Word64) :
    s.ArmedFor idx d 0 ((s.setDm idx.toNat
      { run := true, timeout := false, due := s.nowAt d + s.operand.setWidth 16 }).complete v) where
  cfg := rfl
  cur := rfl
  pbuf := rfl
  now := (BitVec.add_zero _).symm
  slot := by
    rw [State.dmAt_complete, State.dmAt_setDm, if_pos rfl, decide_eq_true (show 0 < s.operand.toNat from h1),
      decide_eq_false (Nat.not_le.2 h1)]
  events _ := by rw [if_neg (Nat.not_le.2 h1)]; rfl

section
variable {s u : State} {idx : Half} {c : SlotCfg} {n : Nat}

/-- The next TICK expires the armed slot exactly if it is tick T: below 2^16 ticks the counter meets the due tick once, even when it
wraps around (R228, R233). -/
theorem State.ArmedFor.mem_expiring_iff (h : s.ArmedFor idx c.dom n u) (hc : s.cfg.slots[idx.toNat]? = some c)
    (hlt : s.operand.toNat < 65536) :
    idx.toNat ∈ expiring u c.dom (u.nowAt c.dom + 1) ↔ s.operand.toNat = n + 1 := by
  have hdom : (s.cfg.slot idx.toNat).dom = c.dom := congrArg SlotCfg.dom (s.cfg.slot_of_getElem? _ c hc)
  have hdue : s.nowAt c.dom + s.operand.setWidth 16 = s.nowAt c.dom + BitVec.ofNat 16 n + 1 ↔
      s.operand.toNat % 65536 = (n + 1) % 65536 := by
    rw [BitVec.add_assoc, BitVec.add_right_inj, ← BitVec.toNat_inj]
    simp
  rw [mem_expiring, h.cfg, h.slot, h.now]
  simp only [hdom, hdue, lt_length_of_getElem? hc, decide_eq_true_eq, true_and]
  omega

/-- One more TICK (R231, R233). -/
theorem State.ArmedFor.tick (h : s.ArmedFor idx c.dom n u) (hw : s.cfg.wf = true)
    (hc : s.cfg.slots[idx.toNat]? = some c) (hlt : s.operand.toNat < 65536) (v : Word64) :
    s.ArmedFor idx c.dom (n + 1) ((u.afterTick c.dom).complete v) := by
  obtain ⟨ds, q, o, hframe⟩ := u.afterTick_frame c.dom
  have hexp := h.mem_expiring_iff hc hlt
  constructor
  case cfg => rw [State.complete_cfg, hframe]; exact h.cfg
  case cur => rw [State.complete_cur, hframe]; exact h.cur
  case pbuf => rw [State.complete_pbuf, hframe]; exact h.pbuf
  case now =>
    rw [State.nowAt_complete, State.nowAt_afterTick, if_pos rfl, h.now, BitVec.add_assoc, BitVec.ofNat_add]
    rfl
  case slot =>
    rw [State.dmAt_complete, State.dmAt_afterTick, h.slot]
    simp only [hexp]
    split
    · next hT => simp [hT]
    · next hT =>
      congr 1
      · exact decide_eq_decide.2 (by omega)
      · exact decide_eq_decide.2 (by omega)
  case events =>
    intro hovf
    obtain ⟨hold, hcount⟩ := eventsOf_afterTick u (h.cfg ▸ hw) idx c.dom hovf
    rw [State.complete_evq, hcount, h.events hold]
    simp only [hexp]
    split <;> split <;> split <;> omega

end

/-- DM_ARM, and any number of ticks of the slot's domain after it (R233). -/
theorem exec_dmArm_ticks (s : State) (idx : Half) (c : SlotCfg) (n : Nat) (hw : s.cfg.wf = true)
    (hc : s.cfg.slots[idx.toNat]? = some c) (h1 : 1 ≤ s.operand.toNat) (hlt : s.operand.toNat < 65536) :
    ∃ t u, exec (.dmArm idx) s = .next t ∧ tickTimes (BitVec.ofNat 16 c.dom) n t = some u ∧
      s.ArmedFor idx c.dom n u := by
  obtain ⟨-, -, -, hndom, -⟩ := s.cfg.wf_params hw
  have hdom := s.cfg.wf_slot hw c (List.mem_of_getElem? hc)
  have hd : (BitVec.ofNat 16 c.dom).toNat = c.dom := Nat.mod_eq_of_lt (by omega)
  have hstart := s.armedFor_zero idx c.dom h1 ((s.nowAt c.dom + s.operand.setWidth 16).setWidth 64)
  obtain ⟨u, hticks, hu⟩ := tickTimes_induct (d := BitVec.ofNat 16 c.dom) (s.ArmedFor idx c.dom) hstart hw (by rwa [hd])
    (fun _ _ h => h.cfg) (fun _ _ v h => by rw [hd]; exact h.tick hw hc hlt v) n
  exact ⟨_, u, execDmArm_of_legal s idx c hw hc h1 hlt, hticks, hu⟩

/-- Settles O53: what the arming starts and every tick carries on, by induction on the ticks. -/
theorem armedSlotTimesOutOnTickT : Obligations.ArmedSlotTimesOutOnTickT := by
  intro s idx c n hw hc h1 hlt
  obtain ⟨t, u, harm, hticks, h⟩ := exec_dmArm_ticks s idx c n hw hc h1 hlt
  exact ⟨t, u, harm, hticks, congrArg DmSlot.run h.slot, congrArg DmSlot.timeout h.slot, h.events⟩

/-- An extraction reads PBUF under the configuration (R30, R126). -/
theorem State.extract_of_pbuf (s u : State) (hcfg : u.cfg = s.cfg) (hpbuf : u.pbuf = s.pbuf) (r : Region) (e : Endian)
    (pos size : Nat) : u.extract r e pos size = s.extract r e pos size := by
  simp only [State.extract, State.bitAt, State.byteAt, hcfg, hpbuf]

/-- An init value is read from the configuration (R45, R126). -/
theorem State.extractInit_of_cfg (s u : State) (hcfg : u.cfg = s.cfg) (r : Region) (e : Endian) (pos size : Nat) :
    u.extractInit r e pos size = s.extractInit r e pos size := by
  simp only [State.extractInit, hcfg]

/-- Settles O54: the ticks keep PBUF, and the signal is substituted while its slot is timed out. -/
theorem watchedSignalSubstitutesFromTickT : Obligations.WatchedSignalSubstitutesFromTickT := by
  intro s idx slot d c n hw hd hk hdm hc h1 hlt
  obtain ⟨t, u, harm, hticks, h⟩ := exec_dmArm_ticks s slot c n hw hc h1 hlt
  have hsub : u.substitutes d = decide (s.operand.toNat ≤ n) := by
    rw [State.substitutes, hdm]
    exact congrArg DmSlot.timeout h.slot
  have hread : u.readScalar d = if n < s.operand.toNat
      then s.extract (s.cfg.region d.reg) d.endian d.pos d.size
      else s.extractInit (s.cfg.region d.reg) d.endian d.pos d.size := by
    rw [State.readScalar, hsub, s.extract_of_pbuf u h.cfg h.pbuf, s.extractInit_of_cfg u h.cfg, h.cfg]
    by_cases hn : n < s.operand.toNat
    · rw [if_pos hn, decide_eq_false (Nat.not_le.2 hn), if_neg Bool.false_ne_true]
    · rw [if_neg hn, decide_eq_true (Nat.not_lt.1 hn), if_pos rfl]
  have hrd : exec (.sigRd 0 0 idx) u = _ := execSigRd_of_scalar u idx d (h.cfg ▸ hw) (h.cfg ▸ hd) hk
  have hport := u.port_complete (decodeScalar d (u.readScalar d)) (u.substitutes d)
  rw [h.cur] at hport
  refine ⟨t, u, _, harm, hticks, hrd, ?_, ?_⟩
  · rw [hport, ← hsub]
  · rw [hport, ← hread]

end Sys2Proof.Machine

namespace Sys2Proof.Machine

/-! ### Control -/

/-- NOP is a completion with result 0 (R261). -/
theorem execNop_of_wf (s : State) (hw : s.cfg.wf = true) : execNop s = .next (s.complete 0) := s.guarded_of_wf _ hw

/-- A completion writes nothing outside the ports (R16). -/
theorem State.complete_eq_of_ports (s : State) (v : Word64) (b : Bool) :
    s.complete v b = { s with port0 := (s.complete v b).port0, port1 := (s.complete v b).port1 } := rfl

/-- Settles O23: NOP is one completion, whose effect on the two ports is the effect of every completion. -/
theorem nopOnlyCompletes : Obligations.NopOnlyCompletes := by
  intro s hw
  refine ⟨execNop_of_wf s hw, fun v b => ?_⟩
  rw [s.port_complete v b]
  exact ⟨rfl, rfl, rfl, rfl, rfl, rfl, rfl, s.port_complete_other v b, s.complete_eq_of_ports v b⟩

/-- Settles O24: the two cases of the FIFO, the fields of the event's word, and the number of its type by the type. -/
theorem evtPopReturnsTheOldestEvent : Obligations.EvtPopReturnsTheOldestEvent := by
  intro s hw
  refine ⟨execEvtPop_of_nil s hw, fun e rest hq => ⟨e.word, execEvtPop_of_cons s e rest hw hq, ?_⟩⟩
  obtain ⟨hvalid, htype, hfields⟩ := e.word_fields
  refine ⟨hvalid, ?_, hfields⟩
  rw [htype]
  cases e.type <;> rfl

end Sys2Proof.Machine

namespace Sys2Proof.Machine

/-! ### A command that ends with an error -/

/-- A command that leaves a code other than OK ended with `raise` of that code: a completion leaves OK (R15, R16). -/
theorem exec_eq_raise_of_code_ne_ok (s t : State) (i : Instr) (hw : s.cfg.wf = true) (ht : exec i s = .next t)
    (hcode : (t.port s.cur).code ≠ .ok) : t = s.raise (t.port s.cur).code := by
  rcases exec_ends s i hw with ⟨e, -, he⟩ | ⟨m, dl, fs, ds, ns, q, o, v, b, he⟩
  · cases ht.symm.trans he
    rw [s.port_raise e]
  · cases ht.symm.trans he
    exact absurd (congrArg Port.code ((s.withFiles m dl fs ds ns q o).port_complete v b)) hcode

/-- Serving a port that is left with a code other than OK is one `raise` of that code, whether the decoder or a check of the command
raised it (R100, R302). -/
theorem State.servePort_eq_raise_of_code_ne_ok (s t : State) (p : PortId) (hw : s.cfg.wf = true)
    (ht : s.servePort p = .next t) (hcode : (t.port p).code ≠ .ok) :
    t = State.raise { s with cur := p } (t.port p).code := by
  cases hd : decode (s.port p).cmd with
  | error e =>
    cases ht.symm.trans (s.servePort_of_error p e hw hd)
    rw [State.port_raise { s with cur := p } (codeOf e)]
  | ok i => exact exec_eq_raise_of_code_ne_ok { s with cur := p } t i hw ((s.servePort_of_ok p i hd).symm.trans ht) hcode

/-- Settles O20: the step serves the port, which with a code other than OK is one `raise`, a write of CODE, SUB and BUSY. -/
theorem failingCommandChangesOnlyItsStatus : Obligations.FailingCommandChangesOnlyItsStatus := by
  intro s t p rest hs hp ht hcode
  have hw := step_eq_next_wf s t ht
  have hserve := (step_of_execute_busy s p rest hw hs hp).symm.trans ht
  exact State.servePort_eq_raise_of_code_ne_ok { s with sched := rest } t p hw hserve hcode

/-! ### The interrupt -/

/-- COUNT is 0 for the empty FIFO only, if the FIFO is within its capacity (R27, R35). -/
theorem State.evqCount_eq_zero_iff (s : State) (h : s.evq.length ≤ Config.evqDepth) : s.evqCount = 0 ↔ s.evq = [] := by
  rw [← BitVec.toNat_inj, s.evqCount_toNat h]
  exact List.length_eq_zero_iff

/-- Settles O16: COUNT is not 0 exactly when the FIFO is not empty. -/
theorem irqIsEnableAndFifoNotEmpty : Obligations.IrqIsEnableAndFifoNotEmpty := by
  intro s h
  rw [State.irq, decide_eq_decide.2 (not_congr (s.evqCount_eq_zero_iff h))]

end Sys2Proof.Machine

namespace Sys2Proof.Machine

/-! ### What the reset leaves in the block

An empty table reads everywhere as the reset contents of its state file (R30 to R34). -/

theorem State.byteAt_resetBlock (s : State) (a : Nat) : s.resetBlock.byteAt a = s.cfg.initByte a := Table.read_nil _ a
theorem State.dynlenAt_resetBlock (s : State) (i : Nat) : s.resetBlock.dynlenAt i = 0 := Table.read_nil _ i
theorem State.fstAt_resetBlock (s : State) (f : Nat) : s.resetBlock.fstAt f = initFilt s.cfg f := Table.read_nil _ f
theorem State.dmAt_resetBlock (s : State) (k : Nat) : s.resetBlock.dmAt k = DmSlot.idle := Table.read_nil _ k
theorem State.nowAt_resetBlock (s : State) (d : Nat) : s.resetBlock.nowAt d = 0 := Table.read_nil _ d

theorem State.port_resetBlock (s : State) (p : PortId) : s.resetBlock.port p = Port.reset := by
  cases p with
  | p0 => exact State.resetOf_port0 s.cfg
  | p1 => exact State.resetOf_port1 s.cfg

/-- SRST reads 0 in every state (R26). -/
theorem State.ctrl_srst (s : State) : s.ctrl.getLsbD 1 = false := by
  have hbit := congrArg (BitVec.getLsbD · 0) s.ctrl_fields.2
  simpa [BitVec.getLsbD_extractLsb'] using hbit

/-! ### The two reset steps -/

/-- A hardware reset resets the block and consumes the step (R340). -/
theorem step_of_hardReset (s : State) (rest : List AgentStep) (hw : s.cfg.wf = true) (hs : s.sched = .hardReset :: rest) :
    step s = .next (State.resetBlock { s with sched := rest }) :=
  step_of_sched s _ rest hw hs

/-- A write to CTRL with SRST set resets the block, whatever IRQ_EN it carries (R341). -/
theorem State.writeReg_ctrl_of_srst (s : State) (h : HostId) (w : Word32) (hsrst : w.getLsbD 1 = true) :
    s.writeReg h .ctrl w = s.resetBlock := if_pos hsrst

/-- Settles O8: the step resets the block, and each state file then reads as its reset value. -/
theorem hardwareResetSetsEveryResetValue : Obligations.HardwareResetSetsEveryResetValue := by
  intro s rest hw hs
  exact ⟨_, step_of_hardReset s rest hw hs, rfl, rfl, State.byteAt_resetBlock _, State.dynlenAt_resetBlock _,
    State.fstAt_resetBlock _, State.dmAt_resetBlock _, State.nowAt_resetBlock _, State.resetOf_evq s.cfg,
    State.resetOf_ovf s.cfg, State.resetOf_irqEn s.cfg, State.port_resetBlock _⟩

/-- Settles O9: the write and the hardware reset both reset the block, with the same steps to come. -/
theorem softResetIsTheHardwareReset : Obligations.SoftResetIsTheHardwareReset := by
  intro s h w rest hw hs hsrst
  have hsoft : step s = .next (State.resetBlock { s with sched := rest }) := by
    rw [step_of_hostWrite s h 0x40 w rest hw hs (by decide) (by decide)]
    exact congrArg Host.Outcome.next (State.writeReg_ctrl_of_srst { s with sched := rest } h w hsrst)
  have hhard := step_of_hardReset { s with sched := .hardReset :: rest } rest hw rfl
  exact ⟨hsoft.trans hhard.symm, _, hsoft, State.resetOf_irqEn s.cfg, State.ctrl_srst _⟩

end Sys2Proof.Machine
